-- ==== Sys2Proof/Word.lean ====
section
/-!
DEFINITION. The value types of 00_scope.md rule R10: unsigned integers of 8, 16 and 32 bits, and the
container of a binary32 value. The arithmetic on binary32 is in Machine/Binary32.lean.
-/

namespace Sys2Proof

/-- `u8` (R10). -/
abbrev U8 := BitVec 8

/-- `u16` (R10). -/
abbrev U16 := BitVec 16

/-- `u32` (R10): a clock sample. -/
abbrev U32 := BitVec 32

/-- `f32` (R10, D10): an IEEE 754 binary32 value, held as its interchange bits. -/
structure F32 where
  /-- sign, 8 exponent bits, 23 fraction bits, most significant first -/
  bits : U32
deriving DecidableEq, Repr, Inhabited

end Sys2Proof
end

