-- ==== Sys2Proof/Config.lean ====
section
/-!
DEFINITION. The parameters of the block (00_scope.md rules R8 and R9) and the free values: constants without a body, so
that no proof can see their value and a claim holds whatever they are.
-/

namespace Sys2Proof

/-- `PATCH_UPDATE_MODE` (R8, R182): what PATCH does to an instance that exists already. -/
inductive UpdateMode
  | replace
  | ignore
deriving DecidableEq, Repr, Inhabited

/-- The four rules that give the `execute` of a command (10_state.md R36). -/
inductive CommandKind
  | handshake
  | ack
  | patch
  | action
deriving DecidableEq, Repr, Inhabited

/-- The kinds of device (R38). Only `servo` exists in this block; `other` stands for the device kinds that R5 leaves
out, so that the kind checks of R183 and R190 can be written down. -/
inductive DeviceKind
  | servo
  | other (tag : U8)
deriving DecidableEq, Repr, Inhabited

/-- The framing class of a handler (R36, R140). -/
inductive PayloadSize
  | fixed (n : U8)
  | variable
deriving DecidableEq, Repr, Inhabited

/-- `NUM` (R8, D10): the number format of positions, speeds and time steps; the spec has rules for one. -/
inductive NumberFormat
  /-- IEEE 754 binary32, round to nearest even -/
  | binary32
deriving DecidableEq, Repr, Inhabited

/-- The parameters of the block, each one an argument of the model: the whole table of R8. -/
structure Config where
  /-- `CODE_HANDSHAKE` (D2) -/
  codeHandshake : U8
  /-- `CODE_ACK` (D2) -/
  codeAck : U8
  /-- `CODE_PATCH` (D2) -/
  codePatch : U8
  /-- `CODE_ACTION` (D2) -/
  codeAction : U8
  /-- `CODE_SERVO` (D2) -/
  codeServo : U8
  /-- `RESERVED_CODES`: never assigned to real semantics (R69 fixes three of them, `fixedReserved`) -/
  reservedCodes : List U8
  /-- `MIN_PULSE`, microseconds (D8) -/
  minPulse : U16
  /-- `MAX_PULSE`, microseconds (D8) -/
  maxPulse : U16
  /-- `SETTLE_DELAY_MS` (D9) -/
  settleDelayMs : U32
  /-- `READ_TIMEOUT_MS`: timing only, no rule reads it (R322) -/
  readTimeoutMs : Nat
  /-- `MAX_PAYLOAD`, the payload buffer's capacity in bytes (R24) -/
  maxPayload : Nat
  /-- `ID_MIN` (R38, R178) -/
  idMin : U8
  /-- `ID_MAX` (R38, R178) -/
  idMax : U8
  /-- `INSTANCE_CAPACITY`, the slots of `REG` (R38) -/
  instanceCapacity : Nat
  /-- `SERVO_CFG_SIZE`, the servo's configuration bytes after the id (R103) -/
  servoCfgSize : U8
  /-- `ACTION_PAYLOAD_SIZE` (R104, D4) -/
  actionPayloadSize : U8
  /-- `PATCH_UPDATE_MODE` (D19) -/
  patchUpdateMode : UpdateMode
  /-- `RX_CAPACITY` (D1, U13); `none` is unbounded -/
  rxCapacity : Option Nat
  /-- `NUM` (D10) -/
  num : NumberFormat
  /-- `CLOCK_WIDTH`, in bits (D13) -/
  clockWidth : Nat
deriving DecidableEq, Repr, Inhabited

/-- The five codes the block assigns (R92). -/
def Config.codes (c : Config) : List U8 :=
  [c.codeHandshake, c.codeAck, c.codePatch, c.codeAction, c.codeServo]

/-- The codes that R69 reserves: NUL, LF and `#`. -/
def Config.fixedReserved : List U8 := [0, 10, 35]

/-- The parameters whose value the rules themselves write out (R24 and R132 to R136; R38, R137 and R178; R103, R104, R25,
R212), at that value: the spec has no rule for another. The format `num` has one value anyway. Of `RESERVED_CODES` R69
writes out three codes, which are in it. -/
abbrev Config.asWritten (c : Config) : Prop :=
  c.maxPayload = 255 ∧ c.idMin = 1 ∧ c.idMax = 255 ∧ c.instanceCapacity = 255 ∧ c.servoCfgSize = 16 ∧
    c.actionPayloadSize = 3 ∧ c.rxCapacity = none ∧ c.clockWidth = 32 ∧ ∀ x ∈ Config.fixedReserved, x ∈ c.reservedCodes

/-- A well-formed configuration (R9): (a) the codes are pairwise distinct, (b) none is reserved, (c) the pulse limits
are in order. The bounds `MAX_PULSE <= 65535` of (c) and (d) hold by the fields' widths. By (b) and the last check no code
is 0, 10 or 35, whatever `RESERVED_CODES` lists (R69; 93_implementation_defined.md U5). That a parameter is refused at
another value than the rules write, or a list that leaves one of the three out, is the model's own (DESIGN CHOICE, log 29). -/
abbrev Config.wf (c : Config) : Prop :=
  c.codes.Nodup ∧ (∀ x ∈ c.codes, x ∉ c.reservedCodes) ∧ c.minPulse ≤ c.maxPulse ∧ c.asWritten

/-- `SETTLE_DELAY_MS` is OPEN (R8, D9): a free value. -/
opaque Config.openSettleDelayMs : U32

/-- Every parameter at the value 00_scope.md rule R8 gives it. -/
def Config.standard : Config where
  codeHandshake := 0x01
  codeAck := 0x02
  codePatch := 0x03
  codeAction := 0x04
  codeServo := 0x05
  reservedCodes := [0, 10, 35]
  minPulse := 544
  maxPulse := 2400
  settleDelayMs := Config.openSettleDelayMs
  readTimeoutMs := 100
  maxPayload := 255
  idMin := 1
  idMax := 255
  instanceCapacity := 255
  servoCfgSize := 16
  actionPayloadSize := 3
  patchUpdateMode := .replace
  rxCapacity := none
  num := .binary32
  clockWidth := 32

/-- The answer of the clock to its `n`-th sample (R212, R300, U14): a free value. -/
opaque Config.clockSample : Nat → U32

/-- The `n`-th byte drawn by `draw_bytes` (R13, R24, U1, U2): a free value. -/
opaque Config.drawByte : Nat → U8

/-- What a read outside a payload buffer would give (R24: no rule makes one): a free value. -/
opaque Config.byteBeyond : Nat → U8

/-- Whether a non-runnable device target applied, from its code and argument bytes (R179: the target's own rule gives
it, and no such target exists in this block): a free value. -/
opaque Config.transientApplied : U8 → List U8 → Bool

/-- The actuator value for a position whose integer part is no u16 (R219: none arises), from its bits: a free value. -/
opaque Config.unstatedPulse : U32 → U16

/-- Sign and payload of the NaN that an invalid operation on two operands gives (R268: none arises): a free value. -/
opaque Config.nanPayload : U32 → U32 → BitVec 23

end Sys2Proof
end

