-- ==== Sys2Proof/Machine/Binary32.lean ====
section
/-!
DEFINITION. IEEE 754 binary32 arithmetic, round to nearest, ties to even, one rounding per operation (00_scope.md R10, R11;
D10). Every finite value is a whole number of units of 2^-149; an operation computes its exact result as a fraction of
units and rounds it once. The block makes no NaN and no infinity (42_motion.md R268); both are handled as IEEE 754 does, so
that every operation is total.
-/

namespace Sys2Proof.F32

open Sys2Proof

/-- The sign bit. -/
def isNeg (x : F32) : Bool := x.bits.msb

/-- Exponent and fraction bits, as one number that rises with the magnitude. -/
def mag (x : F32) : Nat := x.bits.toNat % 2 ^ 31

/-- The magnitude bits of infinity. -/
def infMag : Nat := 0x7F800000

def isNaN (x : F32) : Bool := infMag < x.mag

def isInf (x : F32) : Bool := x.mag == infMag

def isFinite (x : F32) : Bool := x.mag < infMag

/-- Units of 2^-149 in one. -/
def one : Nat := 2 ^ 149

/-- The value of magnitude bits in units: a subnormal counts its fraction, a normal number with exponent field `e` counts
its significand `2^(e-1)` times. -/
def magUnits (m : Nat) : Nat :=
  if m < 2 ^ 23 then m else (2 ^ 23 + m % 2 ^ 23) * 2 ^ (m / 2 ^ 23 - 1)

/-- The signed value in units. -/
def units (x : F32) : Int := if x.isNeg then -(magUnits x.mag : Int) else magUnits x.mag

/-- The magnitude bits nearest to `num / den` units, ties to even; infinity past the largest finite value. -/
def roundUnits (num den : Nat) : Nat :=
  let shift := Nat.log2 (num / den) - 23
  let ulp := den * 2 ^ shift
  let q := num / ulp
  let r := num % ulp
  let q' := if 2 * r < ulp then q else if 2 * r = ulp then q + q % 2 else q + 1
  min (shift * 2 ^ 23 + q') infMag

/-- A value from its sign and magnitude bits. -/
def pack (neg : Bool) (m : Nat) : F32 := ⟨BitVec.ofNat 32 (if neg then 2 ^ 31 + m else m)⟩

/-- A quiet NaN whose sign and payload are free. -/
def nan (x y : F32) : F32 :=
  let p := Config.nanPayload x.bits y.bits
  ⟨(p.extractLsb' 22 1 ++ (0x1FF : BitVec 9) ++ p.extractLsb' 0 22 : BitVec 32)⟩

/-- `f32(0)`, positive zero. -/
def zero : F32 := ⟨0⟩

/-- `f32(n)` (R11). -/
def ofNat (n : Nat) : F32 :=
  match n with
  | 0 => zero
  | k + 1 => pack false (roundUnits ((k + 1) * one) 1)

/-- `-f` on one operand (R11): the sign is flipped exactly. -/
def neg (x : F32) : F32 := ⟨x.bits ^^^ 0x80000000⟩

/-- `abs` (R11). -/
def abs (x : F32) : F32 := ⟨x.bits &&& 0x7FFFFFFF⟩

/-- `+f` (R11). An exact zero sum is positive unless both operands are negative zeros. -/
def add (x y : F32) : F32 :=
  if x.isNaN || y.isNaN then nan x y
  else if x.isInf then (if y.isInf && x.isNeg != y.isNeg then nan x y else x)
  else if y.isInf then y
  else
    let v := x.units + y.units
    if v = 0 then pack (x.isNeg && y.isNeg) 0 else pack (v < 0) (roundUnits v.natAbs 1)

/-- `-f` (R11). -/
def sub (x y : F32) : F32 := if y.isNaN then nan x y else add x (neg y)

/-- `*f` (R11). -/
def mul (x y : F32) : F32 :=
  let s := x.isNeg != y.isNeg
  if x.isNaN || y.isNaN then nan x y
  else if x.isInf then (if y.mag = 0 then nan x y else pack s infMag)
  else if y.isInf then (if x.mag = 0 then nan x y else pack s infMag)
  else pack s (roundUnits (magUnits x.mag * magUnits y.mag) one)

/-- `/f` (R11). -/
def div (x y : F32) : F32 :=
  let s := x.isNeg != y.isNeg
  if x.isNaN || y.isNaN then nan x y
  else if x.isInf then (if y.isInf then nan x y else pack s infMag)
  else if y.isInf then pack s 0
  else if y.mag = 0 then (if x.mag = 0 then nan x y else pack s infMag)
  else pack s (roundUnits (magUnits x.mag * one) (magUnits y.mag))

/-- `<` (R11): false when an operand is a NaN; the two zeros are equal. -/
def lt (x y : F32) : Bool := !x.isNaN && !y.isNaN && x.units < y.units

/-- `<=` (R11); `x >= y` is `le y x`, `x > y` is `lt y x`. -/
def le (x y : F32) : Bool := !x.isNaN && !y.isNaN && x.units ≤ y.units

/-- `min` (R11). -/
def min (x y : F32) : F32 := if lt y x then y else x

/-- The integer part, rounded toward zero, of a finite value (R11). -/
def truncInt (x : F32) : Int :=
  if x.isNeg then -((magUnits x.mag / one : Nat) : Int) else (magUnits x.mag / one : Nat)

/-- `trunc` as an actuator value (R219, D12). The value of a position that fits no u16, which no reachable state holds, is
free. -/
def trunc (x : F32) : U16 :=
  if x.isFinite ∧ 0 ≤ x.truncInt ∧ x.truncInt ≤ 65535 then BitVec.ofInt 16 x.truncInt
  else Config.unstatedPulse x.bits

end Sys2Proof.F32
end

