-- ==== Sys2Proof/Syntax.lean ====
section
/-!
DEFINITION. The instructions (00_scope.md rule R3): the wire messages, the dropped codes and the internal operations, one
constructor per row of spec/opcode_table.json.
-/

namespace Sys2Proof

/-- The sixteen servo configuration bytes as eight fields, in wire order (30_encoding.md R103). -/
structure ServoConfig where
  /-- actuator pin -/
  pin : U16
  /-- default position, degrees -/
  defaultAngle : U16
  /-- theoretical range low, degrees -/
  tmin : U16
  /-- theoretical range high, degrees -/
  tmax : U16
  /-- `min`: user range low, degrees -/
  userMin : U16
  /-- `max`: user range high, degrees -/
  userMax : U16
  /-- pulse units per second, 0 = unbounded -/
  maxSpeed : U16
  /-- pulse units per second squared, 0 = unbounded -/
  maxAcceleration : U16
deriving DecidableEq, Repr, Inhabited

inductive Instr
  /-- `[CODE_HANDSHAKE]` (R101, R172) -/
  | handshake
  /-- `[CODE_ACK]` (R100, R170) -/
  | ack
  /-- `[CODE_PATCH] [L] [payload]` (R102, R176), every payload that is not a `patchServo` -/
  | patch (payload : List U8)
  /-- `[CODE_ACTION] [id] [angle_hi] [angle_lo]` (R104, R190) -/
  | action (id : U8) (angle : U16)
  /-- `[CODE_PATCH] [18] [CODE_SERVO] [id] [16 configuration bytes]` (R103, R121, R220) -/
  | patchServo (id : U8) (cfg : ServoConfig)
  /-- the reserved code 0 as a leading byte (R110) -/
  | reservedNul
  /-- the reserved code 10 as a leading byte (R110) -/
  | reservedLf
  /-- the reserved code 35 as a leading byte (R110) -/
  | reservedHash
  /-- any other leading byte that `CMD` does not assign (R111) -/
  | unassigned (code : U8)
  /-- internal operation `configure` on the instance `id` at clock sample `t` (R220) -/
  | configure (id : U8) (cfg : ServoConfig) (t : U32)
  /-- internal operation `set_target` on the instance `id` at clock sample `t` (R222) -/
  | setTarget (id : U8) (angle : U16) (t : U32)
  /-- internal operation `tick` on the instance `id` at clock sample `t` (R225) -/
  | tick (id : U8) (t : U32)
deriving DecidableEq, Repr

/-- The instructions that a byte sequence encodes: all but the internal operations (R3). -/
def Instr.onWire : Instr → Bool
  | .handshake | .ack | .patch _ | .action _ _ | .patchServo _ _ => true
  | .reservedNul | .reservedLf | .reservedHash | .unassigned _ => true
  | .configure _ _ _ | .setTarget _ _ _ | .tick _ _ => false

end Sys2Proof
end

