-- ==== Sys2Proof/WellFormed.lean ====
section
/-!
DEFINITION. When an instruction is well formed: each message has exactly one well-formed reading under a configuration.
-/

namespace Sys2Proof

/-- A PATCH payload that the table's row PATCH_SERVO stands for: 18 bytes, the first of them `CODE_SERVO`. -/
def Config.isServoPatch (c : Config) (payload : List U8) : Bool :=
  payload.length == 18 && payload.head? == some c.codeServo

/-- The codes that `CMD` assigns (R36). -/
def Config.commandCodes (c : Config) : List U8 :=
  [c.codeHandshake, c.codeAck, c.codePatch, c.codeAction]

/-- Well-formedness of an instruction: a PATCH payload fits its length byte (R91) and is not the servo form; a dropped
code is not a command's (R110, R111); an internal operation names an id in 1..255 (R38). -/
def Instr.wf (c : Config) : Instr → Bool
  | .handshake => true
  | .ack => true
  | .patch payload => decide (payload.length ≤ 255) && !c.isServoPatch payload
  | .action _ _ => true
  | .patchServo _ _ => true
  | .reservedNul => !c.commandCodes.contains 0
  | .reservedLf => !c.commandCodes.contains 10
  | .reservedHash => !c.commandCodes.contains 35
  | .unassigned code => !c.commandCodes.contains code && code != 0 && code != 10 && code != 35
  | .configure id _ _ => id != 0
  | .setTarget id _ _ => id != 0
  | .tick id _ => id != 0

end Sys2Proof
end

