-- ==== Sys2Proof/Decode.lean ====
section
/-!
DEFINITION. Message decoding and encoding (30_encoding.md): byte order, the payload of each handler, the frame of each
code, and the opcode table's numbering of a message's bits.
-/

namespace Sys2Proof

/-- Byte `i` of a payload, `P[i]` (R10). A read outside the payload, which no rule makes (R24), is a free value. -/
def byteAt (P : List U8) (i : Nat) : U8 := P.getD i (Config.byteBeyond i)

/-- `BE16(P, i)` (R13, R62, R95): the byte that arrives first is the more significant one. -/
def be16 (P : List U8) (i : Nat) : U16 := byteAt P i ++ byteAt P (i + 1)

/-- The two bytes of a u16 in wire order (R62). -/
def be16Bytes (v : U16) : List U8 := [v.extractLsb' 8 8, v.extractLsb' 0 8]

/-- The configuration fields at their offsets (R103). -/
def ServoConfig.ofBytes (cfg : List U8) : ServoConfig where
  pin := be16 cfg 0
  defaultAngle := be16 cfg 2
  tmin := be16 cfg 4
  tmax := be16 cfg 6
  userMin := be16 cfg 8
  userMax := be16 cfg 10
  maxSpeed := be16 cfg 12
  maxAcceleration := be16 cfg 14

/-- The sixteen configuration bytes in wire order (R103). -/
def ServoConfig.toBytes (cfg : ServoConfig) : List U8 :=
  be16Bytes cfg.pin ++ be16Bytes cfg.defaultAngle ++ be16Bytes cfg.tmin ++ be16Bytes cfg.tmax ++
    be16Bytes cfg.userMin ++ be16Bytes cfg.userMax ++ be16Bytes cfg.maxSpeed ++ be16Bytes cfg.maxAcceleration

/-- The PATCH payload of a servo message, after the length byte (R102, R103, R121). -/
def servoPayload (c : Config) (id : U8) (cfg : ServoConfig) : List U8 := c.codeServo :: id :: cfg.toBytes

/-- Which command a leading code names (R92, R93): only `CMD` is consulted (D26). -/
def Config.commandOf (c : Config) (code : U8) : Option CommandKind :=
  if code = c.codeHandshake then some .handshake
  else if code = c.codeAck then some .ack
  else if code = c.codePatch then some .patch
  else if code = c.codeAction then some .action
  else none

/-- The framing class of each command (R36, R91). -/
def CommandKind.size (c : Config) : CommandKind → PayloadSize
  | .handshake => .fixed 0
  | .ack => .fixed 0
  | .patch => .variable
  | .action => .fixed c.actionPayloadSize

/-- The instruction for a leading code that `CMD` does not assign (R110, R111). -/
def droppedInstr (code : U8) : Instr :=
  if code = 0 then .reservedNul
  else if code = 10 then .reservedLf
  else if code = 35 then .reservedHash
  else .unassigned code

/-- The instruction a handler of kind `k` runs on the payload buffer `P` of effective size `L` (R102, R104, R144): only
bytes below `L` are read. -/
def decodePayload (c : Config) (k : CommandKind) (P : List U8) (L : Nat) : Instr :=
  match k with
  | .handshake => .handshake
  | .ack => .ack
  | .patch =>
    if c.isServoPatch (P.take L) then .patchServo (byteAt P 1) (ServoConfig.ofBytes (P.drop 2))
    else .patch (P.take L)
  | .action => .action (byteAt P 0) (be16 P 1)

/-- Why a byte sequence holds no whole message (R94). -/
inductive DecodeError
  /-- there is no code byte -/
  | noCode
  /-- a variable-size message without its length byte -/
  | noLength
  /-- fewer payload bytes than the frame declares -/
  | shortFrame (needed present : Nat)
deriving DecidableEq, Repr

/-- The first `n` bytes as the payload of a handler, and the bytes after them. -/
def decodeBody (c : Config) (k : CommandKind) (n : Nat) (bytes : List U8) : Except DecodeError (Instr × List U8) :=
  if bytes.length < n then .error (.shortFrame n bytes.length)
  else .ok (decodePayload c k (bytes.take n) n, bytes.drop n)

/-- The first message of a byte sequence and the bytes after it (R94). -/
def decode (c : Config) (bytes : List U8) : Except DecodeError (Instr × List U8) :=
  match bytes with
  | [] => .error .noCode
  | code :: rest =>
    match c.commandOf code with
    | none => .ok (droppedInstr code, rest)
    | some k =>
      match k.size c with
      | .fixed n => decodeBody c k n.toNat rest
      | .variable =>
        match rest with
        | [] => .error .noLength
        | len :: body => decodeBody c k len.toNat body

/-- The wire bytes of an instruction (R100 to R104, R110, R111); an internal operation has none (R3). -/
def encode (c : Config) (i : Instr) : List U8 :=
  match i with
  | .handshake => [c.codeHandshake]
  | .ack => [c.codeAck]
  | .patch payload => c.codePatch :: BitVec.ofNat 8 payload.length :: payload
  | .action id angle => c.codeAction :: id :: be16Bytes angle
  | .patchServo id cfg => c.codePatch :: 18 :: servoPayload c id cfg
  | .reservedNul => [0]
  | .reservedLf => [10]
  | .reservedHash => [35]
  | .unassigned code => [code]
  | .configure _ _ _ => []
  | .setTarget _ _ _ => []
  | .tick _ _ => []

/-- The longest message: a code, a length byte and 255 payload bytes (R90). -/
def maxMessage : Nat := 257

/-- The bytes of a message whose bits are `w`, numbered as the opcode table numbers them: byte `i` is bits
`8 * i + 7 .. 8 * i`; the bits at `nbits` and above are 0. -/
def tableBytes (nbits w : Nat) : List U8 :=
  (List.range maxMessage).map fun i => BitVec.ofNat 8 ((w % 2 ^ nbits) >>> (8 * i))

/-- The instruction the decoder reads from a table word, under the standard configuration (R92). -/
def decodeTableWord (nbits w : Nat) : Option Instr :=
  match decode Config.standard (tableBytes nbits w) with
  | .ok r => some r.1
  | .error _ => none

end Sys2Proof
end

