-- ==== Sys2Proof/Machine/Registry.lean ====
section
/-!
DEFINITION. The two handler registries (10_state.md R36, R37): their entries, registration, lookup, and the boot that fills
them (70_reset_and_hazards.md R310).
-/

namespace Sys2Proof.Machine

open Sys2Proof

/-- A command's handler descriptor, an entry of `CMD` (R36). -/
structure Command where
  code : U8
  /-- non-empty (R140) -/
  name : String
  size : PayloadSize
  runnable : Bool
  /-- whether a successful execution is followed by an ACK -/
  acks : Bool
  /-- the rule that gives `execute` -/
  kind : CommandKind
deriving DecidableEq, Repr, Inhabited

/-- A device's handler descriptor, an entry of `DEV` (R36); a device is not dispatched, so it has no `acks`. -/
structure Device where
  code : U8
  /-- non-empty (R140) -/
  name : String
  /-- configuration bytes after the id -/
  cfgSize : U8
  runnable : Bool
  kind : DeviceKind
deriving DecidableEq, Repr, Inhabited

/-- `CMD[c]` (R12, R37): the descriptor from which `create` makes a fresh handler, or none. -/
def commandAt (r : List Command) (code : U8) : Option Command := r.find? fun e => e.code == code

/-- `DEV[c]` (R12, R37). -/
def deviceAt (r : List Device) (code : U8) : Option Device := r.find? fun e => e.code == code

/-- `register(code, factory)` (R37): false, and no change, when the code has an entry already. -/
def registerCommand (r : List Command) (d : Command) : Bool × List Command :=
  if r.any (fun e => e.code == d.code) then (false, r) else (true, r ++ [d])

/-- `register` of the device registry (R37). -/
def registerDevice (r : List Device) (d : Device) : Bool × List Device :=
  if r.any (fun e => e.code == d.code) then (false, r) else (true, r ++ [d])

/-- The four command descriptors of R36, in the order of R310. -/
def inScopeCommands (c : Config) : List Command :=
  [ { code := c.codeHandshake, name := "HANDSHAKE", size := CommandKind.handshake.size c, runnable := false, acks := false,
      kind := .handshake },
    { code := c.codeAck, name := "ACK", size := CommandKind.ack.size c, runnable := false, acks := false, kind := .ack },
    { code := c.codePatch, name := "PATCH", size := CommandKind.patch.size c, runnable := false, acks := true,
      kind := .patch },
    { code := c.codeAction, name := "ACTION", size := CommandKind.action.size c, runnable := false, acks := true,
      kind := .action } ]

/-- The device descriptor of R36. -/
def servoDevice (c : Config) : Device :=
  { code := c.codeServo, name := "SERVO", cfgSize := c.servoCfgSize, runnable := true, kind := .servo }

/-- Boot step 2 for `CMD` (R310): every in-scope command registered into an empty registry. -/
def bootCommands (c : Config) : List Command :=
  (inScopeCommands c).foldl (fun r d => (registerCommand r d).2) []

/-- Boot step 2 for `DEV` (R310). -/
def bootDevices (c : Config) : List Device :=
  [servoDevice c].foldl (fun r d => (registerDevice r d).2) []

end Sys2Proof.Machine
end

