-- ==== Sys2Proof/Machine/State.lean ====
section
/-!
DEFINITION. The state of the block (10_state.md), as plain data, and its value after reset (70_reset_and_hazards.md R300).
-/

namespace Sys2Proof.Machine

open Sys2Proof

/-- The sequencer register `SEQ` (R22). -/
inductive Seq
  /-- `S_POLL`: at the start of a loop iteration -/
  | poll
  /-- `S_WAITLEN`: a variable-size handler waits for its length byte -/
  | waitLen (h : Command)
  /-- `S_WAIT`: a handler waits for `n` payload bytes -/
  | wait (h : Command) (n : U8)
  /-- `S_EXEC`: a handler is ready to execute on the buffer `P` of effective size `L` -/
  | exec (h : Command) (P : List U8) (L : U8) (timedOut : Bool)
  /-- `S_SWEEP`: the tick sweep -/
  | sweep
deriving DecidableEq, Repr, Inhabited

/-- The profile phase (R41, R43). -/
inductive Phase
  | idle
  | accelerating
  | cruising
  | decelerating
  | settling
deriving DecidableEq, Repr, Inhabited

/-- The sign of a move (R41, R44). -/
inductive Direction
  /-- -1 -/
  | minus
  /-- +1 -/
  | plus
deriving DecidableEq, Repr, Inhabited

/-- A servo's register set: configuration (R40), motion (R41) and actuator channel (R42). -/
structure Servo where
  pin : U16
  tmin : U16
  tmax : U16
  /-- `min`, the low end of the user-restricted range -/
  userMin : U16
  /-- `max`, the high end of the user-restricted range -/
  userMax : U16
  /-- 0 = unbounded (D5) -/
  maxSpeed : U16
  /-- 0 = unbounded (D5) -/
  maxAcceleration : U16
  defaultPos : U16
  current : F32
  target : U16
  speed : F32
  decelPoint : F32
  /-- `movement_direction` -/
  direction : Direction
  phase : Phase
  phaseStartedAt : U32
  lastTick : U32
  attached : Bool
  actPin : U16
  pulse : U16
deriving DecidableEq, Repr, Inhabited

/-- A live runnable handler, an entry of `REG` (R38). -/
structure Instance where
  kind : DeviceKind
  id : U8
  servo : Servo
deriving DecidableEq, Repr, Inhabited

/-- The error events (R271). -/
inductive Event
  /-- 1, `E_UNKNOWN_CODE`: the code byte, or none -/
  | unknownCode (code : Option U8)
  /-- 2, `E_READ_TIMEOUT`: handler code, bytes needed, bytes present -/
  | readTimeout (code : U8) (needed present : Nat)
  /-- 3, `E_UNRUNNABLE_TARGET`: the id -/
  | unrunnableTarget (id : U8)
  /-- 4, `E_NO_INSTANCE`: the id -/
  | noInstance (id : U8)
  /-- 5, `E_BAD_ID`: the id -/
  | badId (id : U8)
  /-- 6, `E_SHORT_PAYLOAD`: target code and `L` -/
  | shortPayload (target len : U8)
deriving DecidableEq, Repr, Inhabited

/-- The actuator requests that change something (R290). -/
inductive Request
  | attach (pin : U16)
  | detach
  | writePulse (v : U16)
deriving DecidableEq, Repr, Inhabited

/-- A coming move of an agent (R7): the host appends one byte (D34), or the unit takes a step. -/
inductive Move
  | append (b : U8)
  | unit
deriving DecidableEq, Repr, Inhabited

structure State where
  /-- the configuration argument (R8); the model's own field, no step writes it -/
  config : Config
  /-- `SEQ` (R22) -/
  seq : Seq
  /-- `RX` (R25) -/
  rx : List U8
  /-- `TX` (R26) -/
  tx : List U8
  /-- `CMD` (R36), in registration order -/
  cmd : List Command
  /-- `DEV` (R36), in registration order -/
  dev : List Device
  /-- `REG` (R38): the filled slots, ids rising -/
  reg : List (U8 × Instance)
  /-- `HIST` (R48) -/
  hist : List Event
  /-- the requests sent to the actuators (R290), oldest first, each with its instance's id; the model's own field -/
  requests : List (U8 × Request)
  /-- whose move comes next (R7, R139); when it is empty the unit moves; the model's own field -/
  agenda : List Move
  /-- the clock's coming answers (R7, R212); when it is empty the answer is free; the model's own field -/
  clockTape : List U32
  /-- how many free clock answers were given; the model's own field -/
  clockCount : Nat
  /-- how many free bytes and free instances were drawn; the model's own field -/
  drawCount : Nat
deriving DecidableEq, Repr, Inhabited

/-- The block has no fault outcome: no rule faults or sticks (R154, R274). -/
inductive Fault
deriving DecidableEq, Repr

/-- Why a step can be refused. -/
inductive Refusal
  /-- Raised by an arm of `exec` whose instruction has no meaning yet; safe. No arm raises it. -/
  | notModelled (mnemonic : String)
  /-- Raised by `step` when the configuration is ill formed: the spec itself has a model refuse one that fails R9 (R274);
  one that fails the check of log 29 is refused by the model's choice; safe. -/
  | illFormedConfiguration
deriving DecidableEq, Repr

/-- The registers of an instance that `configure` has not written yet (R42, R301, U15): a free value. -/
opaque freshServo : Nat → Servo

/-- The state after reset under a configuration (R300, R310). -/
def State.resetWith (c : Config) : State where
  config := c
  seq := .poll
  rx := []
  tx := []
  cmd := bootCommands c
  dev := bootDevices c
  reg := []
  hist := []
  requests := []
  agenda := []
  clockTape := []
  clockCount := 0
  drawCount := 0

/-- The state after reset, with every parameter at the value R8 gives it. -/
def State.reset : State := State.resetWith Config.standard

end Sys2Proof.Machine
end

