-- ==== Sys2Proof/Machine/Operands.lean ====
section
/-!
DEFINITION. Operand forms: payload reads (00_scope.md R13), the clamp, the bounded map, the clock step and the bounds
(42_motion.md R211 to R215).
-/

namespace Sys2Proof.Machine

open Sys2Proof

/-- `MemRead(P, i, n)` (R13): the big-endian value of `n` payload bytes, `n` in 1, 2. -/
def memRead (P : List U8) (i n : Nat) : Nat := if n = 1 then (byteAt P i).toNat else (be16 P i).toNat

/-- `clamp` (R211). -/
def clamp (x lo hi : Int) : Int := max lo (min hi x)

/-- The bounded linear map (R213), exact, the quotient rounded toward zero. -/
def boundedMap (x inLo inHi outLo outHi : Int) : Int :=
  if inHi ≤ inLo then outLo
  else ((clamp x inLo inHi - inLo) * (outHi - outLo)).tdiv (inHi - inLo) + outLo

/-- `to_pulse(s, a)` (R214). -/
def toPulse (c : Config) (s : Servo) (a : Int) : U16 :=
  BitVec.ofInt 16 (boundedMap a s.tmin.toNat s.tmax.toNat c.minPulse.toNat c.maxPulse.toNat)

/-- `elapsed(t, t0)`, milliseconds modulo 2^32 (R212). -/
def elapsed (t t0 : U32) : U32 := t - t0

/-- `dt(t, t0)`, seconds (R212). -/
def timeStep (t t0 : U32) : F32 := (F32.ofNat (elapsed t t0).toNat).div (F32.ofNat 1000)

/-- `V` (R215). -/
def Servo.speedBound (s : Servo) : F32 := F32.ofNat s.maxSpeed.toNat

/-- `A` (R215). -/
def Servo.accel (s : Servo) : F32 := F32.ofNat s.maxAcceleration.toNat

/-- `T` (R215). -/
def Servo.goal (s : Servo) : F32 := F32.ofNat s.target.toNat

end Sys2Proof.Machine
end

