-- ==== Sys2Proof/Machine/Flags.lean ====
section
/-!
DEFINITION. The flags of a servo (10_state.md R43, R44): the direction of a move and the comparisons that decide a phase
change.
-/

namespace Sys2Proof.Machine

open Sys2Proof

/-- `movement_direction` of a move to `goal` (R44, R222): +1 when the two are equal (D16). -/
def directionTo (goal current : F32) : Direction := if goal.lt current then .minus else .plus

/-- `passed(p, b)` (R216): the position has reached the point or gone beyond it (D17). -/
def passed (dir : Direction) (p b : F32) : Bool :=
  match dir with
  | .plus => b.le p
  | .minus => p.le b

/-- Whether a speed runs over the bound (R227): an unbounded speed never does, and a speed equal to it does not. -/
def overSpeed (s : Servo) (sp : F32) : Bool := s.maxSpeed != 0 && s.speedBound.lt sp

/-- Whether the settle delay is over (R230): equality counts (D9). -/
def settled (c : Config) (s : Servo) (t : U32) : Bool := c.settleDelayMs ≤ elapsed t s.phaseStartedAt

end Sys2Proof.Machine
end

