-- ==== Sys2Proof/Machine/Servo.lean ====
section
/-!
DEFINITION. The servo motion controller (42_motion.md): the actuator requests, `configure`, `set_target` and `tick`, as
functions of one servo that give the servo after them and the requests they make, in order.
-/

namespace Sys2Proof.Machine

open Sys2Proof

/-- A servo after some work on it, and the actuator requests the work made, oldest first. -/
structure Acted where
  servo : Servo
  out : List Request
deriving DecidableEq, Repr

/-- A servo with no request made yet. -/
def Acted.start (s : Servo) : Acted := ⟨s, []⟩

/-- `Attach(s, pin)` (R290, D38). -/
def Acted.attach (a : Acted) (pin : U16) : Acted :=
  ⟨{ a.servo with attached := true, actPin := pin }, a.out ++ [.attach pin]⟩

/-- `Detach(s)` (R290): `act_pin` and `pulse` are kept. -/
def Acted.detach (a : Acted) : Acted := ⟨{ a.servo with attached := false }, a.out ++ [.detach]⟩

/-- `WritePulse(s, v)` (R290). -/
def Acted.writePulse (a : Acted) (v : U16) : Acted :=
  ⟨{ a.servo with pulse := v }, a.out ++ [.writePulse v]⟩

/-- `configure` (R220): the static bounds, the motion registers at the default position, the actuator armed there. -/
def configureServo (c : Config) (s : Servo) (cfg : ServoConfig) (t : U32) : Acted :=
  let bounds : Servo := { s with
    pin := cfg.pin, tmin := cfg.tmin, tmax := cfg.tmax, userMin := cfg.userMin, userMax := cfg.userMax,
    maxSpeed := cfg.maxSpeed, maxAcceleration := cfg.maxAcceleration }
  let default := toPulse c bounds cfg.defaultAngle.toNat
  let armed : Servo := { bounds with
    defaultPos := default, target := default, current := F32.ofNat default.toNat, speed := F32.zero,
    direction := .plus, decelPoint := F32.ofNat default.toNat, phase := .settling, phaseStartedAt := t, lastTick := t }
  ((Acted.start armed).attach cfg.pin).writePulse default

/-- `decel_point(s)` for bounded acceleration (R223), from the goal, the position and the direction in the servo. -/
def decelPointOf (s : Servo) : F32 :=
  let half := ((s.goal.sub s.current).abs).div (F32.ofNat 2)
  let d :=
    if s.maxSpeed = 0 then half
    else half.min ((s.speedBound.mul s.speedBound).div ((F32.ofNat 2).mul s.accel))
  match s.direction with
  | .plus => s.goal.sub d
  | .minus => s.goal.add d

/-- `Attach` on a detached actuator only (R222, D25). -/
def Acted.reattach (a : Acted) : Acted := if a.servo.attached then a else a.attach a.servo.pin

/-- The target of a requested angle (R222): clamped into `[min, max]`, then mapped. -/
def targetOf (c : Config) (s : Servo) (angle : U16) : U16 :=
  toPulse c s (clamp angle.toNat s.userMin.toNat s.userMax.toNat)

/-- `set_target` (R222). -/
def setTargetServo (c : Config) (s : Servo) (angle : U16) (t : U32) : Acted :=
  let a := (Acted.start s).reattach
  let aimed : Servo := { a.servo with target := targetOf c s angle, phaseStartedAt := t, lastTick := t }
  let turned : Servo := { aimed with direction := directionTo aimed.goal aimed.current }
  if turned.maxAcceleration = 0 then
    ⟨{ turned with phase := .cruising, speed := turned.speedBound, decelPoint := turned.goal }, a.out⟩
  else
    ⟨{ turned with phase := .accelerating, speed := F32.zero, decelPoint := decelPointOf turned }, a.out⟩

/-- `finish` (R218): snap to the target and enter Settling. -/
def finish (s : Servo) (t : U32) : Acted :=
  (Acted.start { s with current := s.goal, speed := F32.zero, phase := .settling, phaseStartedAt := t }).writePulse s.target

/-- `advance` (R217): one movement step, the product rounded first. -/
def advance (dir : Direction) (p v dt : F32) : F32 :=
  match dir with
  | .plus => p.add (v.mul dt)
  | .minus => p.sub (v.mul dt)

/-- A step that reaches the deceleration point is clamped to it (R227, R228). -/
def enterDecel (s : Servo) (speed : F32) (t : U32) : Acted :=
  (Acted.start { s with
    current := s.decelPoint, speed := speed, phase := .decelerating, phaseStartedAt := t }).writePulse s.decelPoint.trunc

/-- tick, Accelerating (R227, R232). -/
def tickAccelerating (s : Servo) (t : U32) (dt : F32) : Acted :=
  let free := s.speed.add (s.accel.mul dt)
  let exceeds := overSpeed s free
  let sp := if exceeds then s.speedBound else free
  let p := advance s.direction s.current sp dt
  if passed s.direction p s.goal then finish s t
  else if passed s.direction p s.decelPoint then enterDecel s sp t
  else
    let moved : Servo := { s with current := p, speed := sp }
    (Acted.start (if exceeds then { moved with phase := .cruising, phaseStartedAt := t } else moved)).writePulse p.trunc

/-- tick, Cruising (R228). -/
def tickCruising (s : Servo) (t : U32) (dt : F32) : Acted :=
  if s.maxSpeed = 0 then finish s t
  else
    let p := advance s.direction s.current s.speedBound dt
    if passed s.direction p s.goal then finish s t
    else if passed s.direction p s.decelPoint then enterDecel s s.speedBound t
    else (Acted.start { s with current := p }).writePulse p.trunc

/-- tick, Decelerating (R229). -/
def tickDecelerating (s : Servo) (t : U32) (dt : F32) : Acted :=
  if s.maxAcceleration = 0 then finish s t
  else
    let sp := s.speed.sub (s.accel.mul dt)
    if sp.lt F32.zero then finish s t
    else
      let p := advance s.direction s.current sp dt
      if passed s.direction p s.goal then finish s t
      else (Acted.start { s with current := p, speed := sp }).writePulse p.trunc

/-- tick, Settling (R230). -/
def tickSettling (c : Config) (s : Servo) (t : U32) : Acted :=
  if settled c s t then
    let a := (Acted.start s).detach
    ⟨{ a.servo with phase := .idle, phaseStartedAt := t }, a.out⟩
  else Acted.start s

/-- `tick` (R225): the phase's arm over the time since the last tick. -/
def tickServo (c : Config) (s : Servo) (t : U32) : Acted :=
  let dt := timeStep t s.lastTick
  let s' : Servo := { s with lastTick := t }
  match s.phase with
  | .idle => Acted.start s'
  | .accelerating => tickAccelerating s' t dt
  | .cruising => tickCruising s' t dt
  | .decelerating => tickDecelerating s' t dt
  | .settling => tickSettling c s' t

end Sys2Proof.Machine
end

