-- ==== Sys2Proof/Machine/Ops.lean ====
section
/-!
DEFINITION. The named operations over the state: the stream primitives, the clock and the draws (00_scope.md R13), the
instance registry (10_state.md R38), the rejection that stands where a processor takes an exception (60_exceptions.md R275),
and the end of a handler's execution with its ACK (40_dispatch.md R138, R152).
-/

namespace Sys2Proof.Machine

open Sys2Proof

/-- `SEQ <- q` (R22). -/
def State.setSeq (s : State) (q : Seq) : State := { s with seq := q }

/-- `RX <- bytes`, the part of `RxPop` that consumes (R13). -/
def State.setRx (s : State) (bytes : List U8) : State := { s with rx := bytes }

/-- The host appends one byte to `RX` (R7, R25, D34). -/
def State.hostAppend (s : State) (b : U8) : State := { s with rx := s.rx ++ [b] }

/-- The rest of the agenda, once its first move is taken. -/
def State.setAgenda (s : State) (moves : List Move) : State := { s with agenda := moves }

/-- `TxPush(b)` (R13). -/
def State.txPush (s : State) (b : U8) : State := { s with tx := s.tx ++ [b] }

/-- `record E` (R13, R272). -/
def State.record (s : State) (e : Event) : State := { s with hist := s.hist ++ [e] }

/-- The answer of the clock to a sample (R13, R212): the next one laid down, else a free value (R300, U14). -/
def State.now (s : State) : U32 :=
  match s.clockTape with
  | t :: _ => t
  | [] => Config.clockSample s.clockCount

/-- The state once the clock is sampled: the next sample has an answer of its own. -/
def State.sampled (s : State) : State :=
  match s.clockTape with
  | _ :: ts => { s with clockTape := ts }
  | [] => { s with clockCount := s.clockCount + 1 }

/-- `draw_bytes(n)` (R13): free bytes. -/
def State.draws (s : State) (n : Nat) : List U8 := (List.range n).map fun i => Config.drawByte (s.drawCount + i)

/-- The state once `n` values are drawn. -/
def State.drawn (s : State) (n : Nat) : State := { s with drawCount := s.drawCount + n }

/-- `REG[id]` (R12, R38). -/
def regGet : List (U8 × Instance) → U8 → Option Instance
  | [], _ => none
  | (k, v) :: r, id => if k = id then some v else regGet r id

/-- `REG[id] <- inst` (R12), in the canonical form: ids rising. -/
def regPut : List (U8 × Instance) → U8 → Instance → List (U8 × Instance)
  | [], id, v => [(id, v)]
  | (k, w) :: r, id, v =>
    if id < k then (id, v) :: (k, w) :: r
    else if id = k then (id, v) :: r
    else (k, w) :: regPut r id v

/-- The canonical form of `REG` with R38 and R39: ids rising, none of them 0, each instance under its own id. -/
abbrev RegWf (r : List (U8 × Instance)) : Prop :=
  (r.map Prod.fst).Pairwise (· < ·) ∧ ∀ e ∈ r, e.1 ≠ 0 ∧ e.2.id = e.1

/-- `REG[id]` holds `inst` with the servo after some work on it, and the work's requests go out (R290). -/
def State.putActed (s : State) (id : U8) (inst : Instance) (a : Acted) : State :=
  { s with
    reg := regPut s.reg id { inst with servo := a.servo }
    requests := s.requests ++ a.out.map fun r => (id, r) }

/-- `raise Reject(E)` (R13, R275): the event is recorded and the execution ends with `applied = false`. -/
def reject (e : Event) (s : State) : Bool × State := (false, s.record e)

/-- Whether the command of a code is followed by an ACK when it applied (R36, R152). -/
def State.acksOf (s : State) (code : U8) : Bool :=
  match commandAt s.cmd code with
  | some h => h.acks
  | none => false

/-- The end of the `S_EXEC` step (R138, R152): the ACK if the command applied and is acknowledged, then `S_SWEEP`. -/
def complete (code : U8) (r : Bool × State) : State :=
  (if r.1 && r.2.acksOf code then r.2.txPush r.2.config.codeAck else r.2).setSeq .sweep

/-- A leading code that `CMD` does not assign (R132): recorded and dropped. -/
def dropCode (code : U8) (s : State) : State := (s.record (.unknownCode (some code))).setSeq .sweep

/-- `new_instance(kind, id)` (R176): a detached channel (R42), every register unspecified (R301, U15). -/
def newInstance (kind : DeviceKind) (id : U8) (s : State) : Instance :=
  { kind := kind, id := id, servo := { freshServo s.drawCount with attached := false } }

/-- `configure` of the instance `inst` at `REG[id]`, at clock sample `t` (R220). -/
def configureAt (s : State) (id : U8) (inst : Instance) (cfg : ServoConfig) (t : U32) : State :=
  s.putActed id inst (configureServo s.config inst.servo cfg t)

/-- `set_target` of the instance `inst` at `REG[id]`, at clock sample `t` (R222). -/
def setTargetAt (s : State) (id : U8) (inst : Instance) (angle : U16) (t : U32) : State :=
  s.putActed id inst (setTargetServo s.config inst.servo angle t)

/-- `if REG[id] != None: tick(REG[id], t)` (R137, R225). -/
def tickAt (s : State) (id : U8) (t : U32) : State :=
  match regGet s.reg id with
  | none => s
  | some inst => s.putActed id inst (tickServo s.config inst.servo t)

/-- `new_instance` then `configure` (R176, R180): the only rule that adds an entry to `REG`. -/
def createAt (s : State) (kind : DeviceKind) (id : U8) (cfg : ServoConfig) (t : U32) : State :=
  configureAt (s.drawn 1) id (newInstance kind id s) cfg t

/-- PATCH of a runnable target, past the length and id checks (R176): create (R180), kind mismatch (R183) or update
(R182). The clock is sampled once, before any of them. -/
def upsert (d : Device) (id : U8) (cfg : ServoConfig) (s : State) : Bool × State :=
  let t := s.now
  let s1 := s.sampled
  match regGet s1.reg id with
  | none => (true, createAt s1 d.kind id cfg t)
  | some inst =>
    if inst.kind ≠ d.kind then reject (.unrunnableTarget id) s1
    else
      match s1.config.patchUpdateMode with
      | .replace => (true, configureAt s1 id inst cfg t)
      | .ignore => (true, s1)

/-- `execute_PATCH(P, L)` on the payload `P[0..L)` (R176, R184). -/
def runPatch (payload : List U8) (s : State) : Bool × State :=
  match payload with
  | [] => reject (.unknownCode none) s
  | target :: args =>
    match deviceAt s.dev target with
    | none => reject (.unknownCode (some target)) s
    | some d =>
      if !d.runnable then (Config.transientApplied target args, s)
      else if payload.length < 2 + d.cfgSize.toNat then
        reject (.shortPayload target (BitVec.ofNat 8 payload.length)) s
      else
        let id := byteAt payload 1
        if id = 0 then reject (.badId 0) s
        else upsert d id (ServoConfig.ofBytes ((payload.drop 2).take d.cfgSize.toNat)) s

/-- The instance an ACTION addresses (R190): id 0 has none. -/
def addressed (s : State) (id : U8) : Option Instance := if id = 0 then none else regGet s.reg id

/-- `execute_ACTION(P, L)` (R190). -/
def runAction (id : U8) (angle : U16) (s : State) : Bool × State :=
  match addressed s id with
  | none => reject (.noInstance id) s
  | some inst =>
    if inst.kind ≠ .servo then reject (.unrunnableTarget id) s
    else (true, setTargetAt s.sampled id inst angle s.now)

end Sys2Proof.Machine
end

