-- ==== Sys2Proof/Machine/Commands.lean ====
section
/-!
DEFINITION. The meanings of the wire messages and of the dropped codes (41_commands.md; 40_dispatch.md R132, R138). A meaning
is the unit's step that executes the instruction once its bytes are consumed.
-/

namespace Sys2Proof.Machine

open Sys2Proof

/-- HANDSHAKE (R172): replies with its own code; its descriptor asks for no ACK. -/
def execHandshake (s : State) : Host.Outcome State Fault Refusal :=
  .next (complete s.config.codeHandshake (true, s.txPush s.config.codeHandshake))

/-- ACK (R170): nothing is written; its descriptor asks for no ACK. -/
def execAck (s : State) : Host.Outcome State Fault Refusal := .next (complete s.config.codeAck (true, s))

/-- PATCH (R176 to R184). -/
def execPatch (payload : List U8) (s : State) : Host.Outcome State Fault Refusal :=
  .next (complete s.config.codePatch (runPatch payload s))

/-- PATCH SERVO (R121, R176, R220): PATCH on the payload that spells its fields. -/
def execPatchServo (id : U8) (cfg : ServoConfig) (s : State) : Host.Outcome State Fault Refusal :=
  .next (complete s.config.codePatch (runPatch (servoPayload s.config id cfg) s))

/-- ACTION (R190 to R192). -/
def execAction (id : U8) (angle : U16) (s : State) : Host.Outcome State Fault Refusal :=
  .next (complete s.config.codeAction (runAction id angle s))

/-- The reserved code NUL (R110). -/
def execReservedNul (s : State) : Host.Outcome State Fault Refusal := .next (dropCode 0 s)

/-- The reserved code LF (R110). -/
def execReservedLf (s : State) : Host.Outcome State Fault Refusal := .next (dropCode 10 s)

/-- The reserved code `#` (R110). -/
def execReservedHash (s : State) : Host.Outcome State Fault Refusal := .next (dropCode 35 s)

/-- An unassigned code (R111). -/
def execUnassigned (code : U8) (s : State) : Host.Outcome State Fault Refusal := .next (dropCode code s)

end Sys2Proof.Machine
end

