-- ==== Sys2Proof/Machine/Motion.lean ====
section
/-!
DEFINITION. The meanings of the internal operations (42_motion.md) on the instance of an id. On an id with no instance there
is nothing to act on: `configure` first makes the instance, as PATCH does (41_commands.md R180); the two others change
nothing (DESIGN CHOICE, log 7).
-/

namespace Sys2Proof.Machine

open Sys2Proof

/-- `configure` (R220). What it does on an empty slot is the model's choice (log 7), and so is that it treats id 0 as any
other empty slot and stores an instance under key 0: the spec never calls it there and never stores id 0 (R38), such an
instruction is ill formed (`Instr.wf`), and no step runs one. -/
def execConfigure (id : U8) (cfg : ServoConfig) (t : U32) (s : State) : Host.Outcome State Fault Refusal :=
  match regGet s.reg id with
  | none => .next (createAt s .servo id cfg t)
  | some inst => .next (configureAt s id inst cfg t)

/-- `set_target` (R222). -/
def execSetTarget (id : U8) (angle : U16) (t : U32) (s : State) : Host.Outcome State Fault Refusal :=
  match regGet s.reg id with
  | none => .next s
  | some inst => .next (setTargetAt s id inst angle t)

/-- `tick` (R225 to R230). -/
def execTick (id : U8) (t : U32) (s : State) : Host.Outcome State Fault Refusal := .next (tickAt s id t)

end Sys2Proof.Machine
end

