-- ==== Sys2Proof/Machine/Dispatch.lean ====
section
/-!
DEFINITION. One arm per instruction: the call of its meaning.
-/

namespace Sys2Proof.Machine

open Sys2Proof

def exec (i : Instr) (s : State) : Host.Outcome State Fault Refusal :=
  match i with
  | .handshake => Sys2Proof.Machine.execHandshake s
  | .ack => Sys2Proof.Machine.execAck s
  | .patch payload => Sys2Proof.Machine.execPatch payload s
  | .action id angle => Sys2Proof.Machine.execAction id angle s
  | .patchServo id cfg => Sys2Proof.Machine.execPatchServo id cfg s
  | .reservedNul => Sys2Proof.Machine.execReservedNul s
  | .reservedLf => Sys2Proof.Machine.execReservedLf s
  | .reservedHash => Sys2Proof.Machine.execReservedHash s
  | .unassigned code => Sys2Proof.Machine.execUnassigned code s
  | .configure id cfg t => Sys2Proof.Machine.execConfigure id cfg t s
  | .setTarget id angle t => Sys2Proof.Machine.execSetTarget id angle t s
  | .tick id t => Sys2Proof.Machine.execTick id t s

end Sys2Proof.Machine
end

