-- ==== Sys2Proof/Machine/Sequencer.lean ====
section
/-!
DEFINITION. The control-loop sequencer (40_dispatch.md R130 to R139): what a unit step does in each state of `SEQ`, up to the
instruction it runs.
-/

namespace Sys2Proof.Machine

open Sys2Proof

/-- What a unit step comes to: it runs an instruction on a state (the dropped codes of R132, and R138), or it is a step of
the sequencer that runs none. -/
inductive Fetched
  | run (i : Instr) (s : State)
  | moved (s : State)
deriving DecidableEq, Repr

/-- `SEQ <- S_EXEC(h, payload ++ draws, L, timed_out)` with a fresh buffer (R24, R132 to R136). -/
def beginExec (h : Command) (payload : List U8) (len : U8) (timedOut : Bool) (s : State) : State :=
  let n := s.config.maxPayload - payload.length
  (s.drawn n).setSeq (.exec h (payload ++ s.draws n) len timedOut)

/-- `S_POLL` with no byte waiting (R131), or with a code byte (R132). -/
def fetchPoll (s : State) : Fetched :=
  match s.rx with
  | [] => .moved (s.setSeq .sweep)
  | code :: rest =>
    match commandAt s.cmd code with
    | none => .run (droppedInstr code) (s.setRx rest)
    | some h =>
      match h.size with
      | .fixed n =>
        if n = 0 then .moved (beginExec h [] 0 false (s.setRx rest))
        else .moved ((s.setRx rest).setSeq (.wait h n))
      | .variable => .moved ((s.setRx rest).setSeq (.waitLen h))

/-- `S_WAITLEN`: the length byte arrives (R133) or times out (R134). -/
def fetchLength (h : Command) (s : State) : State :=
  match s.rx with
  | [] => beginExec h [] 0 true (s.record (.readTimeout h.code 1 0))
  | len :: rest =>
    if len = 0 then beginExec h [] 0 false (s.setRx rest)
    else (s.setRx rest).setSeq (.wait h len)

/-- `S_WAIT`: the payload arrives (R135) or times out (R136). -/
def fetchPayload (h : Command) (n : U8) (s : State) : State :=
  if s.rx.length < n.toNat then beginExec h [] n true (s.record (.readTimeout h.code n.toNat s.rx.length))
  else beginExec h (s.rx.take n.toNat) n false (s.setRx (s.rx.drop n.toNat))

/-- The instance ids from `ID_MIN` to `ID_MAX`, ascending (R38, D24). -/
def sweepIds (c : Config) : List U8 :=
  (List.range' c.idMin.toNat (c.idMax.toNat + 1 - c.idMin.toNat)).map (BitVec.ofNat 8)

/-- The tick sweep (R137): every instance once, by ascending id, at one clock sample. -/
def sweep (s : State) : State :=
  let t := s.now
  ((sweepIds s.config).foldl (fun s' id => tickAt s' id t) s.sampled).setSeq .poll

/-- What a unit step comes to in the state of `SEQ` (R130). -/
def fetch (s : State) : Fetched :=
  match s.seq with
  | .poll => fetchPoll s
  | .waitLen h => .moved (fetchLength h s)
  | .wait h n => .moved (fetchPayload h n s)
  | .exec h P len _ => .run (decodePayload s.config h.kind P len.toNat) s
  | .sweep => .moved (sweep s)

/-- An agenda whose next move is the unit's: unchanged where it is so already. -/
def unitFirst (moves : List Move) : List Move :=
  match moves with
  | .append _ :: _ => .unit :: moves
  | _ => moves

/-- `s` with a whole message standing where the next unit step runs it: a dropped code at the front of `RX` in `S_POLL`,
the framed payload of a command in `S_EXEC` (what R132 to R135 make of the message's bytes). -/
def placeMessage (s : State) (bytes : List U8) : State :=
  let s' := s.setAgenda (unitFirst s.agenda)
  match bytes with
  | [] => s'
  | code :: rest =>
    match commandAt s.cmd code with
    | none => (s'.setRx (code :: s.rx)).setSeq .poll
    | some h =>
      match h.size with
      | .fixed n => beginExec h (rest.take n.toNat) n false s'
      | .variable =>
        match rest with
        | [] => s'
        | len :: body => beginExec h (body.take len.toNat) len false s'

/-- A quiescent state (R156): nothing to read and every servo at rest. -/
abbrev State.quiescent (s : State) : Prop :=
  s.seq = .poll ∧ s.rx = [] ∧ ∀ e ∈ s.reg, e.2.servo.phase = .idle

end Sys2Proof.Machine
end

