-- ==== Sys2Proof/Machine/Step.lean ====
section
/-!
DEFINITION. One step of the machine: a host move of the agenda, or a unit step of the sequencer; and the placing of a table
word where the next step runs it.
-/

namespace Sys2Proof.Machine

open Sys2Proof

/-- One step of the unit (R130): the sequencer's own step, or the meaning of the instruction it runs. -/
def unitStep (s : State) : Host.Outcome State Fault Refusal :=
  match fetch s with
  | .run i s' => exec i s'
  | .moved s' => .next s'

/-- One step. An ill-formed configuration is refused (R9, R274). The agenda says which agent moves (R7, R139); with none
left, the unit does. -/
def step (s : State) : Host.Outcome State Fault Refusal :=
  if s.config.wf then
    match s.agenda with
    | .append b :: rest => .next ((s.setAgenda rest).hostAppend b)
    | .unit :: rest => unitStep (s.setAgenda rest)
    | [] => unitStep s
  else .refused .illFormedConfiguration

/-- `s` with the table word's message placed so that the next step runs it. -/
def State.withFetchWord (s : State) (nbits w : Nat) : State := placeMessage s (tableBytes nbits w)

end Sys2Proof.Machine
end

