-- ==== Sys2Proof/Safety.lean ====
section
/-!
DEFINITION. What holds of the block in every reachable state (10_state.md R22, R36 to R39, R45; 42_motion.md R233), the
reachable states, and the spec's formulas on plain numbers in which claims are stated.
-/

namespace Sys2Proof

/-- `r` is what rounding the exact value `num / den` units once, to nearest even, gives (R11, D10): no NaN; where it is
finite, nearer than every other finite value, or as near and even; infinite exactly from half a unit past the largest
finite magnitude on; with the sign of the exact value, unless that is 0. -/
def F32.IsNearest (r : F32) (num : Int) (den : Nat) : Prop :=
  r.isNaN = false ∧
  (r.isFinite = true → ∀ z : F32, z.isFinite = true → z.units ≠ r.units →
    |num - den * r.units| < |num - den * z.units| ∨
      |num - den * r.units| = |num - den * z.units| ∧ r.mag % 2 = 0) ∧
  (r.isFinite = false ↔ (den * (F32.magUnits (F32.infMag - 1) + F32.magUnits F32.infMag) : Nat) ≤ 2 * |num|) ∧
  (num ≠ 0 → r.isNeg = decide (num < 0))

end Sys2Proof

namespace Sys2Proof.Machine

open Sys2Proof

/-- A servo in a moving phase (R45(c)). -/
def Servo.moving (s : Servo) : Bool := s.phase == .accelerating || s.phase == .cruising || s.phase == .decelerating

/-- The invariant of one servo: R45 (a) to (e), and what R45 rests on (R40, R223, R227, R233). -/
structure ServoInv (c : Config) (s : Servo) : Prop where
  /-- R45(a) -/
  idle_iff_detached : s.phase = .idle ↔ s.attached = false
  /-- R45(b) -/
  current_low : (F32.ofNat c.minPulse.toNat).le s.current = true
  /-- R45(b) -/
  current_high : s.current.le (F32.ofNat c.maxPulse.toNat) = true
  /-- R45(b) -/
  target_low : c.minPulse ≤ s.target
  /-- R45(b) -/
  target_high : s.target ≤ c.maxPulse
  /-- R40 -/
  default_low : c.minPulse ≤ s.defaultPos
  /-- R40 -/
  default_high : s.defaultPos ≤ c.maxPulse
  /-- R45(c): the position is not past the target -/
  not_past_target : s.moving = true → passed s.direction s.goal s.current = true
  /-- R45(d) -/
  at_rest : s.phase = .settling ∨ s.phase = .idle → s.current = s.goal
  /-- R45(e) -/
  speed_finite : s.speed.isFinite = true
  /-- R45(e) -/
  speed_nonneg : F32.zero.le s.speed = true
  /-- R223, R233: before it decelerates, a servo has the deceleration point ahead of it and the target not before that -/
  decel_ahead : s.phase = .accelerating ∨ s.phase = .cruising →
    passed s.direction s.decelPoint s.current = true ∧ passed s.direction s.goal s.decelPoint = true
  /-- R222: with unbounded acceleration the deceleration point is the target -/
  decel_unbounded : s.phase = .cruising → s.maxAcceleration = 0 → s.decelPoint = s.goal
  /-- R227, R229: only a bounded acceleration accelerates or decelerates -/
  accel_bounded : s.phase = .accelerating ∨ s.phase = .decelerating → s.maxAcceleration ≠ 0

/-- The handler in `SEQ` is the registered one (R132), waits for 1 to 255 bytes (R22), and runs on a full buffer with the
effective size its framing gives (R24, R144). -/
def SeqInv (cmd : List Command) : Seq → Prop
  | .poll => True
  | .waitLen h => commandAt cmd h.code = some h ∧ h.size = .variable
  | .wait h n => commandAt cmd h.code = some h ∧ n ≠ 0 ∧ (h.size = .variable ∨ h.size = .fixed n)
  | .exec h P len _ =>
    commandAt cmd h.code = some h ∧ P.length = 255 ∧ (h.size = .variable ∨ h.size = .fixed len)
  | .sweep => True

/-- The configuration is well formed (R9) and the registries hold what the boot put into them (R37, R310). -/
structure Booted (s : State) : Prop where
  config_wf : s.config.wf
  commands : s.cmd = bootCommands s.config
  devices : s.dev = bootDevices s.config

/-- The invariant of the block. -/
structure Inv (s : State) : Prop where
  booted : Booted s
  seq_ok : SeqInv s.cmd s.seq
  reg_ok : RegWf s.reg
  servo_ok : ∀ e ∈ s.reg, e.2.kind = .servo ∧ ServoInv s.config e.2.servo

/-- The states a run reaches, from reset under any well-formed configuration, whatever the host and the clock do. -/
inductive Reachable : State → Prop
  | reset (c : Config) (moves : List Move) (tape : List U32) (h : c.wf) :
    Reachable { State.resetWith c with agenda := moves, clockTape := tape }
  | step (s t : State) (h : Reachable s) (h' : Machine.step s = .next t) : Reachable t

/-! ### The spec's formulas on plain numbers -/

/-- `clamp` (R211) on naturals. -/
def clampNat (x lo hi : Nat) : Nat := max lo (min hi x)

/-- `to_pulse` (R213, R214) on naturals. -/
def pulseNat (c : Config) (tmin tmax : U16) (angle : Nat) : Nat :=
  if tmax.toNat ≤ tmin.toNat then c.minPulse.toNat
  else
    (clampNat angle tmin.toNat tmax.toNat - tmin.toNat) * (c.maxPulse.toNat - c.minPulse.toNat) /
      (tmax.toNat - tmin.toNat) + c.minPulse.toNat

/-- The default position of a configuration (R220, R221). -/
def defaultPulse (c : Config) (cfg : ServoConfig) : U16 :=
  BitVec.ofNat 16 (pulseNat c cfg.tmin cfg.tmax cfg.defaultAngle.toNat)

/-- A servo just configured (R220), written out. -/
def configuredServo (c : Config) (cfg : ServoConfig) (t : U32) : Servo where
  pin := cfg.pin
  tmin := cfg.tmin
  tmax := cfg.tmax
  userMin := cfg.userMin
  userMax := cfg.userMax
  maxSpeed := cfg.maxSpeed
  maxAcceleration := cfg.maxAcceleration
  defaultPos := defaultPulse c cfg
  current := F32.ofNat (defaultPulse c cfg).toNat
  target := defaultPulse c cfg
  speed := F32.zero
  decelPoint := F32.ofNat (defaultPulse c cfg).toNat
  direction := .plus
  phase := .settling
  phaseStartedAt := t
  lastTick := t
  attached := true
  actPin := cfg.pin
  pulse := defaultPulse c cfg

/-- The requests `configure` makes (R220). -/
def configureRequests (c : Config) (id : U8) (cfg : ServoConfig) : List (U8 × Request) :=
  [(id, .attach cfg.pin), (id, .writePulse (defaultPulse c cfg))]

/-- A servo after `set_target` (R222, R223), written out over the numbers of R213. -/
def aimedServo (c : Config) (s : Servo) (angle : U16) (t : U32) : Servo :=
  let target : U16 := BitVec.ofNat 16 (pulseNat c s.tmin s.tmax (clampNat angle.toNat s.userMin.toNat s.userMax.toNat))
  let goal := F32.ofNat target.toNat
  let half := (goal.sub s.current).abs.div (F32.ofNat 2)
  let v := F32.ofNat s.maxSpeed.toNat
  let braking := (v.mul v).div ((F32.ofNat 2).mul (F32.ofNat s.maxAcceleration.toNat))
  let d := if s.maxSpeed = 0 then half else half.min braking
  { s with
    target := target
    direction := if goal.lt s.current then .minus else .plus
    phase := if s.maxAcceleration = 0 then .cruising else .accelerating
    speed := if s.maxAcceleration = 0 then v else F32.zero
    decelPoint :=
      if s.maxAcceleration = 0 then goal else if goal.lt s.current then goal.add d else goal.sub d
    phaseStartedAt := t
    lastTick := t
    attached := true
    actPin := if s.attached then s.actPin else s.pin }

/-- The requests `set_target` makes (R222, D25): it attaches a detached actuator and writes nothing. -/
def aimRequests (id : U8) (s : Servo) : List (U8 × Request) := if s.attached then [] else [(id, .attach s.pin)]

/-- A servo that finished its move at clock sample `t` (R218), written out. -/
def finishedServo (s : Servo) (t : U32) : Servo :=
  { s with
    current := F32.ofNat s.target.toNat
    speed := F32.zero
    phase := .settling
    phaseStartedAt := t
    lastTick := t
    pulse := s.target }

/-- A servo stopped at its deceleration point at clock sample `t`, with a speed (R227, R228), written out. -/
def brakingServo (s : Servo) (speed : F32) (t : U32) : Servo :=
  { s with
    current := s.decelPoint
    speed := speed
    phase := .decelerating
    phaseStartedAt := t
    lastTick := t
    pulse := s.decelPoint.trunc }

/-- A servo moved to a position within its phase at clock sample `t`, with a speed, written out. -/
def movedServo (s : Servo) (p speed : F32) (t : U32) : Servo :=
  { s with current := p, speed := speed, lastTick := t, pulse := p.trunc }

/-- `REG[id]` given a new servo, and the requests sent out with it; nothing else changes. -/
def State.withServo (s : State) (id : U8) (inst : Instance) (sv : Servo) (sent : List (U8 × Request)) : State :=
  { s with reg := regPut s.reg id { inst with servo := sv }, requests := s.requests ++ sent }

/-- Whether the actuator of an id is attached once the requests of a list went out (R290), from whether it was before. -/
def attachedBy (id : U8) (was : Bool) (sent : List (U8 × Request)) : Bool :=
  sent.foldl (fun on r =>
    if r.1 = id then
      match r.2 with
      | .attach _ => true
      | .detach => false
      | .writePulse _ => on
    else on) was

/-- The `attached` register of the instance of an id; an empty slot has no attached actuator (R42). -/
def isAttached (reg : List (U8 × Instance)) (id : U8) : Bool := (regGet reg id).any fun inst => inst.servo.attached

/-- The sequencer's order within one loop iteration (R23, R130). -/
def Seq.follows : Seq → Seq → Bool
  | .poll, .sweep => true
  | .poll, .exec _ _ _ _ => true
  | .poll, .wait _ _ => true
  | .poll, .waitLen _ => true
  | .waitLen _, .wait _ _ => true
  | .waitLen _, .exec _ _ _ _ => true
  | .wait _ _, .exec _ _ _ _ => true
  | .exec _ _ _ _, .sweep => true
  | .sweep, .poll => true
  | _, _ => false

/-- The phase changes a tick can make (R231); staying in a phase is no change. -/
def Phase.tickTo : Phase → Phase → Bool
  | .accelerating, .cruising => true
  | .accelerating, .decelerating => true
  | .accelerating, .settling => true
  | .cruising, .decelerating => true
  | .cruising, .settling => true
  | .decelerating, .settling => true
  | .settling, .idle => true
  | _, _ => false

/-- The number of an event (R271). -/
def Event.number : Event → Nat
  | .unknownCode _ => 1
  | .readTimeout _ _ _ => 2
  | .unrunnableTarget _ => 3
  | .noInstance _ => 4
  | .badId _ => 5
  | .shortPayload _ _ => 6

/-- The number of a phase (R43). -/
def Phase.number : Phase → Nat
  | .idle => 0
  | .accelerating => 1
  | .cruising => 2
  | .decelerating => 3
  | .settling => 4

end Sys2Proof.Machine
end

