-- ==== Sys2Proof/Certificates/Slice0/Obligations.lean ====
section
/-!
DEFINITION. The statements for the provers. The words of the spec each one formalises are in OBLIGATIONS.json.
-/

open Sys2Proof Sys2Proof.Machine

/-! ### Encoding -/

/-- Decode and encode agree on every well-formed message, with every operand, whatever bytes follow (R91; R94, which the
spec derives from it). -/
def Obligations.DecodeEncodeRoundTrip : Prop :=
  ∀ (c : Config) (i : Instr) (rest : List U8), c.wf → i.onWire = true → i.wf c = true →
    decode c (encode c i ++ rest) = .ok (i, rest)

/-- What the decoder reads is a well-formed message, and the bytes it took are that message's bytes (R91; R94, which the
spec derives from it). -/
def Obligations.EncodeDecodeRoundTrip : Prop :=
  ∀ (c : Config) (bytes rest : List U8) (i : Instr), c.wf → decode c bytes = .ok (i, rest) →
    bytes = encode c i ++ rest ∧ i.onWire = true ∧ i.wf c = true

/-- The code fixes the length of a message (R94, which the spec derives from R91): 1 byte for HANDSHAKE, ACK and every
code `CMD` does not assign, 1 + 3 for ACTION, 2 + L for PATCH; a message cut short decodes to nothing. -/
def Obligations.FrameLengthFollowsCode : Prop :=
  ∀ (c : Config) (rest : List U8), c.wf →
    decode c (c.codeHandshake :: rest) = .ok (.handshake, rest) ∧
    decode c (c.codeAck :: rest) = .ok (.ack, rest) ∧
    (∀ code, code ∉ c.commandCodes → ∃ i, decode c (code :: rest) = .ok (i, rest)) ∧
    (∀ id hi lo, decode c (c.codeAction :: id :: hi :: lo :: rest) = .ok (.action id (hi ++ lo), rest)) ∧
    (rest.length < 3 → decode c (c.codeAction :: rest) = .error (.shortFrame 3 rest.length)) ∧
    decode c [c.codePatch] = .error .noLength ∧
    (∀ len : U8, len.toNat ≤ rest.length →
      ∃ i, decode c (c.codePatch :: len :: rest) = .ok (i, rest.drop len.toNat)) ∧
    (∀ len : U8, rest.length < len.toNat →
      decode c (c.codePatch :: len :: rest) = .error (.shortFrame len.toNat rest.length))

/-- A payload byte is itself at any offset, the last one too; two payload bytes are a big-endian u16 at any offset, and a
u16 goes out as the same two bytes (R62, R95). -/
def Obligations.BytePairsAreBigEndian : Prop :=
  ∀ (P : List U8) (i : Nat),
    (∀ h : i < P.length, memRead P i 1 = P[i].toNat) ∧
    ∀ h : i + 1 < P.length,
      (be16 P i).toNat = P[i].toNat * 256 + P[i + 1].toNat ∧ memRead P i 2 = P[i].toNat * 256 + P[i + 1].toNat ∧
      be16Bytes (be16 P i) = [P[i], P[i + 1]]

/-- Table words written out from the encodings (R92, R103, R104; 95_test_vectors.md V10 to V12) decode to the
instructions they stand for. The bytes are the spec's; that byte `i` of a message is bits `8 * i + 7` down to `8 * i` of
the word is the model's reading of the opcode table (DEDUCED, log 17). -/
def Obligations.SampleWordsDecode : Prop :=
  decodeTableWord 8 0x01 = some .handshake ∧ decodeTableWord 8 0x02 = some .ack ∧
  decodeTableWord 16 0x0003 = some (.patch []) ∧ decodeTableWord 32 0x0E010704 = some (.action 7 270) ∧
  decodeTableWord 160 0xD007E803B4000000B40000005A00090001051203 =
    some (.patchServo 1 { pin := 9, defaultAngle := 90, tmin := 0, tmax := 180, userMin := 0, userMax := 180,
                          maxSpeed := 1000, maxAcceleration := 2000 }) ∧
  decodeTableWord 8 0x00 = some .reservedNul ∧ decodeTableWord 8 0x0A = some .reservedLf ∧
  decodeTableWord 8 0x23 = some .reservedHash ∧ decodeTableWord 8 0x05 = some (.unassigned 5) ∧
  decodeTableWord 8 0xFF = some (.unassigned 0xFF)

/-! ### The sequencer -/

/-- A unit step in `S_EXEC` runs the instruction that the handler's payload spells, and nothing around it (R138); a unit
step in `S_POLL` before a code that `CMD` does not assign takes that byte and runs its instruction (R132). Where the
agenda names the unit, that entry is used up (the model's mechanism of log 5, a DESIGN CHOICE). -/
def Obligations.StepRunsDecodedInstruction : Prop :=
  ∀ (s : State), s.config.wf →
    (∀ h P len b, s.seq = .exec h P len b →
      (s.agenda = [] → step s = exec (decodePayload s.config h.kind P len.toNat) s) ∧
      (∀ moves, s.agenda = .unit :: moves →
        step s = exec (decodePayload s.config h.kind P len.toNat) { s with agenda := moves })) ∧
    (∀ code rest, s.seq = .poll → s.rx = code :: rest → commandAt s.cmd code = none →
      (s.agenda = [] → step s = exec (droppedInstr code) { s with rx := rest }) ∧
      (∀ moves, s.agenda = .unit :: moves →
        step s = exec (droppedInstr code) { s with agenda := moves, rx := rest }))

/-- A whole message at the front of `RX` is framed in at most three steps and then runs as the instruction the decoder
reads, on a state where only its bytes are gone (R130, R132 to R138, R144; R145, which the spec derives): every
well-formed message, with every operand, whatever bytes follow it. The agenda, empty here, is log 5's. -/
def Obligations.WholeMessageIsFramedAndRun : Prop :=
  ∀ (s : State) (i : Instr) (rest : List U8), Booted s → s.seq = .poll → s.agenda = [] → i.onWire = true →
    i.wf s.config = true → s.rx = encode s.config i ++ rest →
    ∃ (k : Nat) (s' : State), k ≤ 3 ∧ Host.Core.run Sys2Proof.core (k + 1) s = exec i s' ∧
      s' = { s with rx := rest, seq := s'.seq, drawCount := s'.drawCount }

/-- R131: a poll with no byte waiting. -/
def Obligations.PollWithoutByte : Prop :=
  ∀ s : State, s.config.wf → s.agenda = [] → s.seq = .poll → s.rx = [] → step s = .next { s with seq := .sweep }

/-- R132: a poll takes one code byte; an unassigned one is recorded and dropped, a command begins its framing. -/
def Obligations.PollTakesOneCode : Prop :=
  ∀ (s : State) (code : U8) (rest : List U8), s.config.wf → s.agenda = [] → s.seq = .poll → s.rx = code :: rest →
    (commandAt s.cmd code = none →
      step s = .next { s with rx := rest, hist := s.hist ++ [.unknownCode (some code)], seq := .sweep }) ∧
    (∀ h, commandAt s.cmd code = some h → h.size = .fixed 0 →
      ∃ P, P.length = 255 ∧
        step s = .next { s with rx := rest, seq := .exec h P 0 false, drawCount := s.drawCount + 255 }) ∧
    (∀ h n, commandAt s.cmd code = some h → h.size = .fixed n → n ≠ 0 →
      step s = .next { s with rx := rest, seq := .wait h n }) ∧
    (∀ h, commandAt s.cmd code = some h → h.size = .variable →
      step s = .next { s with rx := rest, seq := .waitLen h })

/-- R133 and R134: the length byte arrives, or its wait times out and the handler runs with effective size 0. -/
def Obligations.LengthByteArrivesOrTimesOut : Prop :=
  ∀ (s : State) (h : Command), s.config.wf → s.agenda = [] → s.seq = .waitLen h →
    (∀ rest, s.rx = 0 :: rest →
      ∃ P, P.length = 255 ∧
        step s = .next { s with rx := rest, seq := .exec h P 0 false, drawCount := s.drawCount + 255 }) ∧
    (∀ len rest, len ≠ 0 → s.rx = len :: rest → step s = .next { s with rx := rest, seq := .wait h len }) ∧
    (s.rx = [] →
      ∃ P, P.length = 255 ∧
        step s = .next { s with
          hist := s.hist ++ [.readTimeout h.code 1 0]
          seq := .exec h P 0 true
          drawCount := s.drawCount + 255 })

/-- R135 and R136: the payload arrives whole into the front of a 255-byte buffer, or the wait times out with no byte
consumed and the handler runs all the same. -/
def Obligations.PayloadArrivesOrTimesOut : Prop :=
  ∀ (s : State) (h : Command) (n : U8), s.config.wf → s.agenda = [] → s.seq = .wait h n →
    (n.toNat ≤ s.rx.length →
      ∃ P, P.length = 255 ∧ P.take n.toNat = s.rx.take n.toNat ∧
        step s = .next { s with
          rx := s.rx.drop n.toNat
          seq := .exec h P n false
          drawCount := s.drawCount + (255 - n.toNat) }) ∧
    (s.rx.length < n.toNat →
      ∃ P, P.length = 255 ∧
        step s = .next { s with
          hist := s.hist ++ [.readTimeout h.code n.toNat s.rx.length]
          seq := .exec h P n true
          drawCount := s.drawCount + 255 })

/-- R7, R25, D34: a host move appends one byte to `RX` and changes nothing else of the block. That the agenda says when the
host moves is the model's own mechanism (DESIGN CHOICE, log 5). -/
def Obligations.HostAppendsOneByte : Prop :=
  ∀ (s : State) (b : U8) (moves : List Move), s.config.wf → s.agenda = .append b :: moves →
    step s = .next { s with agenda := moves, rx := s.rx ++ [b] }

/-- A unit step that the agenda names is the unit step of an empty agenda, with that entry used up and the later moves
kept; so what the statements here say of an empty agenda holds of every unit step. The agenda is the model's own mechanism
(DESIGN CHOICE, log 5) for the order of the agents' moves, which the spec leaves open; no rule of the spec states this. -/
def Obligations.AgendaEntryRunsTheSameUnitStep : Prop :=
  ∀ (s t : State) (moves : List Move), s.agenda = .unit :: moves → step { s with agenda := [] } = .next t →
    step s = .next { t with agenda := moves }

/-- R9, which the spec derives from R8: a configuration with two equal codes, a reserved code, or pulse limits out of
order is refused. The codes 0, 10 and 35 are reserved whatever `RESERVED_CODES` lists (R69; 93_implementation_defined.md
U5). The last disjunct is the model's own check (DESIGN CHOICE, log 29): a parameter that the rules write as a number is
refused at any other, and a list of reserved codes without one of these three is refused. -/
def Obligations.IllFormedConfigurationIsRefused : Prop :=
  ∀ s : State,
    (¬ s.config.codes.Nodup ∨ (∃ x ∈ s.config.codes, x ∈ s.config.reservedCodes) ∨
      (∃ x ∈ s.config.codes, x = 0 ∨ x = 10 ∨ x = 35) ∨
      s.config.maxPulse.toNat < s.config.minPulse.toNat ∨
      (s.config.maxPayload ≠ 255 ∨ s.config.idMin ≠ 1 ∨ s.config.idMax ≠ 255 ∨ s.config.instanceCapacity ≠ 255 ∨
        s.config.servoCfgSize ≠ 16 ∨ s.config.actionPayloadSize ≠ 3 ∨ s.config.rxCapacity ≠ none ∨
        s.config.clockWidth ≠ 32 ∨ 0 ∉ s.config.reservedCodes ∨ 10 ∉ s.config.reservedCodes ∨
        35 ∉ s.config.reservedCodes)) →
    step s = .refused .illFormedConfiguration

/-- R154 and R274, which the spec derives from R131 to R138: under a well-formed configuration every state has a next
one; no rule faults or sticks. -/
def Obligations.EveryStepAnswersNext : Prop :=
  ∀ s : State, s.config.wf → ∃ t, step s = .next t

/-- R137: the sweep ticks every instance once, all at one clock sample, its requests in ascending order of id, and goes
back to `S_POLL`; nothing else changes. -/
def Obligations.SweepTicksEveryInstanceOnce : Prop :=
  ∀ s : State, s.config.wf → s.agenda = [] → s.seq = .sweep → RegWf s.reg →
    ∃ t, step s = .next t ∧
      t = { s.sampled with seq := .poll, reg := t.reg, requests := t.requests } ∧
      (∀ id, regGet t.reg id =
        (regGet s.reg id).map fun inst => { inst with servo := (tickServo s.config inst.servo s.now).servo }) ∧
      t.requests =
        s.requests ++ s.reg.flatMap fun e => (tickServo s.config e.2.servo s.now).out.map fun r => (e.1, r)

/-- R130; R23, which the spec derives: a host move leaves `SEQ`; a unit step goes on in the order poll, reading, sweep,
poll. -/
def Obligations.SequencerKeepsOrder : Prop :=
  ∀ s t : State, step s = .next t →
    (∃ b moves, s.agenda = .append b :: moves ∧ t.seq = s.seq) ∨ s.seq.follows t.seq = true

/-- R138: a handler behaves the same whether or not its payload timed out. -/
def Obligations.TimedOutFlagIsIgnored : Prop :=
  ∀ (s : State) (h : Command) (P : List U8) (len : U8), s.config.wf → s.agenda = [] →
    step { s with seq := .exec h P len true } = step { s with seq := .exec h P len false }

/-- R25; R71(a), which the spec derives: `RX` grows only at its end by host moves and shrinks only at its front by unit
steps; a step is a host move where the agenda (log 5) begins with one, and a unit step otherwise. -/
def Obligations.ReceiveStreamIsFifo : Prop :=
  ∀ s t : State, step s = .next t →
    (∃ b moves, s.agenda = .append b :: moves ∧ t.rx = s.rx ++ [b]) ∨
      (∀ b moves, s.agenda ≠ .append b :: moves) ∧ ∃ n, t.rx = s.rx.drop n

/-- R156: from a quiescent state with no host move, one loop iteration writes `last_tick` of each instance with the
clock sample and nothing else of the block, and the state stays quiescent. -/
def Obligations.QuiescentIterationOnlyTicks : Prop :=
  ∀ s : State, s.config.wf → s.agenda = [] → RegWf s.reg → s.quiescent →
    ∃ t, Host.Core.run Sys2Proof.core 2 s = .next t ∧ t = { s.sampled with reg := t.reg } ∧ t.quiescent ∧
      ∀ id, regGet t.reg id =
        (regGet s.reg id).map fun inst => { inst with servo := { inst.servo with lastTick := s.now } }

/-! ### Messages -/

/-- R172: HANDSHAKE replies with its own code, once, and no ACK follows. -/
def Obligations.HandshakeRepliesWithItsCode : Prop :=
  ∀ s : State, Booted s →
    exec .handshake s = .next { s with tx := s.tx ++ [s.config.codeHandshake], seq := .sweep }

/-- R170: an ACK that is received changes nothing and is not answered. -/
def Obligations.AckIsNotAnswered : Prop :=
  ∀ s : State, Booted s → exec .ack s = .next { s with seq := .sweep }

/-- R110, R111: each reserved code and every unassigned code is recorded and dropped, with no reply. -/
def Obligations.DroppedCodesAreRecorded : Prop :=
  ∀ s : State,
    exec .reservedNul s = .next { s with hist := s.hist ++ [.unknownCode (some 0)], seq := .sweep } ∧
    exec .reservedLf s = .next { s with hist := s.hist ++ [.unknownCode (some 10)], seq := .sweep } ∧
    exec .reservedHash s = .next { s with hist := s.hist ++ [.unknownCode (some 35)], seq := .sweep } ∧
    ∀ code, exec (.unassigned code) s = .next { s with hist := s.hist ++ [.unknownCode (some code)], seq := .sweep }

/-- R177, and the sentences of R178 and R181: the PATCH messages that are rejected, in the order of the checks: each
records its event, sends no ACK and changes nothing else. -/
def Obligations.PatchRejectionsChangeNothing : Prop :=
  ∀ s : State, Booted s →
    exec (.patch []) s = .next { s with hist := s.hist ++ [.unknownCode none], seq := .sweep } ∧
    (∀ target args, target ≠ s.config.codeServo →
      exec (.patch (target :: args)) s =
        .next { s with hist := s.hist ++ [.unknownCode (some target)], seq := .sweep }) ∧
    (∀ args, args.length < 17 →
      exec (.patch (s.config.codeServo :: args)) s =
        .next { s with
          hist := s.hist ++ [.shortPayload s.config.codeServo (BitVec.ofNat 8 (args.length + 1))], seq := .sweep }) ∧
    (∀ args, 16 ≤ args.length →
      exec (.patch (s.config.codeServo :: 0 :: args)) s =
        .next { s with hist := s.hist ++ [.badId 0], seq := .sweep }) ∧
    ∀ cfg, exec (.patchServo 0 cfg) s = .next { s with hist := s.hist ++ [.badId 0], seq := .sweep }

/-- R180, R181, R220: a servo PATCH to an empty slot makes the instance that the configuration spells, attaches it,
writes its default pulse and is acknowledged; payload bytes past the sixteenth configuration byte are ignored. -/
def Obligations.PatchCreatesConfiguredInstance : Prop :=
  ∀ (s : State) (i : Instr) (id : U8) (cfg : ServoConfig), Booted s → id ≠ 0 → regGet s.reg id = none →
    (i = .patchServo id cfg ∨ ∃ extra, i = .patch (servoPayload s.config id cfg ++ extra)) →
    exec i s = .next { s.sampled with
      seq := .sweep
      tx := s.tx ++ [s.config.codeAck]
      reg := regPut s.reg id { kind := .servo, id := id, servo := configuredServo s.config cfg s.now }
      requests := s.requests ++ configureRequests s.config id cfg
      drawCount := s.drawCount + 1 }

/-- R182: a servo PATCH to a servo that exists configures it anew in mode `replace` and changes nothing in mode
`ignore`; both are acknowledged, id and slot stay, and so does the number of instances. That the clock is sampled in mode
`ignore` too is the model's reading of R176 against R155 (DEDUCED, log 25). -/
def Obligations.PatchUpdatesByMode : Prop :=
  ∀ (s : State) (i : Instr) (id : U8) (cfg : ServoConfig) (inst : Instance), Booted s → id ≠ 0 →
    regGet s.reg id = some inst → inst.kind = .servo →
    (i = .patchServo id cfg ∨ ∃ extra, i = .patch (servoPayload s.config id cfg ++ extra)) →
    (s.config.patchUpdateMode = .replace →
      exec i s = .next { s.sampled.withServo id inst (configuredServo s.config cfg s.now)
          (configureRequests s.config id cfg) with
        seq := .sweep
        tx := s.tx ++ [s.config.codeAck] }) ∧
    (s.config.patchUpdateMode = .ignore →
      exec i s = .next { s.sampled with seq := .sweep, tx := s.tx ++ [s.config.codeAck] }) ∧
    (RegWf s.reg → ∀ t, exec i s = .next t → t.reg.length = s.reg.length)

/-- R183: a servo PATCH to an instance of another kind is rejected. That the clock is sampled before the check is the
model's reading of R176 against R155 (DEDUCED, log 25), and the other kind itself is the model's (DESIGN CHOICE, log 13):
the block has none (R38). -/
def Obligations.PatchOfAnotherKindIsRejected : Prop :=
  ∀ (s : State) (i : Instr) (id : U8) (cfg : ServoConfig) (inst : Instance), Booted s → id ≠ 0 →
    regGet s.reg id = some inst → inst.kind ≠ .servo →
    (i = .patchServo id cfg ∨ ∃ extra, i = .patch (servoPayload s.config id cfg ++ extra)) →
    exec i s = .next { s.sampled with hist := s.hist ++ [.unrunnableTarget id], seq := .sweep }

/-- R179, with the model's choice of log 12: a PATCH of a non-runnable target writes no entry of `REG` and is
acknowledged exactly when the target applied, which is a free value. -/
def Obligations.PatchRunsTransientTargetOnce : Prop :=
  ∀ (s : State) (target : U8) (args : List U8) (d : Device), s.config.wf → s.cmd = bootCommands s.config →
    deviceAt s.dev target = some d → d.runnable = false →
    exec (.patch (target :: args)) s =
      .next { s with
        seq := .sweep
        tx := s.tx ++ if Config.transientApplied target args then [s.config.codeAck] else [] }

/-- R190, R191: an ACTION to id 0, to an empty slot or to an instance of another kind is rejected. -/
def Obligations.ActionRejectionsChangeNothing : Prop :=
  ∀ (s : State) (id : U8) (angle : U16),
    (id = 0 ∨ regGet s.reg id = none →
      exec (.action id angle) s = .next { s with hist := s.hist ++ [.noInstance id], seq := .sweep }) ∧
    (∀ inst, id ≠ 0 → regGet s.reg id = some inst → inst.kind ≠ .servo →
      exec (.action id angle) s = .next { s with hist := s.hist ++ [.unrunnableTarget id], seq := .sweep })

/-- R190, R222, R223: an ACTION to a servo starts its move to the clamped angle, attaches it if it was detached, and is
acknowledged; no other instance and nothing else of the block changes. -/
def Obligations.ActionStartsMove : Prop :=
  ∀ (s : State) (id : U8) (angle : U16) (inst : Instance), Booted s → id ≠ 0 → regGet s.reg id = some inst →
    inst.kind = .servo →
    exec (.action id angle) s =
      .next { s.sampled.withServo id inst (aimedServo s.config inst.servo angle s.now) (aimRequests id inst.servo) with
        seq := .sweep
        tx := s.tx ++ [s.config.codeAck] }

/-- R152; R275, which the spec derives: a PATCH or ACTION either is acknowledged and records nothing, or sends nothing,
records one event and leaves `REG` and the actuators as they were. -/
def Obligations.AckExactlyWhenApplied : Prop :=
  ∀ (s t : State) (i : Instr), Booted s →
    ((∃ payload, i = .patch payload) ∨ (∃ id cfg, i = .patchServo id cfg) ∨ ∃ id angle, i = .action id angle) →
    exec i s = .next t →
    (t.tx = s.tx ++ [s.config.codeAck] ∧ t.hist = s.hist) ∨
      (t.tx = s.tx ∧ t.reg = s.reg ∧ t.requests = s.requests ∧ ∃ e, t.hist = s.hist ++ [e])

/-- R38; R46, which the spec derives: an instruction that addresses one instance leaves every other instance as it was.
-/
def Obligations.OtherInstancesUntouched : Prop :=
  ∀ (s t : State) (i : Instr) (id other : U8), other ≠ id →
    ((∃ payload, i = .patch payload ∧ byteAt payload 1 = id) ∨ (∃ cfg, i = .patchServo id cfg) ∨
      (∃ angle, i = .action id angle) ∨ (∃ cfg t, i = .configure id cfg t) ∨ (∃ angle t, i = .setTarget id angle t) ∨
      ∃ t, i = .tick id t) →
    exec i s = .next t → regGet t.reg other = regGet s.reg other

/-- R182: configuring an instance again leaves the number of instances; the first time adds one. -/
def Obligations.PatchTwiceKeepsRegistrySize : Prop :=
  ∀ (s t : State) (id : U8) (cfg : ServoConfig), Booted s → RegWf s.reg → id ≠ 0 →
    exec (.patchServo id cfg) s = .next t →
    t.reg.length = s.reg.length + if regGet s.reg id = none then 1 else 0

/-! ### The motion controller -/

/-- R220, R221: `configure` writes every register of the instance, whatever it held, and makes its two requests; on an
empty slot of an id other than 0 the instance is made first (R180; the model's choice of log 7). -/
def Obligations.ConfigureWritesEveryRegister : Prop :=
  ∀ (s : State) (id : U8) (cfg : ServoConfig) (t : U32), s.config.wf →
    (∀ inst, regGet s.reg id = some inst →
      exec (.configure id cfg t) s =
        .next (s.withServo id inst (configuredServo s.config cfg t) (configureRequests s.config id cfg))) ∧
    (id ≠ 0 → regGet s.reg id = none →
      ∃ inst, inst.kind = .servo ∧ inst.id = id ∧
        exec (.configure id cfg t) s =
          .next { s.withServo id inst (configuredServo s.config cfg t) (configureRequests s.config id cfg) with
            drawCount := s.drawCount + 1 })

/-- R222, R223: `set_target` on an instance; on an empty slot `set_target` and `tick` have nothing to act on (the
model's choice of log 7). -/
def Obligations.SetTargetStartsMove : Prop :=
  ∀ (s : State) (id : U8) (angle : U16) (t : U32), s.config.wf →
    (∀ inst, regGet s.reg id = some inst →
      exec (.setTarget id angle t) s =
        .next (s.withServo id inst (aimedServo s.config inst.servo angle t) (aimRequests id inst.servo))) ∧
    (regGet s.reg id = none → exec (.setTarget id angle t) s = .next s ∧ exec (.tick id t) s = .next s)

/-- R226: a tick in Idle writes `last_tick` only and makes no request. -/
def Obligations.IdleTickWritesLastTickOnly : Prop :=
  ∀ (s : State) (id : U8) (t : U32) (inst : Instance), regGet s.reg id = some inst → inst.servo.phase = .idle →
    exec (.tick id t) s = .next (s.withServo id inst { inst.servo with lastTick := t } [])

/-- R230, R212: a tick in Settling detaches and enters Idle once the settle delay has passed, on a clock that wraps;
before that it writes `last_tick` only. -/
def Obligations.SettlingTickDetachesAfterDelay : Prop :=
  ∀ (s : State) (id : U8) (t : U32) (inst : Instance), regGet s.reg id = some inst → inst.servo.phase = .settling →
    (s.config.settleDelayMs.toNat ≤ (t.toNat + 2 ^ 32 - inst.servo.phaseStartedAt.toNat) % 2 ^ 32 →
      exec (.tick id t) s =
        .next (s.withServo id inst
          { inst.servo with attached := false, phase := .idle, phaseStartedAt := t, lastTick := t } [(id, .detach)])) ∧
    ((t.toNat + 2 ^ 32 - inst.servo.phaseStartedAt.toNat) % 2 ^ 32 < s.config.settleDelayMs.toNat →
      exec (.tick id t) s = .next (s.withServo id inst { inst.servo with lastTick := t } []))

/-- R227, R232: a tick in Accelerating, which only a bounded acceleration enters (R227). The speed grows, is clamped to a bound it exceeds, and moves the position; the
target wins over the deceleration point, which wins over the clamp. -/
def Obligations.AcceleratingTick : Prop :=
  ∀ (s : State) (id : U8) (t : U32) (inst : Instance) (dt free sp p : F32), regGet s.reg id = some inst →
    inst.servo.phase = .accelerating → inst.servo.maxAcceleration ≠ 0 →
    dt = (F32.ofNat ((t - inst.servo.lastTick).toNat)).div (F32.ofNat 1000) →
    free = inst.servo.speed.add ((F32.ofNat inst.servo.maxAcceleration.toNat).mul dt) →
    sp = (if inst.servo.maxSpeed ≠ 0 ∧ (F32.ofNat inst.servo.maxSpeed.toNat).lt free = true
      then F32.ofNat inst.servo.maxSpeed.toNat else free) →
    p = (match inst.servo.direction with
      | .plus => inst.servo.current.add (sp.mul dt)
      | .minus => inst.servo.current.sub (sp.mul dt)) →
    (passed inst.servo.direction p (F32.ofNat inst.servo.target.toNat) = true →
      exec (.tick id t) s =
        .next (s.withServo id inst (finishedServo inst.servo t) [(id, .writePulse inst.servo.target)])) ∧
    (passed inst.servo.direction p (F32.ofNat inst.servo.target.toNat) = false →
      passed inst.servo.direction p inst.servo.decelPoint = true →
      exec (.tick id t) s =
        .next (s.withServo id inst (brakingServo inst.servo sp t) [(id, .writePulse inst.servo.decelPoint.trunc)])) ∧
    (passed inst.servo.direction p (F32.ofNat inst.servo.target.toNat) = false →
      passed inst.servo.direction p inst.servo.decelPoint = false →
      exec (.tick id t) s =
        .next (s.withServo id inst
          (if inst.servo.maxSpeed ≠ 0 ∧ (F32.ofNat inst.servo.maxSpeed.toNat).lt free = true
            then { movedServo inst.servo p sp t with phase := .cruising, phaseStartedAt := t }
            else movedServo inst.servo p sp t)
          [(id, .writePulse p.trunc)]))

/-- R228: a tick in Cruising. -/
def Obligations.CruisingTick : Prop :=
  ∀ (s : State) (id : U8) (t : U32) (inst : Instance) (dt p : F32), regGet s.reg id = some inst →
    inst.servo.phase = .cruising →
    dt = (F32.ofNat ((t - inst.servo.lastTick).toNat)).div (F32.ofNat 1000) →
    p = (match inst.servo.direction with
      | .plus => inst.servo.current.add ((F32.ofNat inst.servo.maxSpeed.toNat).mul dt)
      | .minus => inst.servo.current.sub ((F32.ofNat inst.servo.maxSpeed.toNat).mul dt)) →
    (inst.servo.maxSpeed = 0 ∨ passed inst.servo.direction p (F32.ofNat inst.servo.target.toNat) = true →
      exec (.tick id t) s =
        .next (s.withServo id inst (finishedServo inst.servo t) [(id, .writePulse inst.servo.target)])) ∧
    (inst.servo.maxSpeed ≠ 0 → passed inst.servo.direction p (F32.ofNat inst.servo.target.toNat) = false →
      passed inst.servo.direction p inst.servo.decelPoint = true →
      exec (.tick id t) s =
        .next (s.withServo id inst (brakingServo inst.servo (F32.ofNat inst.servo.maxSpeed.toNat) t)
          [(id, .writePulse inst.servo.decelPoint.trunc)])) ∧
    (inst.servo.maxSpeed ≠ 0 → passed inst.servo.direction p (F32.ofNat inst.servo.target.toNat) = false →
      passed inst.servo.direction p inst.servo.decelPoint = false →
      exec (.tick id t) s =
        .next (s.withServo id inst (movedServo inst.servo p inst.servo.speed t) [(id, .writePulse p.trunc)]))

/-- R229: a tick in Decelerating; a speed of exactly 0 is not below 0 (D36). -/
def Obligations.DeceleratingTick : Prop :=
  ∀ (s : State) (id : U8) (t : U32) (inst : Instance) (dt sp p : F32), regGet s.reg id = some inst →
    inst.servo.phase = .decelerating →
    dt = (F32.ofNat ((t - inst.servo.lastTick).toNat)).div (F32.ofNat 1000) →
    sp = inst.servo.speed.sub ((F32.ofNat inst.servo.maxAcceleration.toNat).mul dt) →
    p = (match inst.servo.direction with
      | .plus => inst.servo.current.add (sp.mul dt)
      | .minus => inst.servo.current.sub (sp.mul dt)) →
    (inst.servo.maxAcceleration = 0 ∨ sp.lt F32.zero = true ∨
        passed inst.servo.direction p (F32.ofNat inst.servo.target.toNat) = true →
      exec (.tick id t) s =
        .next (s.withServo id inst (finishedServo inst.servo t) [(id, .writePulse inst.servo.target)])) ∧
    (inst.servo.maxAcceleration ≠ 0 → sp.lt F32.zero = false →
      passed inst.servo.direction p (F32.ofNat inst.servo.target.toNat) = false →
      exec (.tick id t) s = .next (s.withServo id inst (movedServo inst.servo p sp t) [(id, .writePulse p.trunc)]))

/-- R231, which the spec derives from R227 to R230: the phase changes a tick makes are those of the table, at most one
of them a tick. -/
def Obligations.TickPhaseTransitions : Prop :=
  ∀ (s s' : State) (id : U8) (t : U32) (a b : Instance), regGet s.reg id = some a →
    exec (.tick id t) s = .next s' → regGet s'.reg id = some b →
    a.servo.phase = b.servo.phase ∨ a.servo.phase.tickTo b.servo.phase = true

/-- R233 and R234, which the spec derives from R217, R223 and R227 to R229: a tick of a moving servo moves it in its
direction or not at all, and never past its target. -/
def Obligations.TickNeverOvershoots : Prop :=
  ∀ (s s' : State) (id : U8) (t : U32) (a b : Instance), regGet s.reg id = some a → ServoInv s.config a.servo →
    a.servo.moving = true → exec (.tick id t) s = .next s' → regGet s'.reg id = some b →
    passed a.servo.direction b.servo.current a.servo.current = true ∧
      passed a.servo.direction a.servo.goal b.servo.current = true

/-- R235, which the spec derives from R226 and R230: once a servo is settled at its target, any number of ticks leaves
it there and writes no pulse, and once it is Idle a tick changes `last_tick` only. -/
def Obligations.SettledServoStaysAtTarget : Prop :=
  ∀ (c : Config) (s : Servo) (ts : List U32) (t : U32), s.phase = .settling ∨ s.phase = .idle → s.current = s.goal →
    let after := ts.foldl (fun sv u => (tickServo c sv u).servo) s
    after.current = s.goal ∧ after.target = s.target ∧ after.pulse = s.pulse ∧
      (after.phase = .settling ∨ after.phase = .idle) ∧
      (∀ v, .writePulse v ∉ (tickServo c after t).out) ∧
      (after.phase = .idle → tickServo c after t = ⟨{ after with lastTick := t }, []⟩)

/-- R236, which the spec derives from R211 and R222: an angle outside `[min, max]` gives the target of the boundary. -/
def Obligations.TargetIsClampedToBoundary : Prop :=
  ∀ (s s' : State) (id : U8) (angle : U16) (t : U32) (a b : Instance), s.config.wf → regGet s.reg id = some a →
    a.servo.userMin ≤ a.servo.userMax → exec (.setTarget id angle t) s = .next s' → regGet s'.reg id = some b →
    (angle < a.servo.userMin → b.servo.target.toNat = pulseNat s.config a.servo.tmin a.servo.tmax a.servo.userMin.toNat) ∧
    (a.servo.userMax < angle → b.servo.target.toNat = pulseNat s.config a.servo.tmin a.servo.tmax a.servo.userMax.toNat)

/-- R213: the bounded map is its formula on naturals, stays between its output limits, maps both ends exactly, and gives
the low limit on a degenerate range. -/
def Obligations.BoundedMapStaysInRange : Prop :=
  ∀ x inLo inHi outLo outHi : Nat,
    (inHi ≤ inLo → boundedMap x inLo inHi outLo outHi = outLo) ∧
    (inLo < inHi → outLo ≤ outHi →
      boundedMap x inLo inHi outLo outHi =
        ((max inLo (min inHi x) - inLo) * (outHi - outLo) / (inHi - inLo) + outLo : Nat) ∧
      (outLo : Int) ≤ boundedMap x inLo inHi outLo outHi ∧ boundedMap x inLo inHi outLo outHi ≤ outHi ∧
      boundedMap inLo inLo inHi outLo outHi = outLo ∧ boundedMap inHi inLo inHi outLo outHi = outHi)

/-- R223; R233, which the spec derives: for a bounded acceleration the deceleration point of a move lies between its
start and its target. -/
def Obligations.DecelPointLiesAhead : Prop :=
  ∀ (s s' : State) (id : U8) (angle : U16) (t : U32) (a b : Instance), s.config.wf → regGet s.reg id = some a →
    ServoInv s.config a.servo → a.servo.maxAcceleration ≠ 0 → exec (.setTarget id angle t) s = .next s' →
    regGet s'.reg id = some b →
    b.servo.current = a.servo.current ∧
      passed b.servo.direction b.servo.decelPoint b.servo.current = true ∧
      passed b.servo.direction b.servo.goal b.servo.decelPoint = true

/-! ### Binary32 -/

/-- R11, D10: rounding gives the nearest magnitude, the even one of two that are equally near, and infinity exactly from
half a unit past the largest finite magnitude on. -/
def Obligations.RoundingIsNearestEven : Prop :=
  ∀ num den : Nat, 0 < den →
    let r := F32.roundUnits num den
    (r < F32.infMag → ∀ m, m ≠ r → m < F32.infMag →
      |(num : Int) - den * F32.magUnits r| < |(num : Int) - den * F32.magUnits m| ∨
        |(num : Int) - den * F32.magUnits r| = |(num : Int) - den * F32.magUnits m| ∧ r % 2 = 0) ∧
    (r = F32.infMag ↔ den * (F32.magUnits (F32.infMag - 1) + F32.magUnits F32.infMag) ≤ 2 * num)

/-- R11, D10: the sum and the difference of two finite values are the exact ones rounded once, to nearest even; a finite
sum is as near to the exact sum as any finite value, and an exact sum that is representable is the result. -/
def Obligations.SumsRoundToNearest : Prop :=
  ∀ x y : F32, x.isFinite = true → y.isFinite = true →
    (x.add y).IsNearest (x.units + y.units) 1 ∧ (x.sub y).IsNearest (x.units - y.units) 1 ∧
    ∀ z : F32, z.isFinite = true → (x.add y).isFinite = true →
      |x.units + y.units - (x.add y).units| ≤ |x.units + y.units - z.units| ∧
        (z.units = x.units + y.units → (x.add y).units = z.units)

/-- R11, R219, D10: products, quotients by a value other than 0, and conversions of integers are the exact ones rounded
once, to nearest even; the sign change, `abs`, `min` and the comparisons are exact; `trunc` is the integer part of a
position that fits an actuator value. A unit is 2^-149, and 1 is `F32.one` units. -/
def Obligations.ProductsQuotientsAndConversions : Prop :=
  (∀ n : Nat, (F32.ofNat n).IsNearest (n * F32.one : Nat) 1) ∧
  (∀ x : F32, x.isFinite = true →
    x.neg.units = -x.units ∧ x.abs.units = |x.units| ∧
    (0 ≤ x.units → x.units < (65536 * F32.one : Nat) →
      (x.trunc.toNat * F32.one : Nat) ≤ x.units ∧ x.units < ((x.trunc.toNat + 1) * F32.one : Nat)) ∧
    (-(F32.one : Int) < x.units → x.units ≤ 0 → x.trunc = 0)) ∧
  ∀ x y : F32, x.isFinite = true → y.isFinite = true →
    (x.mul y).IsNearest (x.units * y.units) F32.one ∧
    (y.units ≠ 0 → (x.div y).IsNearest (x.units * F32.one * y.units.sign) y.units.natAbs) ∧
    (x.min y).units = min x.units y.units ∧
    (x.lt y = true ↔ x.units < y.units) ∧ (x.le y = true ↔ x.units ≤ y.units)

/-! ### The whole machine -/

/-- R37, R20: no step writes the handler registries or the configuration. -/
def Obligations.RegistriesAreReadOnly : Prop :=
  ∀ s t : State, step s = .next t → t.cmd = s.cmd ∧ t.dev = s.dev ∧ t.config = s.config

/-- R38; R39, which the spec derives: a filled slot is never emptied, and its instance keeps its id and kind. -/
def Obligations.InstancesKeepIdentity : Prop :=
  ∀ (s t : State) (id : U8) (a : Instance), step s = .next t → regGet s.reg id = some a →
    ∃ b, regGet t.reg id = some b ∧ b.id = a.id ∧ b.kind = a.kind

/-- R180: only a PATCH that runs in `S_EXEC` adds an instance, under the id 1 to 255 its payload names, as a configured
servo in Settling. -/
def Obligations.OnlyPatchCreatesInstances : Prop :=
  ∀ (s t : State) (id : U8) (b : Instance), Inv s → step s = .next t → regGet s.reg id = none →
    regGet t.reg id = some b →
    ∃ h P len timedOut, s.seq = .exec h P len timedOut ∧ h.kind = .patch ∧ id ≠ 0 ∧ byteAt P 1 = id ∧
      18 ≤ len.toNat ∧ b.id = id ∧ b.kind = .servo ∧ b.servo.phase = .settling ∧ b.servo.attached = true

/-- R63 and R105, which the spec derives from R152 and R172: a step sends at most one byte, and it is the ACK code or
the HANDSHAKE code, in `S_EXEC` only. -/
def Obligations.TransmitsOnlyAckAndHandshake : Prop :=
  ∀ s t : State, Inv s → step s = .next t →
    t.tx = s.tx ∨ (∃ h P len b, s.seq = .exec h P len b) ∧
      (t.tx = s.tx ++ [s.config.codeAck] ∨ t.tx = s.tx ++ [s.config.codeHandshake])

/-- R48: nothing reads the event history: with other events before it, a step does the same and appends the same. -/
def Obligations.HistoryIsNeverRead : Prop :=
  ∀ (s t : State) (before : List Event), step s = .next t →
    step { s with hist := before ++ s.hist } = .next { t with hist := before ++ t.hist }

/-- R290: a pulse is written only to an actuator that is attached when the request is made: it was before the step or a
request of this step attached it, and none detached it since. The `attached` register after the step is what its requests
leave, for every id, and is set where a pulse was written. -/
def Obligations.PulsesOnlyWhenAttached : Prop :=
  ∀ (s t : State) (sent : List (U8 × Request)), Inv s → step s = .next t → t.requests = s.requests ++ sent →
    ∀ id : U8,
      (∀ before v after, sent = before ++ (id, .writePulse v) :: after →
        attachedBy id (isAttached s.reg id) before = true ∧ isAttached t.reg id = true) ∧
      isAttached t.reg id = attachedBy id (isAttached s.reg id) sent

/-- R300, R310: the state after reset, under any well-formed configuration; the standard configuration is one, and
`State.reset` is that state for it. The values of the model's own fields are the choice of log 28. -/
def Obligations.ResetState : Prop :=
  State.reset = State.resetWith Config.standard ∧ Config.standard.wf ∧
  ∀ c : Config, c.wf →
    let s := State.resetWith c
    s.seq = .poll ∧ s.rx = [] ∧ s.tx = [] ∧ s.reg = [] ∧ s.hist = [] ∧ s.config = c ∧
    s.cmd =
      [⟨c.codeHandshake, "HANDSHAKE", .fixed 0, false, false, .handshake⟩, ⟨c.codeAck, "ACK", .fixed 0, false, false, .ack⟩,
        ⟨c.codePatch, "PATCH", .variable, false, true, .patch⟩, ⟨c.codeAction, "ACTION", .fixed 3, false, true, .action⟩] ∧
    s.dev = [⟨c.codeServo, "SERVO", 16, true, .servo⟩]

/-- R37: in both registries a second registration of a code is turned away and changes nothing; a first one is taken and
can be looked up. -/
def Obligations.FirstRegistrationWins : Prop :=
  (∀ (r : List Command) (d : Command),
    ((∃ e ∈ r, e.code = d.code) → registerCommand r d = (false, r)) ∧
    ((∀ e ∈ r, e.code ≠ d.code) →
      (registerCommand r d).1 = true ∧ commandAt (registerCommand r d).2 d.code = some d ∧
      ∀ code, code ≠ d.code → commandAt (registerCommand r d).2 code = commandAt r code)) ∧
  ∀ (r : List Device) (d : Device),
    ((∃ e ∈ r, e.code = d.code) → registerDevice r d = (false, r)) ∧
    ((∀ e ∈ r, e.code ≠ d.code) →
      (registerDevice r d).1 = true ∧ deviceAt (registerDevice r d).2 d.code = some d ∧
      ∀ code, code ≠ d.code → deviceAt (registerDevice r d).2 code = deviceAt r code)

/-- The invariant of the block holds after reset, whatever the host and the clock are about to do (R300). -/
def Obligations.InvariantHoldsAtReset : Prop :=
  ∀ (c : Config) (moves : List Move) (tape : List U32), c.wf →
    Inv { State.resetWith c with agenda := moves, clockTape := tape }

/-- Every step keeps the invariant of the block (R22, R24, R37, R38; R39 and R45, which the spec derives). -/
def Obligations.StepKeepsInvariant : Prop :=
  ∀ s t : State, Inv s → step s = .next t → Inv t

/-- R45, which the spec derives from R220, R222 and R227 to R230, whole: in every reachable state, for every instance,
(a) to (e), and no tick moves the position against its direction or past its target. -/
def Obligations.ReachableServosAreSound : Prop :=
  ∀ s : State, Reachable s → ∀ e ∈ s.reg,
    (e.2.servo.phase = .idle ↔ e.2.servo.attached = false) ∧
    ((F32.ofNat s.config.minPulse.toNat).le e.2.servo.current = true ∧
      e.2.servo.current.le (F32.ofNat s.config.maxPulse.toNat) = true ∧
      s.config.minPulse ≤ e.2.servo.target ∧ e.2.servo.target ≤ s.config.maxPulse) ∧
    (e.2.servo.moving = true →
      passed e.2.servo.direction (F32.ofNat e.2.servo.target.toNat) e.2.servo.current = true ∧
      ∀ t, passed e.2.servo.direction (tickServo s.config e.2.servo t).servo.current e.2.servo.current = true ∧
        passed e.2.servo.direction (F32.ofNat e.2.servo.target.toNat) (tickServo s.config e.2.servo t).servo.current = true) ∧
    (e.2.servo.phase = .settling ∨ e.2.servo.phase = .idle → e.2.servo.current = F32.ofNat e.2.servo.target.toNat) ∧
    e.2.servo.speed.isFinite = true ∧ F32.zero.le e.2.servo.speed = true
end

