-- ==== Sys2Proof/Laws/Binary32.lean ====
section
/-!
SUPPORT. The laws of the binary32 operations: what the bits of a value say about its units, and that rounding stays between
the representable neighbours of the exact result.
-/

namespace Sys2Proof.F32

open Sys2Proof

/-! ### Magnitude bits and units -/

theorem magUnits_small {m : Nat} (h : m < 2 ^ 24) : magUnits m = m := by
  unfold magUnits
  split
  · rfl
  · have : m / 2 ^ 23 = 1 := by omega
    rw [this]; omega

/-- A significand at a shift is the units of one magnitude. -/
theorem magUnits_shift (sh q : Nat) (hq : q ≤ 2 ^ 24) (h : sh = 0 ∨ 2 ^ 23 ≤ q) :
    magUnits (sh * 2 ^ 23 + q) = q * 2 ^ sh := by
  rcases Nat.eq_or_lt_of_le hq with rfl | hq'
  · have e : sh * 2 ^ 23 + 2 ^ 24 = (sh + 2) * 2 ^ 23 := by ring
    have h1 : ¬ (sh + 2) * 2 ^ 23 < 2 ^ 23 := by omega
    rw [e, magUnits, if_neg h1, Nat.mul_mod_left, Nat.mul_div_cancel _ (by norm_num)]
    have : sh + 2 - 1 = sh + 1 := rfl
    rw [this, pow_succ]; ring
  · rcases Nat.eq_zero_or_pos sh with rfl | hs
    · simpa using magUnits_small hq'
    · have hq2 : 2 ^ 23 ≤ q := by omega
      obtain ⟨f, rfl⟩ := Nat.exists_eq_add_of_le hq2
      have hf : f < 2 ^ 23 := by omega
      have e : sh * 2 ^ 23 + (2 ^ 23 + f) = (sh + 1) * 2 ^ 23 + f := by ring
      have h1 : ¬ (sh + 1) * 2 ^ 23 + f < 2 ^ 23 := by omega
      have hm : ((sh + 1) * 2 ^ 23 + f) % 2 ^ 23 = f := by omega
      have hd : ((sh + 1) * 2 ^ 23 + f) / 2 ^ 23 = sh + 1 := by omega
      rw [e, magUnits, if_neg h1, hm, hd]
      rfl

/-- Every magnitude is a significand at a shift. -/
theorem magUnits_form (m : Nat) :
    ∃ sh q, m = sh * 2 ^ 23 + q ∧ q < 2 ^ 24 ∧ (sh = 0 ∨ 2 ^ 23 ≤ q) := by
  by_cases h : m < 2 ^ 24
  · exact ⟨0, m, by omega, h, Or.inl rfl⟩
  · exact ⟨m / 2 ^ 23 - 1, m % 2 ^ 23 + 2 ^ 23, by omega, by omega, Or.inr (by omega)⟩

theorem magUnits_lt_succ (m : Nat) : magUnits m < magUnits (m + 1) := by
  obtain ⟨sh, q, rfl, hq, h⟩ := magUnits_form m
  rw [Nat.add_assoc, magUnits_shift sh q (by omega) h, magUnits_shift sh (q + 1) (by omega) (by omega)]
  have : 0 < 2 ^ sh := by positivity
  nlinarith

theorem magUnits_strictMono : StrictMono magUnits := strictMono_nat_of_lt_succ magUnits_lt_succ

theorem magUnits_le_iff {m n : Nat} : magUnits m ≤ magUnits n ↔ m ≤ n := magUnits_strictMono.le_iff_le

theorem magUnits_lt_iff {m n : Nat} : magUnits m < magUnits n ↔ m < n := magUnits_strictMono.lt_iff_lt

@[simp] theorem magUnits_zero : magUnits 0 = 0 := rfl

/-! ### Rounding -/

/-- The numbers `roundUnits` computes: the significand below the exact value, at its shift, with what is left over. -/
theorem roundUnits_form (num den : Nat) (hd : 0 < den) :
    ∃ sh q q', roundUnits num den = Min.min (sh * 2 ^ 23 + q') infMag ∧ q < 2 ^ 24 ∧ (sh = 0 ∨ 2 ^ 23 ≤ q) ∧
      q * 2 ^ sh * den ≤ num ∧ num < (q + 1) * 2 ^ sh * den ∧
      (2 * (num - q * 2 ^ sh * den) < 2 ^ sh * den ∧ q' = q ∨
        2 * (num - q * 2 ^ sh * den) = 2 ^ sh * den ∧ q' = q + q % 2 ∨
        2 ^ sh * den < 2 * (num - q * 2 ^ sh * den) ∧ q' = q + 1) := by
  set sh := Nat.log2 (num / den) - 23 with hsh
  have hu : 0 < den * 2 ^ sh := by positivity
  have hdm := Nat.div_add_mod num (den * 2 ^ sh)
  have hr : num % (den * 2 ^ sh) < den * 2 ^ sh := Nat.mod_lt _ hu
  set q := num / (den * 2 ^ sh) with hq
  set r := num % (den * 2 ^ sh) with hrr
  have eq1 : q * 2 ^ sh * den = den * 2 ^ sh * q := by ring
  have hq' : q = num / den / 2 ^ sh := by rw [hq, Nat.div_div_eq_div_mul]
  refine ⟨sh, q, if 2 * r < den * 2 ^ sh then q else if 2 * r = den * 2 ^ sh then q + q % 2 else q + 1, rfl, ?_, ?_, ?_, ?_, ?_⟩
  · rw [hq', Nat.div_lt_iff_lt_mul (by positivity)]
    have h1 : num / den < 2 ^ (Nat.log2 (num / den) + 1) := Nat.lt_log2_self
    have h2 : 2 ^ (Nat.log2 (num / den) + 1) ≤ 2 ^ (24 + sh) := Nat.pow_le_pow_right (by norm_num) (by omega)
    rw [← pow_add]; omega
  · rcases Nat.eq_zero_or_pos sh with h | h
    · exact Or.inl h
    · right
      have hne : num / den ≠ 0 := by
        intro h0; rw [h0] at hsh; simp at hsh; omega
      rw [hq', Nat.le_div_iff_mul_le (by positivity), ← pow_add]
      have : 23 + sh = Nat.log2 (num / den) := by omega
      rw [this]; exact Nat.log2_self_le hne
  · omega
  · have : (q + 1) * 2 ^ sh * den = den * 2 ^ sh * q + den * 2 ^ sh := by ring
    omega
  · have e2 : 2 ^ sh * den = den * 2 ^ sh := by ring
    rw [eq1, e2]
    have e3 : num - den * 2 ^ sh * q = r := by omega
    rw [e3]
    split_ifs <;> omega

/-- Rounding does not go below a representable value that is at most the exact one. -/
theorem le_roundUnits {m num den : Nat} (hd : 0 < den) (hm : m ≤ infMag) (h : magUnits m * den ≤ num) :
    m ≤ roundUnits num den := by
  obtain ⟨sh, q, q', e, hq, hs, -, hlt, hq'⟩ := roundUnits_form num den hd
  rw [e]
  refine Nat.le_min.2 ⟨?_, hm⟩
  have h1 : magUnits m < (q + 1) * 2 ^ sh := lt_of_mul_lt_mul_right (lt_of_le_of_lt h hlt) (Nat.zero_le _)
  rw [← magUnits_shift sh (q + 1) (by omega) (by omega), magUnits_lt_iff] at h1
  omega

/-- Rounding does not go above a representable value that is at least the exact one. -/
theorem roundUnits_le {m num den : Nat} (hd : 0 < den) (h : num ≤ magUnits m * den) :
    roundUnits num den ≤ m := by
  obtain ⟨sh, q, q', e, hq, hs, hle, -, hq'⟩ := roundUnits_form num den hd
  rw [e]
  refine Nat.le_trans (Nat.min_le_left _ _) ?_
  have h1 : q * 2 ^ sh ≤ magUnits m := le_of_mul_le_mul_right (hle.trans h) hd
  rw [← magUnits_shift sh q (by omega) hs, magUnits_le_iff] at h1
  by_cases hx : q' = q
  · omega
  · have hpos : 0 < 2 ^ sh * den := by positivity
    have hne : q * 2 ^ sh * den < num := by
      rcases hq' with ⟨_, h'⟩ | ⟨h', _⟩ | ⟨h', _⟩ <;> omega
    have h2 : q * 2 ^ sh < magUnits m := lt_of_mul_lt_mul_right (lt_of_lt_of_le hne h) (Nat.zero_le _)
    rw [← magUnits_shift sh q (by omega) hs, magUnits_lt_iff] at h2
    omega

theorem roundUnits_le_inf (num den : Nat) : roundUnits num den ≤ infMag := Nat.min_le_right _ _

/-- A representable value rounds to itself. -/
theorem roundUnits_exact {m : Nat} (hm : m ≤ infMag) : roundUnits (magUnits m) 1 = m :=
  le_antisymm (roundUnits_le one_pos (by omega)) (le_roundUnits one_pos hm (by omega))

theorem roundUnits_zero (den : Nat) (hd : 0 < den) : roundUnits 0 den = 0 :=
  Nat.le_zero.1 (roundUnits_le hd (Nat.zero_le _))

/-! ### The parts of a packed value -/

theorem infMag_lt : infMag < 2 ^ 31 := by decide

theorem mag_lt (x : F32) : x.mag < 2 ^ 31 := Nat.mod_lt _ (by norm_num)

@[simp] theorem mag_pack (b : Bool) {m : Nat} (h : m < 2 ^ 31) : (pack b m).mag = m := by
  cases b <;> simp [pack, mag, BitVec.toNat_ofNat] <;> omega

@[simp] theorem isNeg_pack (b : Bool) {m : Nat} (h : m < 2 ^ 31) : (pack b m).isNeg = b := by
  cases b <;> simp [pack, isNeg, BitVec.msb_eq_decide, BitVec.toNat_ofNat] <;> omega

theorem units_pack (b : Bool) {m : Nat} (h : m < 2 ^ 31) :
    (pack b m).units = if b then -(magUnits m : Int) else magUnits m := by
  rw [units, isNeg_pack b h, mag_pack b h]

theorem isNaN_pack (b : Bool) {m : Nat} (h : m ≤ infMag) : (pack b m).isNaN = false := by
  have := infMag_lt
  simp [isNaN, mag_pack b (show m < 2 ^ 31 by omega), h]

theorem natAbs_units (x : F32) : x.units.natAbs = magUnits x.mag := by
  unfold units; split <;> simp

theorem isFinite_iff {x : F32} : x.isFinite = true ↔ x.mag < infMag := by simp [isFinite]

theorem not_isNaN_of_isFinite {x : F32} (h : x.isFinite = true) : x.isNaN = false := by
  rw [isFinite_iff] at h; simp [isNaN]; omega

theorem not_isInf_of_isFinite {x : F32} (h : x.isFinite = true) : x.isInf = false := by
  rw [isFinite_iff] at h; simp [isInf]; omega

theorem le_iff {x y : F32} : x.le y = true ↔ x.isNaN = false ∧ y.isNaN = false ∧ x.units ≤ y.units := by
  simp [le, and_assoc]

theorem lt_iff {x y : F32} : x.lt y = true ↔ x.isNaN = false ∧ y.isNaN = false ∧ x.units < y.units := by
  simp [lt, and_assoc]

theorem le_refl {x : F32} (h : x.isNaN = false) : x.le x = true := le_iff.2 ⟨h, h, Int.le_refl _⟩

theorem le_trans {x y z : F32} (h : x.le y = true) (h' : y.le z = true) : x.le z = true := by
  rw [le_iff] at *; exact ⟨h.1, h'.2.1, h.2.2.trans h'.2.2⟩

/-- Of two values that are no NaN, one is below the other. -/
theorem le_of_not_le {x y : F32} (hx : x.isNaN = false) (hy : y.isNaN = false) (h : x.le y = false) :
    y.le x = true := by
  rw [← Bool.not_eq_true, le_iff] at h
  rw [le_iff]; refine ⟨hy, hx, ?_⟩
  by_contra hc; exact h ⟨hx, hy, by omega⟩

theorem le_of_not_lt {x y : F32} (hx : x.isNaN = false) (hy : y.isNaN = false) (h : x.lt y = false) :
    y.le x = true := by
  rw [← Bool.not_eq_true, lt_iff] at h
  rw [le_iff]; refine ⟨hy, hx, ?_⟩
  by_contra hc; exact h ⟨hx, hy, by omega⟩

theorem le_of_lt {x y : F32} (h : x.lt y = true) : x.le y = true := by
  rw [lt_iff] at h; exact le_iff.2 ⟨h.1, h.2.1, Int.le_of_lt h.2.2⟩

/-- A value between two finite values of one order is finite. -/
theorem isFinite_of_between {a x b : F32} (ha : a.isFinite = true) (hb : b.isFinite = true)
    (h : a.le x = true) (h' : x.le b = true) : x.isFinite = true := by
  rw [le_iff] at h h'
  rw [isFinite_iff] at *
  have e1 : x.units ≤ magUnits b.mag := by
    refine h'.2.2.trans ?_; unfold units; split <;> omega
  have e2 : -(magUnits a.mag : Int) ≤ x.units := by
    refine Int.le_trans ?_ h.2.2; unfold units; split <;> omega
  have e3 : magUnits x.mag < magUnits infMag := by
    have h1 := magUnits_lt_iff.2 ha
    have h2 := magUnits_lt_iff.2 hb
    have h3 := natAbs_units x
    omega
  exact magUnits_lt_iff.1 e3

/-! ### Integers -/

theorem one_pos' : 0 < one := by unfold one; positivity

/-- Every integer below 2^24 is a magnitude: it is exact in binary32 (R215). -/
theorem exists_magUnits_eq (n : Nat) (h : n < 2 ^ 24) : ∃ m, m < infMag ∧ magUnits m = n * one := by
  rcases Nat.eq_zero_or_pos n with rfl | hn
  · exact ⟨0, by decide, by simp⟩
  · set k := Nat.log2 n with hk
    have hlo : 2 ^ k ≤ n := Nat.log2_self_le (by omega)
    have hhi : n < 2 ^ (k + 1) := Nat.lt_log2_self
    have hk24 : k < 24 := by
      by_contra hc
      have : 2 ^ 24 ≤ 2 ^ k := Nat.pow_le_pow_right (by norm_num) (by omega)
      omega
    refine ⟨(126 + k) * 2 ^ 23 + n * 2 ^ (23 - k), ?_, ?_⟩
    · have : n * 2 ^ (23 - k) < 2 ^ 24 := by
        have e : 2 ^ (k + 1) * 2 ^ (23 - k) = 2 ^ 24 := by rw [← pow_add]; congr 1; omega
        rw [← e]; exact Nat.mul_lt_mul_of_pos_right hhi (by positivity)
      unfold infMag; omega
    · rw [magUnits_shift]
      · rw [Nat.mul_assoc, ← pow_add]; unfold one; congr 2; omega
      · have e : 2 ^ (k + 1) * 2 ^ (23 - k) = 2 ^ 24 := by rw [← pow_add]; congr 1; omega
        rw [← e]; exact Nat.mul_le_mul_right _ hhi.le
      · right
        have e : 2 ^ k * 2 ^ (23 - k) = 2 ^ 23 := by rw [← pow_add]; congr 1; omega
        rw [← e]; exact Nat.mul_le_mul_right _ hlo

theorem ofNat_eq (n : Nat) : ofNat n = pack false (roundUnits (n * one) 1) := by
  cases n with
  | zero => rw [Nat.zero_mul, roundUnits_zero 1 Nat.one_pos]; rfl
  | succ k => rfl

theorem isNeg_ofNat (n : Nat) : (ofNat n).isNeg = false := by
  have := roundUnits_le_inf (n * one) 1
  have := infMag_lt
  rw [ofNat_eq]; exact isNeg_pack _ (by omega)

theorem isNaN_ofNat (n : Nat) : (ofNat n).isNaN = false := by
  rw [ofNat_eq]; exact isNaN_pack _ (roundUnits_le_inf _ _)

theorem mag_ofNat (n : Nat) : (ofNat n).mag = roundUnits (n * one) 1 := by
  have := roundUnits_le_inf (n * one) 1
  have := infMag_lt
  rw [ofNat_eq]; exact mag_pack _ (by omega)

theorem units_ofNat_nonneg (n : Nat) : 0 ≤ (ofNat n).units := by
  unfold units; rw [isNeg_ofNat]; simp

/-- `f32(n)` is exact below 2^24 (R215). -/
theorem units_ofNat {n : Nat} (h : n < 2 ^ 24) : (ofNat n).units = ((n * one : Nat) : Int) := by
  obtain ⟨m, hm, e⟩ := exists_magUnits_eq n h
  unfold units
  rw [isNeg_ofNat, mag_ofNat, ← e, roundUnits_exact hm.le]; rfl

theorem isFinite_ofNat {n : Nat} (h : n < 2 ^ 24) : (ofNat n).isFinite = true := by
  obtain ⟨m, hm, e⟩ := exists_magUnits_eq n h
  rw [isFinite_iff, mag_ofNat, ← e, roundUnits_exact hm.le]; exact hm

/-- `f32` of every u32 is finite (R212, R268). -/
theorem isFinite_ofNat_u32 {n : Nat} (h : n < 2 ^ 32) : (ofNat n).isFinite = true := by
  rw [isFinite_iff, mag_ofNat]
  have hle : n * one ≤ magUnits (158 * 2 ^ 23 + 2 ^ 23) * 1 := by
    rw [magUnits_shift _ _ (by norm_num) (by norm_num)]
    have e : 2 ^ 23 * 2 ^ 158 = 2 ^ 32 * one := by unfold one; rw [← pow_add, ← pow_add]
    rw [e, Nat.mul_one]; exact Nat.mul_le_mul_right _ h.le
  have := roundUnits_le one_pos hle
  unfold infMag; omega

theorem le_ofNat {m n : Nat} (hm : m < 2 ^ 24) (hn : n < 2 ^ 24) (h : m ≤ n) : (ofNat m).le (ofNat n) = true := by
  rw [le_iff, units_ofNat hm, units_ofNat hn]
  exact ⟨isNaN_ofNat _, isNaN_ofNat _, by exact_mod_cast Nat.mul_le_mul_right _ h⟩

/-! ### Sums and differences -/

@[simp] theorem mag_neg (x : F32) : x.neg.mag = x.mag := by
  have h : (0x80000000#32).toNat % 2 ^ 31 = 0 := by decide
  simp only [mag, neg, BitVec.toNat_xor, Nat.xor_mod_two_pow]
  erw [h, Nat.xor_zero]

@[simp] theorem isNeg_neg (x : F32) : x.neg.isNeg = !x.isNeg := by
  have h : (0x80000000#32).msb = true := by decide
  simp [neg, isNeg, h]

@[simp] theorem units_neg (x : F32) : x.neg.units = -x.units := by
  simp only [units, mag_neg, isNeg_neg]
  cases x.isNeg <;> simp

@[simp] theorem isNaN_neg (x : F32) : x.neg.isNaN = x.isNaN := by simp [isNaN]

@[simp] theorem isFinite_neg (x : F32) : x.neg.isFinite = x.isFinite := by simp [isFinite]

@[simp] theorem mag_abs (x : F32) : x.abs.mag = x.mag := by
  have h : (0x7FFFFFFF#32).toNat % 2 ^ 31 = 2 ^ 31 - 1 := by decide
  simp only [mag, abs, BitVec.toNat_and, Nat.and_mod_two_pow]
  erw [h, Nat.and_two_pow_sub_one_eq_mod, Nat.mod_mod]

@[simp] theorem isNeg_abs (x : F32) : x.abs.isNeg = false := by
  have h : (0x7FFFFFFF#32).msb = false := by decide
  simp [abs, isNeg, h]

theorem units_abs (x : F32) : x.abs.units = x.units.natAbs := by
  rw [natAbs_units, units, isNeg_abs, mag_abs]; simp

/-- What a sum of two finite values is: the exact sum, rounded once. -/
theorem add_finite {x y : F32} (hx : x.isFinite = true) (hy : y.isFinite = true) :
    (x.add y).isNaN = false ∧
      (x.add y).units = if 0 ≤ x.units + y.units then (magUnits (roundUnits (x.units + y.units).natAbs 1) : Int)
        else -(magUnits (roundUnits (x.units + y.units).natAbs 1) : Int) := by
  have hl := roundUnits_le_inf (x.units + y.units).natAbs 1
  have hi := infMag_lt
  simp only [add, not_isNaN_of_isFinite hx, not_isNaN_of_isFinite hy, not_isInf_of_isFinite hx,
    not_isInf_of_isFinite hy, Bool.or_self, Bool.false_eq_true, if_false]
  split
  · next h0 =>
    rw [h0]
    simp [isNaN_pack, units_pack, roundUnits_zero]
  · next h0 =>
    refine ⟨isNaN_pack _ hl, ?_⟩
    rw [units_pack _ (by omega)]
    by_cases hneg : x.units + y.units < 0
    · simp [hneg]
    · simp [hneg, not_lt.1 hneg]

/-- A representable value not above the exact sum is not above the rounded one. -/
theorem le_add_of {x y z : F32} (hx : x.isFinite = true) (hy : y.isFinite = true) (hz : z.isFinite = true)
    (h : z.units ≤ x.units + y.units) : z.le (x.add y) = true := by
  obtain ⟨hn, hu⟩ := add_finite hx hy
  refine le_iff.2 ⟨not_isNaN_of_isFinite hz, hn, ?_⟩
  rw [hu]
  have hzm := isFinite_iff.1 hz
  have hza := natAbs_units z
  split
  · by_cases hz0 : z.units ≤ 0
    · omega
    · have : z.mag ≤ roundUnits (x.units + y.units).natAbs 1 :=
        le_roundUnits one_pos hzm.le (by omega)
      have := magUnits_le_iff.2 this
      omega
  · have : roundUnits (x.units + y.units).natAbs 1 ≤ z.mag := roundUnits_le one_pos (by omega)
    have := magUnits_le_iff.2 this
    omega

/-- A representable value not below the exact sum is not below the rounded one. -/
theorem add_le_of {x y z : F32} (hx : x.isFinite = true) (hy : y.isFinite = true) (hz : z.isFinite = true)
    (h : x.units + y.units ≤ z.units) : (x.add y).le z = true := by
  obtain ⟨hn, hu⟩ := add_finite hx hy
  refine le_iff.2 ⟨hn, not_isNaN_of_isFinite hz, ?_⟩
  rw [hu]
  have hzm := isFinite_iff.1 hz
  have hza := natAbs_units z
  split
  · have : roundUnits (x.units + y.units).natAbs 1 ≤ z.mag := roundUnits_le one_pos (by omega)
    have := magUnits_le_iff.2 this
    omega
  · by_cases hz0 : 0 ≤ z.units
    · omega
    · have : z.mag ≤ roundUnits (x.units + y.units).natAbs 1 :=
        le_roundUnits one_pos hzm.le (by omega)
      have := magUnits_le_iff.2 this
      omega

theorem sub_eq_add_neg {x y : F32} (hy : y.isNaN = false) : x.sub y = x.add y.neg := by
  simp [sub, hy]

/-! ### Products and quotients of values that are not negative -/

theorem mul_finite {x y : F32} (hx : x.isFinite = true) (hy : y.isFinite = true) :
    x.mul y = pack (x.isNeg != y.isNeg) (roundUnits (magUnits x.mag * magUnits y.mag) one) := by
  simp [mul, not_isNaN_of_isFinite hx, not_isNaN_of_isFinite hy, not_isInf_of_isFinite hx, not_isInf_of_isFinite hy]

theorem div_finite {x y : F32} (hx : x.isFinite = true) (hy : y.isFinite = true) (hy0 : y.mag ≠ 0) :
    x.div y = pack (x.isNeg != y.isNeg) (roundUnits (magUnits x.mag * one) (magUnits y.mag)) := by
  simp [div, not_isNaN_of_isFinite hx, not_isNaN_of_isFinite hy, not_isInf_of_isFinite hx, not_isInf_of_isFinite hy, hy0]

theorem units_nonneg_of_isNeg {x : F32} (h : x.isNeg = false) : 0 ≤ x.units := by
  unfold units; rw [h]; simp

theorem magUnits_mag_of_nonneg {x : F32} (h : 0 ≤ x.units) : (magUnits x.mag : Int) = x.units := by
  have := natAbs_units x; omega

/-- A product of two finite values that are not below zero is no NaN and not below zero. -/
theorem mul_nonneg {x y : F32} (hx : x.isFinite = true) (hy : y.isFinite = true) (h : 0 ≤ x.units)
    (h' : 0 ≤ y.units) : (x.mul y).isNaN = false ∧ 0 ≤ (x.mul y).units := by
  have hl := roundUnits_le_inf (magUnits x.mag * magUnits y.mag) one
  have hi := infMag_lt
  rw [mul_finite hx hy]
  refine ⟨isNaN_pack _ hl, ?_⟩
  rw [units_pack _ (by omega)]
  split
  · next hs =>
    have hz : magUnits x.mag * magUnits y.mag = 0 := by
      have ex := magUnits_mag_of_nonneg h
      have ey := magUnits_mag_of_nonneg h'
      unfold units at ex ey
      rw [Nat.mul_eq_zero]
      cases h1 : x.isNeg <;> cases h2 : y.isNeg <;> rw [h1, h2] at hs <;> simp at hs
      · right; rw [h2] at ey; simp at ey; omega
      · left; rw [h1] at ex; simp at ex; omega
    rw [hz, roundUnits_zero _ one_pos']; simp
  · positivity

/-- A product is finite when its exact value is at most a finite one. -/
theorem isFinite_mul {x y : F32} (hx : x.isFinite = true) (hy : y.isFinite = true) {m : Nat} (hm : m < infMag)
    (h : magUnits x.mag * magUnits y.mag ≤ magUnits m * one) : (x.mul y).isFinite = true := by
  have hi := infMag_lt
  have := roundUnits_le one_pos' h
  rw [mul_finite hx hy, isFinite_iff, mag_pack _ (by omega)]
  omega

/-- A value at most a finite one and not below zero is finite. -/
theorem isFinite_of_nonneg_le {x y : F32} (h : 0 ≤ x.units) (hy : y.isFinite = true)
    (hxy : x.units ≤ y.units) : x.isFinite = true := by
  rw [isFinite_iff] at *
  have e1 := magUnits_mag_of_nonneg h
  have e2 : y.units ≤ magUnits y.mag := by unfold units; split <;> omega
  have : magUnits x.mag ≤ magUnits y.mag := by omega
  rw [magUnits_le_iff] at this
  omega

theorem isInf_of_not_finite {x : F32} (hn : x.isNaN = false) (h : x.isFinite = false) : x.isInf = true := by
  simp only [isNaN, isFinite, isInf, decide_eq_false_iff_not, beq_iff_eq] at *
  omega

theorem isNeg_of_units_pos {x : F32} (h : 0 < x.units) : x.isNeg = false := by
  by_contra hc
  rw [Bool.not_eq_false] at hc
  unfold units at h; rw [hc] at h; simp at h; omega

/-- Adding a value that is no NaN and not below zero does not go down. -/
theorem le_add_right {x y : F32} (hx : x.isFinite = true) (hn : y.isNaN = false) (h : 0 ≤ y.units) :
    x.le (x.add y) = true := by
  by_cases hy : y.isFinite = true
  · exact le_add_of hx hy hx (by omega)
  · have hy : y.isFinite = false := by simpa using hy
    have hi := isInf_of_not_finite hn hy
    have e : x.add y = y := by
      simp [add, not_isNaN_of_isFinite hx, hn, not_isInf_of_isFinite hx, hi]
    rw [e, le_iff]
    refine ⟨not_isNaN_of_isFinite hx, hn, ?_⟩
    have hm : y.mag = infMag := by simpa [isInf] using hi
    have e1 := magUnits_mag_of_nonneg h
    have e2 := magUnits_lt_iff.2 (isFinite_iff.1 hx)
    have e3 : x.units ≤ magUnits x.mag := by unfold units; split <;> omega
    rw [hm] at e1; omega

/-- Subtracting a value that is no NaN and not below zero does not go up. -/
theorem sub_le_left {x y : F32} (hx : x.isFinite = true) (hn : y.isNaN = false) (h : 0 ≤ y.units) :
    (x.sub y).le x = true := by
  rw [sub_eq_add_neg hn]
  by_cases hy : y.isFinite = true
  · exact add_le_of hx (by simpa using hy) hx (by rw [units_neg]; omega)
  · have hy : y.isFinite = false := by simpa using hy
    have hi : y.neg.isInf = true := by simpa [isInf] using isInf_of_not_finite hn hy
    have e : x.add y.neg = y.neg := by
      simp [add, not_isNaN_of_isFinite hx, hn, not_isInf_of_isFinite hx, hi]
    rw [e, le_iff]
    refine ⟨by simpa using hn, not_isNaN_of_isFinite hx, ?_⟩
    have hm : y.mag = infMag := by simpa [isInf] using hi
    have e1 := magUnits_mag_of_nonneg h
    have e2 := magUnits_lt_iff.2 (isFinite_iff.1 hx)
    have e3 : -(magUnits x.mag : Int) ≤ x.units := by unfold units; split <;> omega
    rw [hm] at e1; rw [units_neg]; omega

end Sys2Proof.F32
end

