-- ==== Sys2Proof/Laws/Decode.lean ====
section
/-!
SUPPORT. The laws of byte order and of the configuration layout.
-/

namespace Sys2Proof

theorem byteAt_eq {P : List U8} {i : Nat} (h : i < P.length) : byteAt P i = P[i] := by
  simp [byteAt, h]

@[simp] theorem byteAt_zero (b : U8) (P : List U8) : byteAt (b :: P) 0 = b := rfl

/-- Reading past the head of a payload reads its tail. -/
theorem byteAt_succ (b : U8) (P : List U8) {i : Nat} (h : i < P.length) : byteAt (b :: P) (i + 1) = byteAt P i := by
  rw [byteAt_eq h, byteAt_eq (by simpa using h)]; rfl

theorem byteAt_append_left {P Q : List U8} {i : Nat} (h : i < P.length) : byteAt (P ++ Q) i = byteAt P i := by
  rw [byteAt_eq h, byteAt_eq (by simp; omega), List.getElem_append_left h]

/-- A u16 is its two bytes (R62, R95). -/
theorem halves_append (v : U16) : (v.extractLsb' 8 8 ++ v.extractLsb' 0 8 : U16) = v := by
  ext i hi
  simp only [BitVec.getElem_append, BitVec.getElem_extractLsb']
  split
  · simp [BitVec.getLsbD_eq_getElem hi]
  · have : 8 + (i - 8) = i := by omega
    simp [this, BitVec.getLsbD_eq_getElem hi]

@[simp] theorem be16Bytes_length (v : U16) : (be16Bytes v).length = 2 := rfl

@[simp] theorem toBytes_length (cfg : ServoConfig) : cfg.toBytes.length = 16 := rfl

@[simp] theorem servoPayload_length (c : Config) (id : U8) (cfg : ServoConfig) : (servoPayload c id cfg).length = 18 := rfl

/-- The configuration layout loses nothing (R103). -/
theorem ofBytes_toBytes (cfg : ServoConfig) (rest : List U8) : ServoConfig.ofBytes (cfg.toBytes ++ rest) = cfg := by
  have h : ∀ (b0 b1 b2 b3 b4 b5 b6 b7 : U16),
      ServoConfig.ofBytes ((be16Bytes b0 ++ be16Bytes b1 ++ be16Bytes b2 ++ be16Bytes b3 ++ be16Bytes b4 ++
        be16Bytes b5 ++ be16Bytes b6 ++ be16Bytes b7) ++ rest) = ⟨b0, b1, b2, b3, b4, b5, b6, b7⟩ := by
    intro b0 b1 b2 b3 b4 b5 b6 b7
    simp only [be16Bytes, ServoConfig.ofBytes, be16, byteAt, List.cons_append, List.nil_append, List.getD_cons_zero,
      List.getD_cons_succ, halves_append]
  exact h _ _ _ _ _ _ _ _

end Sys2Proof
end

