-- ==== Sys2Proof/Laws/Operands.lean ====
section
/-!
SUPPORT. The laws of the operand forms: the clamp and the bounded map on naturals, the range of a pulse, the time step.
-/

namespace Sys2Proof.Machine

open Sys2Proof

theorem clamp_natCast (x lo hi : Nat) : clamp x lo hi = (clampNat x lo hi : Int) := by
  simp only [clamp, clampNat]; push_cast; rfl

theorem clampNat_of_le {x lo hi : Nat} (h : lo ≤ hi) : lo ≤ clampNat x lo hi ∧ clampNat x lo hi ≤ hi := by
  unfold clampNat; omega

theorem minPulse_le_maxPulse {c : Config} (h : c.wf) : c.minPulse.toNat ≤ c.maxPulse.toNat :=
  BitVec.le_def.1 h.2.2.1

/-- `to_pulse` lies between the pulse limits (R213, R214). -/
theorem pulseNat_range {c : Config} (h : c.wf) (tmin tmax : U16) (a : Nat) :
    c.minPulse.toNat ≤ pulseNat c tmin tmax a ∧ pulseNat c tmin tmax a ≤ c.maxPulse.toNat := by
  have hm := minPulse_le_maxPulse h
  unfold pulseNat
  split
  · omega
  · next ht =>
    have hc := clampNat_of_le (x := a) (show tmin.toNat ≤ tmax.toNat by omega)
    have : (clampNat a tmin.toNat tmax.toNat - tmin.toNat) * (c.maxPulse.toNat - c.minPulse.toNat) /
        (tmax.toNat - tmin.toNat) ≤ c.maxPulse.toNat - c.minPulse.toNat := by
      apply Nat.div_le_of_le_mul
      exact Nat.mul_le_mul_right _ (by omega)
    exact ⟨Nat.le_add_left _ _, by have := Nat.add_le_add_right this c.minPulse.toNat; omega⟩

/-- The machine's `to_pulse` is the formula of R213 and R214 on naturals. -/
theorem toPulse_eq {c : Config} (h : c.wf) (s : Servo) (a : Nat) :
    toPulse c s a = BitVec.ofNat 16 (pulseNat c s.tmin s.tmax a) := by
  have hm := minPulse_le_maxPulse h
  unfold toPulse boundedMap pulseNat
  by_cases ht : s.tmax.toNat ≤ s.tmin.toNat
  · have ht' : (s.tmax.toNat : Int) ≤ s.tmin.toNat := by exact_mod_cast ht
    rw [if_pos ht', if_pos ht]; simp
  · have ht' : ¬ (s.tmax.toNat : Int) ≤ s.tmin.toNat := by exact_mod_cast ht
    rw [if_neg ht', if_neg ht, clamp_natCast]
    have hc := clampNat_of_le (x := a) (show s.tmin.toNat ≤ s.tmax.toNat by omega)
    rw [← Nat.cast_sub hc.1, ← Nat.cast_sub hm, ← Nat.cast_sub (show s.tmin.toNat ≤ s.tmax.toNat by omega)]
    rw [← Nat.cast_mul, ← Int.ofNat_tdiv, ← Nat.cast_add, BitVec.ofInt_natCast]

theorem toNat_toPulse {c : Config} (h : c.wf) (s : Servo) (a : Nat) :
    (toPulse c s a).toNat = pulseNat c s.tmin s.tmax a := by
  have := pulseNat_range h s.tmin s.tmax a
  have hx := c.maxPulse.isLt
  rw [toPulse_eq h, BitVec.toNat_ofNat]
  exact Nat.mod_eq_of_lt (by omega)

/-- A pulse lies between the limits, as a u16. -/
theorem toPulse_range {c : Config} (h : c.wf) (s : Servo) (a : Nat) :
    c.minPulse ≤ toPulse c s a ∧ toPulse c s a ≤ c.maxPulse := by
  have := pulseNat_range h s.tmin s.tmax a
  rw [BitVec.le_def, BitVec.le_def, toNat_toPulse h]
  exact this

theorem targetOf_eq (c : Config) (s : Servo) (angle : U16) :
    targetOf c s angle = toPulse c s ((clampNat angle.toNat s.userMin.toNat s.userMax.toNat : Nat) : Int) := by
  rw [targetOf, clamp_natCast]

/-- A u16 is exact in binary32, and finite (R215). -/
theorem isFinite_ofNat_u16 (v : U16) : (F32.ofNat v.toNat).isFinite = true :=
  F32.isFinite_ofNat (by have := v.isLt; omega)

theorem le_ofNat_u16 {v w : U16} (h : v ≤ w) : (F32.ofNat v.toNat).le (F32.ofNat w.toNat) = true := by
  have hv := v.isLt
  have hw := w.isLt
  exact F32.le_ofNat (by omega) (by omega) (BitVec.le_def.1 h)

/-- A time step is finite and not below zero (R212, R268). -/
theorem timeStep_ok (t t0 : U32) : (timeStep t t0).isFinite = true ∧ 0 ≤ (timeStep t t0).units := by
  have hx := F32.isFinite_ofNat_u32 (elapsed t t0).isLt
  have hk : (F32.ofNat 1000).isFinite = true := F32.isFinite_ofNat (by norm_num)
  have hu : (F32.ofNat 1000).units = ((1000 * F32.one : Nat) : Int) := F32.units_ofNat (by norm_num)
  have hk0 : F32.magUnits (F32.ofNat 1000).mag = 1000 * F32.one := by
    have := F32.natAbs_units (F32.ofNat 1000); rw [hu, Int.natAbs_natCast] at this; exact this.symm
  have hm0 : (F32.ofNat 1000).mag ≠ 0 := by
    intro h0; rw [h0] at hk0; have := F32.one_pos'; simp at hk0; omega
  have hi := F32.infMag_lt
  have hl := F32.roundUnits_le_inf (F32.magUnits (F32.ofNat (elapsed t t0).toNat).mag * F32.one)
    (F32.magUnits (F32.ofNat 1000).mag)
  rw [timeStep, F32.div_finite hx hk hm0, F32.isNeg_ofNat, F32.isNeg_ofNat, F32.isFinite_iff,
    F32.mag_pack _ (by omega), F32.units_pack _ (by omega)]
  refine ⟨?_, by simp⟩
  have h1 : F32.roundUnits (F32.magUnits (F32.ofNat (elapsed t t0).toNat).mag * F32.one)
      (F32.magUnits (F32.ofNat 1000).mag) ≤ (F32.ofNat (elapsed t t0).toNat).mag := by
    apply F32.roundUnits_le
    · rw [hk0]; have := F32.one_pos'; omega
    · rw [hk0]; exact Nat.mul_le_mul_left _ (by have := F32.one_pos'; omega)
  exact lt_of_le_of_lt h1 (F32.isFinite_iff.1 hx)

end Sys2Proof.Machine
end

