-- ==== Sys2Proof/Laws/Registry.lean ====
section
/-!
SUPPORT. The laws of the instance registry (read after write, the canonical form) and of the handler registries.
-/

namespace Sys2Proof.Machine

open Sys2Proof

/-! ### The instance registry -/

@[simp] theorem regGet_nil (id : U8) : regGet [] id = none := rfl

theorem regGet_cons (k : U8) (v : Instance) (r : List (U8 × Instance)) (id : U8) :
    regGet ((k, v) :: r) id = if k = id then some v else regGet r id := rfl

@[simp] theorem regGet_regPut_same (r : List (U8 × Instance)) (id : U8) (v : Instance) :
    regGet (regPut r id v) id = some v := by
  induction r with
  | nil => simp [regPut, regGet]
  | cons e r ih =>
    obtain ⟨k, w⟩ := e
    unfold regPut
    split_ifs with h1 h2
    · simp [regGet]
    · simp [regGet]
    · simp [regGet_cons, Ne.symm h2, ih]

theorem regGet_regPut_other (r : List (U8 × Instance)) {id id' : U8} (v : Instance) (h : id' ≠ id) :
    regGet (regPut r id v) id' = regGet r id' := by
  induction r with
  | nil => simp [regPut, regGet, h.symm]
  | cons e r ih =>
    obtain ⟨k, w⟩ := e
    unfold regPut
    split_ifs with h1 h2
    · rw [regGet_cons, if_neg h.symm]
    · subst h2; rw [regGet_cons, regGet_cons, if_neg h.symm, if_neg h.symm]
    · rw [regGet_cons, regGet_cons, ih]

theorem regGet_regPut (r : List (U8 × Instance)) (id id' : U8) (v : Instance) :
    regGet (regPut r id v) id' = if id' = id then some v else regGet r id' := by
  split
  · next h => rw [h, regGet_regPut_same]
  · next h => exact regGet_regPut_other r v h

theorem mem_of_regGet {r : List (U8 × Instance)} {id : U8} {v : Instance} (h : regGet r id = some v) :
    (id, v) ∈ r := by
  induction r with
  | nil => simp at h
  | cons e r ih =>
    obtain ⟨k, w⟩ := e
    rw [regGet_cons] at h
    split at h
    · next hk => subst hk; cases h; exact List.mem_cons_self
    · exact List.mem_cons_of_mem _ (ih h)

theorem mem_regPut {r : List (U8 × Instance)} {id : U8} {v : Instance} {e : U8 × Instance}
    (h : e ∈ regPut r id v) : e = (id, v) ∨ e ∈ r := by
  induction r with
  | nil => exact Or.inl (List.mem_singleton.1 h)
  | cons f r ih =>
    obtain ⟨k, w⟩ := f
    unfold regPut at h
    split_ifs at h
    · exact List.mem_cons.1 h
    · rcases List.mem_cons.1 h with h | h
      · exact Or.inl h
      · exact Or.inr (List.mem_cons_of_mem _ h)
    · rcases List.mem_cons.1 h with h | h
      · exact Or.inr (h ▸ List.mem_cons_self)
      · exact (ih h).imp (fun x => x) (List.mem_cons_of_mem _)

theorem regPut_keys_sorted (r : List (U8 × Instance)) (id : U8) (v : Instance)
    (h : (r.map Prod.fst).Pairwise (· < ·)) : ((regPut r id v).map Prod.fst).Pairwise (· < ·) := by
  induction r with
  | nil => simp [regPut]
  | cons e r ih =>
    obtain ⟨k, w⟩ := e
    rw [List.map_cons, List.pairwise_cons] at h
    unfold regPut
    split_ifs with h1 h2
    · simp only [List.map_cons, List.pairwise_cons, List.mem_cons]
      refine ⟨?_, h.1, h.2⟩
      rintro a (rfl | ha)
      · exact h1
      · exact BitVec.lt_trans h1 (h.1 a ha)
    · subst h2; simpa [List.pairwise_cons] using h
    · simp only [List.map_cons, List.pairwise_cons]
      refine ⟨?_, ih h.2⟩
      intro a ha
      obtain ⟨e, he, rfl⟩ := List.mem_map.1 ha
      rcases mem_regPut he with rfl | he
      · change k < id
        rw [BitVec.lt_def] at h1 ⊢
        have : id.toNat ≠ k.toNat := fun hh => h2 (BitVec.eq_of_toNat_eq hh)
        omega
      · exact h.1 _ (List.mem_map_of_mem he)

/-- A write to a slot 1..255 of an instance with that id keeps the canonical form. -/
theorem regPut_wf {r : List (U8 × Instance)} {id : U8} {v : Instance} (h : RegWf r) (hid : id ≠ 0)
    (hv : v.id = id) : RegWf (regPut r id v) := by
  refine ⟨regPut_keys_sorted r id v h.1, fun e he => ?_⟩
  rcases mem_regPut he with rfl | he
  · exact ⟨hid, hv⟩
  · exact h.2 e he

/-- What an occupied slot of a well-formed registry holds (R39). -/
theorem regGet_wf {r : List (U8 × Instance)} {id : U8} {v : Instance} (h : RegWf r) (hg : regGet r id = some v) :
    id ≠ 0 ∧ v.id = id := h.2 _ (mem_of_regGet hg)

/-- Rewriting an occupied slot leaves the number of instances (R182). -/
theorem regPut_length_of_some (r : List (U8 × Instance)) (id : U8) (v w : Instance)
    (hs : (r.map Prod.fst).Pairwise (· < ·)) (h : regGet r id = some w) : (regPut r id v).length = r.length := by
  induction r with
  | nil => simp at h
  | cons e r ih =>
    obtain ⟨k, u⟩ := e
    rw [List.map_cons, List.pairwise_cons] at hs
    rw [regGet_cons] at h
    unfold regPut
    split at h
    · next hk => subst hk; simp [BitVec.lt_irrefl]
    · next hk =>
      have hlt : k < id := hs.1 _ (List.mem_map_of_mem (mem_of_regGet h))
      have h1 : ¬ id < k := by rw [BitVec.lt_def] at hlt ⊢; omega
      simp [h1, Ne.symm hk, ih hs.2 h]

/-! ### The handler registries -/

/-- Under a well-formed configuration the parameters stand as the rules write them (log 29). -/
theorem asWritten_of_wf {c : Config} (h : c.wf) : c.asWritten := h.2.2.2

/-- No handler has a reserved code 0, 10 or 35 (R69, U5). -/
theorem code_not_fixedReserved {c : Config} (h : c.wf) {x : U8} (hx : x ∈ c.codes) : x ∉ Config.fixedReserved :=
  fun hr => h.2.1 x hx ((asWritten_of_wf h).2.2.2.2.2.2.2.2 x hr)

/-- A code that R69 reserves resolves to no command, so the dispatcher drops it (R110). -/
theorem commandOf_fixedReserved {c : Config} (h : c.wf) {x : U8} (hx : x ∈ Config.fixedReserved) :
    c.commandOf x = none := by
  have key : ∀ y ∈ c.codes, x ≠ y := fun y hy e => code_not_fixedReserved h hy (e ▸ hx)
  simp [Config.codes] at key
  simp [Config.commandOf, key]

theorem maxPayload_of_wf {c : Config} (h : c.wf) : c.maxPayload = 255 := (asWritten_of_wf h).1

theorem servoCfgSize_of_wf {c : Config} (h : c.wf) : c.servoCfgSize = 16 := (asWritten_of_wf h).2.2.2.2.1

theorem actionPayloadSize_of_wf {c : Config} (h : c.wf) : c.actionPayloadSize = 3 := (asWritten_of_wf h).2.2.2.2.2.1

/-- The four descriptors of R36, written out. -/
theorem inScopeCommands_eq {c : Config} (h : c.wf) :
    inScopeCommands c =
      [⟨c.codeHandshake, "HANDSHAKE", .fixed 0, false, false, .handshake⟩,
        ⟨c.codeAck, "ACK", .fixed 0, false, false, .ack⟩, ⟨c.codePatch, "PATCH", .variable, false, true, .patch⟩,
        ⟨c.codeAction, "ACTION", .fixed 3, false, true, .action⟩] := by
  simp [inScopeCommands, CommandKind.size, actionPayloadSize_of_wf h]

/-- The device descriptor of R36, written out. -/
theorem servoDevice_eq {c : Config} (h : c.wf) : servoDevice c = ⟨c.codeServo, "SERVO", 16, true, .servo⟩ := by
  simp [servoDevice, servoCfgSize_of_wf h]

theorem commandAt_code {r : List Command} {code : U8} {h : Command} (e : commandAt r code = some h) :
    h.code = code := by
  have := List.find?_some e
  simpa using this

theorem deviceAt_code {r : List Device} {code : U8} {d : Device} (e : deviceAt r code = some d) :
    d.code = code := by
  have := List.find?_some e
  simpa using this

/-- The boot fills `CMD` with the four in-scope entries: no registration is turned away when the codes differ (R310). -/
theorem bootCommands_eq {c : Config} (h : c.wf) : bootCommands c = inScopeCommands c := by
  have hn := h.1
  simp only [Config.codes, List.nodup_cons, List.mem_cons, not_or] at hn
  obtain ⟨⟨h1, h2, h3, -⟩, ⟨h4, h5, -⟩, ⟨h6, -⟩, -⟩ := hn
  simp [bootCommands, inScopeCommands, registerCommand, h1, h2, h3, h4, h5, h6]

theorem bootDevices_eq (c : Config) : bootDevices c = [servoDevice c] := by
  simp [bootDevices, registerDevice]

/-- A comparison of codes, with the code looked up on the left. -/
theorem code_beq (x y : U8) : (x == y) = if y = x then true else false := by
  split_ifs with h
  · simp [h]
  · simp [Ne.symm h]

/-- `CMD[c]` after the boot, for every code (R36). -/
theorem commandAt_boot {c : Config} (h : c.wf) (code : U8) :
    commandAt (bootCommands c) code =
      if code = c.codeHandshake then (inScopeCommands c)[0]?
      else if code = c.codeAck then (inScopeCommands c)[1]?
      else if code = c.codePatch then (inScopeCommands c)[2]?
      else if code = c.codeAction then (inScopeCommands c)[3]?
      else none := by
  rw [bootCommands_eq h]
  simp only [commandAt, inScopeCommands, List.find?_cons, code_beq, List.find?_nil]
  split_ifs <;> rfl

/-- `DEV[c]` after the boot, for every code (R36). -/
theorem deviceAt_boot (c : Config) (code : U8) :
    deviceAt (bootDevices c) code = if code = c.codeServo then some (servoDevice c) else none := by
  rw [bootDevices_eq]
  simp only [deviceAt, List.find?_cons, code_beq, List.find?_nil, servoDevice]
  by_cases h : code = c.codeServo <;> simp [h]

end Sys2Proof.Machine
end

