-- ==== Sys2Proof/Laws/State.lean ====
section
/-!
SUPPORT. One lemma per field per named update of the state, so that no proof unfolds a record update.
-/

namespace Sys2Proof.Machine

open Sys2Proof

/-! ### `State.setSeq` -/

@[simp] theorem State.setSeq_config (s : State) (q : Seq) : (s.setSeq q).config = s.config := rfl
@[simp] theorem State.setSeq_seq (s : State) (q : Seq) : (s.setSeq q).seq = q := rfl
@[simp] theorem State.setSeq_rx (s : State) (q : Seq) : (s.setSeq q).rx = s.rx := rfl
@[simp] theorem State.setSeq_tx (s : State) (q : Seq) : (s.setSeq q).tx = s.tx := rfl
@[simp] theorem State.setSeq_cmd (s : State) (q : Seq) : (s.setSeq q).cmd = s.cmd := rfl
@[simp] theorem State.setSeq_dev (s : State) (q : Seq) : (s.setSeq q).dev = s.dev := rfl
@[simp] theorem State.setSeq_reg (s : State) (q : Seq) : (s.setSeq q).reg = s.reg := rfl
@[simp] theorem State.setSeq_hist (s : State) (q : Seq) : (s.setSeq q).hist = s.hist := rfl
@[simp] theorem State.setSeq_requests (s : State) (q : Seq) : (s.setSeq q).requests = s.requests := rfl
@[simp] theorem State.setSeq_agenda (s : State) (q : Seq) : (s.setSeq q).agenda = s.agenda := rfl
@[simp] theorem State.setSeq_clockTape (s : State) (q : Seq) : (s.setSeq q).clockTape = s.clockTape := rfl
@[simp] theorem State.setSeq_clockCount (s : State) (q : Seq) : (s.setSeq q).clockCount = s.clockCount := rfl
@[simp] theorem State.setSeq_drawCount (s : State) (q : Seq) : (s.setSeq q).drawCount = s.drawCount := rfl

/-! ### `State.setRx` -/

@[simp] theorem State.setRx_config (s : State) (l : List U8) : (s.setRx l).config = s.config := rfl
@[simp] theorem State.setRx_seq (s : State) (l : List U8) : (s.setRx l).seq = s.seq := rfl
@[simp] theorem State.setRx_rx (s : State) (l : List U8) : (s.setRx l).rx = l := rfl
@[simp] theorem State.setRx_tx (s : State) (l : List U8) : (s.setRx l).tx = s.tx := rfl
@[simp] theorem State.setRx_cmd (s : State) (l : List U8) : (s.setRx l).cmd = s.cmd := rfl
@[simp] theorem State.setRx_dev (s : State) (l : List U8) : (s.setRx l).dev = s.dev := rfl
@[simp] theorem State.setRx_reg (s : State) (l : List U8) : (s.setRx l).reg = s.reg := rfl
@[simp] theorem State.setRx_hist (s : State) (l : List U8) : (s.setRx l).hist = s.hist := rfl
@[simp] theorem State.setRx_requests (s : State) (l : List U8) : (s.setRx l).requests = s.requests := rfl
@[simp] theorem State.setRx_agenda (s : State) (l : List U8) : (s.setRx l).agenda = s.agenda := rfl
@[simp] theorem State.setRx_clockTape (s : State) (l : List U8) : (s.setRx l).clockTape = s.clockTape := rfl
@[simp] theorem State.setRx_clockCount (s : State) (l : List U8) : (s.setRx l).clockCount = s.clockCount := rfl
@[simp] theorem State.setRx_drawCount (s : State) (l : List U8) : (s.setRx l).drawCount = s.drawCount := rfl

/-! ### `State.hostAppend` -/

@[simp] theorem State.hostAppend_config (s : State) (b : U8) : (s.hostAppend b).config = s.config := rfl
@[simp] theorem State.hostAppend_seq (s : State) (b : U8) : (s.hostAppend b).seq = s.seq := rfl
@[simp] theorem State.hostAppend_rx (s : State) (b : U8) : (s.hostAppend b).rx = s.rx ++ [b] := rfl
@[simp] theorem State.hostAppend_tx (s : State) (b : U8) : (s.hostAppend b).tx = s.tx := rfl
@[simp] theorem State.hostAppend_cmd (s : State) (b : U8) : (s.hostAppend b).cmd = s.cmd := rfl
@[simp] theorem State.hostAppend_dev (s : State) (b : U8) : (s.hostAppend b).dev = s.dev := rfl
@[simp] theorem State.hostAppend_reg (s : State) (b : U8) : (s.hostAppend b).reg = s.reg := rfl
@[simp] theorem State.hostAppend_hist (s : State) (b : U8) : (s.hostAppend b).hist = s.hist := rfl
@[simp] theorem State.hostAppend_requests (s : State) (b : U8) : (s.hostAppend b).requests = s.requests := rfl
@[simp] theorem State.hostAppend_agenda (s : State) (b : U8) : (s.hostAppend b).agenda = s.agenda := rfl
@[simp] theorem State.hostAppend_clockTape (s : State) (b : U8) : (s.hostAppend b).clockTape = s.clockTape := rfl
@[simp] theorem State.hostAppend_clockCount (s : State) (b : U8) : (s.hostAppend b).clockCount = s.clockCount := rfl
@[simp] theorem State.hostAppend_drawCount (s : State) (b : U8) : (s.hostAppend b).drawCount = s.drawCount := rfl

/-! ### `State.setAgenda` -/

@[simp] theorem State.setAgenda_config (s : State) (m : List Move) : (s.setAgenda m).config = s.config := rfl
@[simp] theorem State.setAgenda_seq (s : State) (m : List Move) : (s.setAgenda m).seq = s.seq := rfl
@[simp] theorem State.setAgenda_rx (s : State) (m : List Move) : (s.setAgenda m).rx = s.rx := rfl
@[simp] theorem State.setAgenda_tx (s : State) (m : List Move) : (s.setAgenda m).tx = s.tx := rfl
@[simp] theorem State.setAgenda_cmd (s : State) (m : List Move) : (s.setAgenda m).cmd = s.cmd := rfl
@[simp] theorem State.setAgenda_dev (s : State) (m : List Move) : (s.setAgenda m).dev = s.dev := rfl
@[simp] theorem State.setAgenda_reg (s : State) (m : List Move) : (s.setAgenda m).reg = s.reg := rfl
@[simp] theorem State.setAgenda_hist (s : State) (m : List Move) : (s.setAgenda m).hist = s.hist := rfl
@[simp] theorem State.setAgenda_requests (s : State) (m : List Move) : (s.setAgenda m).requests = s.requests := rfl
@[simp] theorem State.setAgenda_agenda (s : State) (m : List Move) : (s.setAgenda m).agenda = m := rfl
@[simp] theorem State.setAgenda_clockTape (s : State) (m : List Move) : (s.setAgenda m).clockTape = s.clockTape := rfl
@[simp] theorem State.setAgenda_clockCount (s : State) (m : List Move) : (s.setAgenda m).clockCount = s.clockCount := rfl
@[simp] theorem State.setAgenda_drawCount (s : State) (m : List Move) : (s.setAgenda m).drawCount = s.drawCount := rfl

/-! ### `State.txPush` -/

@[simp] theorem State.txPush_config (s : State) (b : U8) : (s.txPush b).config = s.config := rfl
@[simp] theorem State.txPush_seq (s : State) (b : U8) : (s.txPush b).seq = s.seq := rfl
@[simp] theorem State.txPush_rx (s : State) (b : U8) : (s.txPush b).rx = s.rx := rfl
@[simp] theorem State.txPush_tx (s : State) (b : U8) : (s.txPush b).tx = s.tx ++ [b] := rfl
@[simp] theorem State.txPush_cmd (s : State) (b : U8) : (s.txPush b).cmd = s.cmd := rfl
@[simp] theorem State.txPush_dev (s : State) (b : U8) : (s.txPush b).dev = s.dev := rfl
@[simp] theorem State.txPush_reg (s : State) (b : U8) : (s.txPush b).reg = s.reg := rfl
@[simp] theorem State.txPush_hist (s : State) (b : U8) : (s.txPush b).hist = s.hist := rfl
@[simp] theorem State.txPush_requests (s : State) (b : U8) : (s.txPush b).requests = s.requests := rfl
@[simp] theorem State.txPush_agenda (s : State) (b : U8) : (s.txPush b).agenda = s.agenda := rfl
@[simp] theorem State.txPush_clockTape (s : State) (b : U8) : (s.txPush b).clockTape = s.clockTape := rfl
@[simp] theorem State.txPush_clockCount (s : State) (b : U8) : (s.txPush b).clockCount = s.clockCount := rfl
@[simp] theorem State.txPush_drawCount (s : State) (b : U8) : (s.txPush b).drawCount = s.drawCount := rfl

/-! ### `State.record` -/

@[simp] theorem State.record_config (s : State) (e : Event) : (s.record e).config = s.config := rfl
@[simp] theorem State.record_seq (s : State) (e : Event) : (s.record e).seq = s.seq := rfl
@[simp] theorem State.record_rx (s : State) (e : Event) : (s.record e).rx = s.rx := rfl
@[simp] theorem State.record_tx (s : State) (e : Event) : (s.record e).tx = s.tx := rfl
@[simp] theorem State.record_cmd (s : State) (e : Event) : (s.record e).cmd = s.cmd := rfl
@[simp] theorem State.record_dev (s : State) (e : Event) : (s.record e).dev = s.dev := rfl
@[simp] theorem State.record_reg (s : State) (e : Event) : (s.record e).reg = s.reg := rfl
@[simp] theorem State.record_hist (s : State) (e : Event) : (s.record e).hist = s.hist ++ [e] := rfl
@[simp] theorem State.record_requests (s : State) (e : Event) : (s.record e).requests = s.requests := rfl
@[simp] theorem State.record_agenda (s : State) (e : Event) : (s.record e).agenda = s.agenda := rfl
@[simp] theorem State.record_clockTape (s : State) (e : Event) : (s.record e).clockTape = s.clockTape := rfl
@[simp] theorem State.record_clockCount (s : State) (e : Event) : (s.record e).clockCount = s.clockCount := rfl
@[simp] theorem State.record_drawCount (s : State) (e : Event) : (s.record e).drawCount = s.drawCount := rfl

/-! ### `State.drawn` -/

@[simp] theorem State.drawn_config (s : State) (n : Nat) : (s.drawn n).config = s.config := rfl
@[simp] theorem State.drawn_seq (s : State) (n : Nat) : (s.drawn n).seq = s.seq := rfl
@[simp] theorem State.drawn_rx (s : State) (n : Nat) : (s.drawn n).rx = s.rx := rfl
@[simp] theorem State.drawn_tx (s : State) (n : Nat) : (s.drawn n).tx = s.tx := rfl
@[simp] theorem State.drawn_cmd (s : State) (n : Nat) : (s.drawn n).cmd = s.cmd := rfl
@[simp] theorem State.drawn_dev (s : State) (n : Nat) : (s.drawn n).dev = s.dev := rfl
@[simp] theorem State.drawn_reg (s : State) (n : Nat) : (s.drawn n).reg = s.reg := rfl
@[simp] theorem State.drawn_hist (s : State) (n : Nat) : (s.drawn n).hist = s.hist := rfl
@[simp] theorem State.drawn_requests (s : State) (n : Nat) : (s.drawn n).requests = s.requests := rfl
@[simp] theorem State.drawn_agenda (s : State) (n : Nat) : (s.drawn n).agenda = s.agenda := rfl
@[simp] theorem State.drawn_clockTape (s : State) (n : Nat) : (s.drawn n).clockTape = s.clockTape := rfl
@[simp] theorem State.drawn_clockCount (s : State) (n : Nat) : (s.drawn n).clockCount = s.clockCount := rfl
@[simp] theorem State.drawn_drawCount (s : State) (n : Nat) : (s.drawn n).drawCount = s.drawCount + n := rfl

/-! ### `State.putActed` -/

@[simp] theorem State.putActed_config (s : State) (id : U8) (i : Instance) (a : Acted) : (s.putActed id i a).config = s.config := rfl
@[simp] theorem State.putActed_seq (s : State) (id : U8) (i : Instance) (a : Acted) : (s.putActed id i a).seq = s.seq := rfl
@[simp] theorem State.putActed_rx (s : State) (id : U8) (i : Instance) (a : Acted) : (s.putActed id i a).rx = s.rx := rfl
@[simp] theorem State.putActed_tx (s : State) (id : U8) (i : Instance) (a : Acted) : (s.putActed id i a).tx = s.tx := rfl
@[simp] theorem State.putActed_cmd (s : State) (id : U8) (i : Instance) (a : Acted) : (s.putActed id i a).cmd = s.cmd := rfl
@[simp] theorem State.putActed_dev (s : State) (id : U8) (i : Instance) (a : Acted) : (s.putActed id i a).dev = s.dev := rfl
@[simp] theorem State.putActed_reg (s : State) (id : U8) (i : Instance) (a : Acted) : (s.putActed id i a).reg = regPut s.reg id { i with servo := a.servo } := rfl
@[simp] theorem State.putActed_hist (s : State) (id : U8) (i : Instance) (a : Acted) : (s.putActed id i a).hist = s.hist := rfl
@[simp] theorem State.putActed_requests (s : State) (id : U8) (i : Instance) (a : Acted) : (s.putActed id i a).requests = s.requests ++ a.out.map fun r => (id, r) := rfl
@[simp] theorem State.putActed_agenda (s : State) (id : U8) (i : Instance) (a : Acted) : (s.putActed id i a).agenda = s.agenda := rfl
@[simp] theorem State.putActed_clockTape (s : State) (id : U8) (i : Instance) (a : Acted) : (s.putActed id i a).clockTape = s.clockTape := rfl
@[simp] theorem State.putActed_clockCount (s : State) (id : U8) (i : Instance) (a : Acted) : (s.putActed id i a).clockCount = s.clockCount := rfl
@[simp] theorem State.putActed_drawCount (s : State) (id : U8) (i : Instance) (a : Acted) : (s.putActed id i a).drawCount = s.drawCount := rfl

/-! ### `State.sampled` -/

@[simp] theorem State.sampled_config (s : State) : s.sampled.config = s.config := by
  unfold State.sampled; split <;> rfl
@[simp] theorem State.sampled_seq (s : State) : s.sampled.seq = s.seq := by
  unfold State.sampled; split <;> rfl
@[simp] theorem State.sampled_rx (s : State) : s.sampled.rx = s.rx := by
  unfold State.sampled; split <;> rfl
@[simp] theorem State.sampled_tx (s : State) : s.sampled.tx = s.tx := by
  unfold State.sampled; split <;> rfl
@[simp] theorem State.sampled_cmd (s : State) : s.sampled.cmd = s.cmd := by
  unfold State.sampled; split <;> rfl
@[simp] theorem State.sampled_dev (s : State) : s.sampled.dev = s.dev := by
  unfold State.sampled; split <;> rfl
@[simp] theorem State.sampled_reg (s : State) : s.sampled.reg = s.reg := by
  unfold State.sampled; split <;> rfl
@[simp] theorem State.sampled_hist (s : State) : s.sampled.hist = s.hist := by
  unfold State.sampled; split <;> rfl
@[simp] theorem State.sampled_requests (s : State) : s.sampled.requests = s.requests := by
  unfold State.sampled; split <;> rfl
@[simp] theorem State.sampled_agenda (s : State) : s.sampled.agenda = s.agenda := by
  unfold State.sampled; split <;> rfl
@[simp] theorem State.sampled_drawCount (s : State) : s.sampled.drawCount = s.drawCount := by
  unfold State.sampled; split <;> rfl

@[simp] theorem State.sampled_clockTape (s : State) : s.sampled.clockTape = s.clockTape.tail := by
  unfold State.sampled; split <;> simp_all

@[simp] theorem State.sampled_clockCount (s : State) :
    s.sampled.clockCount = if s.clockTape = [] then s.clockCount + 1 else s.clockCount := by
  unfold State.sampled; split <;> simp_all

@[simp] theorem State.draws_length (s : State) (n : Nat) : (s.draws n).length = n := by simp [State.draws]

end Sys2Proof.Machine
end

