-- ==== Sys2Proof/Laws/Ops.lean ====
section
/-!
SUPPORT. What each shared operation over the state can do, said once: the rejection, the end of an execution, the update of
the registry, PATCH and ACTION, the buffer of a dispatch, the sweep.
-/

namespace Sys2Proof.Machine

open Sys2Proof

/-! ### ACK flags of the booted registries (R36) -/

theorem commands_distinct {c : Config} (h : c.wf) :
    c.codeHandshake ≠ c.codeAck ∧ c.codeHandshake ≠ c.codePatch ∧ c.codeHandshake ≠ c.codeAction ∧
      c.codeAck ≠ c.codePatch ∧ c.codeAck ≠ c.codeAction ∧ c.codePatch ≠ c.codeAction := by
  have hn := h.1
  simp only [Config.codes, List.nodup_cons, List.mem_cons, not_or] at hn
  tauto

theorem Booted.acks_handshake {s : State} (h : Booted s) : s.acksOf s.config.codeHandshake = false := by
  simp [State.acksOf, h.commands, commandAt_boot h.config_wf, inScopeCommands]

theorem Booted.acks_ack {s : State} (h : Booted s) : s.acksOf s.config.codeAck = false := by
  obtain ⟨h1, -⟩ := commands_distinct h.config_wf
  simp [State.acksOf, h.commands, commandAt_boot h.config_wf, inScopeCommands, h1.symm]

theorem Booted.acks_patch {s : State} (h : Booted s) : s.acksOf s.config.codePatch = true := by
  obtain ⟨-, h2, -, h4, -⟩ := commands_distinct h.config_wf
  simp [State.acksOf, h.commands, commandAt_boot h.config_wf, inScopeCommands, h2.symm, h4.symm]

theorem Booted.acks_action {s : State} (h : Booted s) : s.acksOf s.config.codeAction = true := by
  obtain ⟨-, -, h3, -, h5, h6⟩ := commands_distinct h.config_wf
  simp [State.acksOf, h.commands, commandAt_boot h.config_wf, inScopeCommands, h3.symm, h5.symm, h6.symm]

/-- The ACK flags depend on `CMD` alone. -/
theorem acksOf_congr {s t : State} (h : s.cmd = t.cmd) (code : U8) : s.acksOf code = t.acksOf code := by
  simp [State.acksOf, h]

/-! ### Rejection and completion -/

@[simp] theorem reject_fst (e : Event) (s : State) : (reject e s).1 = false := rfl

@[simp] theorem reject_snd (e : Event) (s : State) : (reject e s).2 = s.record e := rfl

/-- An execution that did not apply ends without an ACK (R152). -/
theorem complete_of_not_applied (code : U8) (s : State) : complete code (false, s) = s.setSeq .sweep := rfl

/-- An execution that applied ends with an ACK exactly when its command is acknowledged (R152). -/
theorem complete_of_applied (code : U8) (s : State) :
    complete code (true, s) = if s.acksOf code then (s.txPush s.config.codeAck).setSeq .sweep else s.setSeq .sweep := by
  simp only [complete, Bool.true_and]; split <;> rfl

/-! ### PATCH and ACTION -/

/-- Everything `upsert` can do (R176). -/
theorem upsert_cases (d : Device) (id : U8) (cfg : ServoConfig) (s : State) :
    regGet s.reg id = none ∧ upsert d id cfg s = (true, createAt s.sampled d.kind id cfg s.now) ∨
      ∃ inst, regGet s.reg id = some inst ∧
        (inst.kind ≠ d.kind ∧ upsert d id cfg s = reject (.unrunnableTarget id) s.sampled ∨
          inst.kind = d.kind ∧ s.config.patchUpdateMode = .replace ∧
            upsert d id cfg s = (true, configureAt s.sampled id inst cfg s.now) ∨
          inst.kind = d.kind ∧ s.config.patchUpdateMode = .ignore ∧ upsert d id cfg s = (true, s.sampled)) := by
  unfold upsert
  simp only [State.sampled_reg, State.sampled_config]
  cases hg : regGet s.reg id with
  | none => exact Or.inl ⟨rfl, rfl⟩
  | some inst =>
    refine Or.inr ⟨inst, rfl, ?_⟩
    by_cases hk : inst.kind = d.kind
    · cases hm : s.config.patchUpdateMode <;> simp [hk]
    · simp [hk]

/-- Everything `runPatch` can do (R184). -/
theorem runPatch_cases (payload : List U8) (s : State) :
    payload = [] ∧ runPatch payload s = reject (.unknownCode none) s ∨
      ∃ target args, payload = target :: args ∧
        (deviceAt s.dev target = none ∧ runPatch payload s = reject (.unknownCode (some target)) s ∨
          ∃ d, deviceAt s.dev target = some d ∧
            (d.runnable = false ∧ runPatch payload s = (Config.transientApplied target args, s) ∨
              d.runnable = true ∧ payload.length < 2 + d.cfgSize.toNat ∧
                runPatch payload s = reject (.shortPayload target (BitVec.ofNat 8 payload.length)) s ∨
              d.runnable = true ∧ 2 + d.cfgSize.toNat ≤ payload.length ∧ byteAt payload 1 = 0 ∧
                runPatch payload s = reject (.badId 0) s ∨
              d.runnable = true ∧ 2 + d.cfgSize.toNat ≤ payload.length ∧ byteAt payload 1 ≠ 0 ∧
                runPatch payload s =
                  upsert d (byteAt payload 1) (ServoConfig.ofBytes ((payload.drop 2).take d.cfgSize.toNat)) s)) := by
  cases payload with
  | nil => exact Or.inl ⟨rfl, rfl⟩
  | cons target args =>
    refine Or.inr ⟨target, args, rfl, ?_⟩
    unfold runPatch
    cases hd : deviceAt s.dev target with
    | none => exact Or.inl ⟨rfl, by simp only [hd]⟩
    | some d =>
      refine Or.inr ⟨d, rfl, ?_⟩
      by_cases hr : d.runnable = true
      · by_cases hl : (target :: args).length < 2 + d.cfgSize.toNat
        · refine Or.inr (Or.inl ⟨hr, hl, ?_⟩)
          simp only [hd, hr, Bool.not_true, Bool.false_eq_true, if_false, if_pos hl]
        · by_cases hid : byteAt (target :: args) 1 = 0
          · refine Or.inr (Or.inr (Or.inl ⟨hr, by omega, hid, ?_⟩))
            simp only [hd, hr, Bool.not_true, Bool.false_eq_true, if_false, if_neg hl, hid, if_true]
          · refine Or.inr (Or.inr (Or.inr ⟨hr, by omega, hid, ?_⟩))
            simp only [hd, hr, Bool.not_true, Bool.false_eq_true, if_false, if_neg hl, if_neg hid]
      · refine Or.inl ⟨by simpa using hr, ?_⟩
        simp [hd, hr]

/-- Everything `runAction` can do (R190). -/
theorem runAction_cases (id : U8) (angle : U16) (s : State) :
    (id = 0 ∨ regGet s.reg id = none) ∧ runAction id angle s = reject (.noInstance id) s ∨
      ∃ inst, id ≠ 0 ∧ regGet s.reg id = some inst ∧
        (inst.kind ≠ .servo ∧ runAction id angle s = reject (.unrunnableTarget id) s ∨
          inst.kind = .servo ∧ runAction id angle s = (true, setTargetAt s.sampled id inst angle s.now)) := by
  unfold runAction addressed
  by_cases h0 : id = 0
  · exact Or.inl ⟨Or.inl h0, by simp [h0]⟩
  · cases hg : regGet s.reg id with
    | none => exact Or.inl ⟨Or.inr rfl, by simp⟩
    | some inst =>
      refine Or.inr ⟨inst, h0, rfl, ?_⟩
      by_cases hk : inst.kind = .servo
      · exact Or.inr ⟨hk, by rw [if_neg h0]; simp [hk]⟩
      · exact Or.inl ⟨hk, by rw [if_neg h0]; simp [hk]⟩

/-! ### The servo configured, as one record -/

/-- `configure` leaves the servo that R220 writes out, whatever it was, and makes its two requests. -/
theorem createAt_reg (s : State) (kind : DeviceKind) (id : U8) (cfg : ServoConfig) (t : U32) :
    (createAt s kind id cfg t).reg =
      regPut s.reg id { newInstance kind id s with servo := (configureServo s.config (newInstance kind id s).servo cfg t).servo } :=
  rfl

/-! ### A dispatch's buffer -/

@[simp] theorem beginExec_seq (h : Command) (payload : List U8) (len : U8) (timedOut : Bool) (s : State) :
    (beginExec h payload len timedOut s).seq =
      .exec h (payload ++ s.draws (s.config.maxPayload - payload.length)) len timedOut := rfl

/-- A dispatch that begins changes `SEQ` and the count of draws, nothing else. -/
theorem beginExec_eq (h : Command) (payload : List U8) (len : U8) (timedOut : Bool) (s : State) :
    beginExec h payload len timedOut s =
      { s with seq := (beginExec h payload len timedOut s).seq
               drawCount := s.drawCount + (s.config.maxPayload - payload.length) } := rfl

/-- A dispatch that begins under a well-formed configuration fills a buffer of 255 bytes (R24). -/
theorem beginExec_of_wf (h : Command) (payload : List U8) (len : U8) (timedOut : Bool) {s : State} (hs : s.config.wf) :
    beginExec h payload len timedOut s =
      { s with seq := .exec h (payload ++ s.draws (255 - payload.length)) len timedOut
               drawCount := s.drawCount + (255 - payload.length) } := by
  simp only [beginExec, maxPayload_of_wf hs]; rfl

/-! ### The sweep -/

/-- The ids of the sweep are 1 to 255, each once, ascending (R137). -/
theorem mem_sweepIds {c : Config} (hc : c.wf) (id : U8) : id ∈ sweepIds c ↔ id ≠ 0 := by
  have h := id.isLt
  obtain ⟨-, h1, h2, -⟩ := asWritten_of_wf hc
  simp only [sweepIds, h1, h2, List.mem_map, List.mem_range'_1, show (255 : U8).toNat = 255 from rfl,
    show (1 : U8).toNat = 1 from rfl]
  constructor
  · rintro ⟨k, hk, rfl⟩ h0
    have := congrArg BitVec.toNat h0
    simp at this; omega
  · intro hne
    refine ⟨id.toNat, ?_, by simp⟩
    have : id.toNat ≠ 0 := fun h0 => hne (BitVec.eq_of_toNat_eq (by simpa using h0))
    omega

/-- The ids of the sweep rise, whatever the range is. -/
theorem sweepIds_sorted (c : Config) : (sweepIds c).Pairwise (· < ·) := by
  unfold sweepIds
  rw [List.pairwise_map]
  refine (List.pairwise_lt_range' (s := c.idMin.toNat) (n := c.idMax.toNat + 1 - c.idMin.toNat)).imp_of_mem ?_
  intro a b ha hb hab
  simp only [List.mem_range'_1] at ha hb
  have h1 := c.idMin.isLt
  have h2 := c.idMax.isLt
  rw [BitVec.lt_def, BitVec.toNat_ofNat, BitVec.toNat_ofNat]
  omega

/-- What every tick of an instance keeps, the sweep keeps. -/
theorem sweep_induction (P : State → Prop) (s : State) (h0 : P s.sampled)
    (hstep : ∀ s' id, P s' → P (tickAt s' id s.now)) (hseq : ∀ s', P s' → P (s'.setSeq .poll)) : P (sweep s) := by
  have key : ∀ (ids : List U8) (s' : State), P s' → P (ids.foldl (fun s'' id => tickAt s'' id s.now) s') := by
    intro ids
    induction ids with
    | nil => exact fun _ h => h
    | cons id ids ih => exact fun s' h => ih _ (hstep s' id h)
  exact hseq _ (key _ _ h0)

theorem tickAt_none {s : State} {id : U8} (h : regGet s.reg id = none) (t : U32) : tickAt s id t = s := by
  simp [tickAt, h]

theorem tickAt_some {s : State} {id : U8} {inst : Instance} (h : regGet s.reg id = some inst) (t : U32) :
    tickAt s id t = s.putActed id inst (tickServo s.config inst.servo t) := by
  simp [tickAt, h]

/-- A tick of an instance, as an instruction: its servo and its requests, nothing else (R225). -/
theorem execTick_some {s : State} {id : U8} {inst : Instance} (h : regGet s.reg id = some inst) (t : U32) :
    execTick id t s =
      .next (s.withServo id inst (tickServo s.config inst.servo t).servo
        ((tickServo s.config inst.servo t).out.map fun r => (id, r))) := by
  simp only [execTick, tickAt_some h]; rfl

end Sys2Proof.Machine
end

