-- ==== Sys2Proof/Laws/PerInstr.lean ====
section
/-!
SUPPORT. Statements for every instruction, one lemma per constructor. `WireLength`: the number of bytes a well-formed
instruction takes on the wire (30_encoding.md R90, R94; the opcode table's length_bytes).
-/

namespace Sys2Proof.Laws.WireLength

open Sys2Proof

/-- `length_bytes` of the opcode table: 1, 4, 20 or 2 + L; an internal operation has no bytes. -/
def expected : Instr → Nat
  | .handshake => 1
  | .ack => 1
  | .patch payload => 2 + payload.length
  | .action _ _ => 4
  | .patchServo _ _ => 20
  | .reservedNul => 1
  | .reservedLf => 1
  | .reservedHash => 1
  | .unassigned _ => 1
  | .configure _ _ _ => 0
  | .setTarget _ _ _ => 0
  | .tick _ _ => 0

/-- A well-formed instruction's encoding has the length the table gives, and no message is longer than 257 bytes. -/
def Statement (i : Instr) : Prop :=
  ∀ c : Config, i.wf c = true → (encode c i).length = expected i ∧ (encode c i).length ≤ maxMessage

theorem handshake : Statement .handshake := fun _ _ => ⟨rfl, by simp [encode, maxMessage]⟩

theorem ack : Statement .ack := fun _ _ => ⟨rfl, by simp [encode, maxMessage]⟩

theorem patch (payload : List U8) : Statement (.patch payload) := by
  intro c h
  simp only [Instr.wf, Bool.and_eq_true, decide_eq_true_eq] at h
  have hl : payload.length ≤ 255 := h.1
  simp only [encode, expected, maxMessage, List.length_cons]
  omega

theorem action (id : U8) (angle : U16) : Statement (.action id angle) := fun _ _ => ⟨rfl, by simp [encode, maxMessage]⟩

theorem patchServo (id : U8) (cfg : ServoConfig) : Statement (.patchServo id cfg) :=
  fun _ _ => ⟨rfl, by simp [encode, maxMessage]⟩

theorem reservedNul : Statement .reservedNul := fun _ _ => ⟨rfl, by simp [encode, maxMessage]⟩

theorem reservedLf : Statement .reservedLf := fun _ _ => ⟨rfl, by simp [encode, maxMessage]⟩

theorem reservedHash : Statement .reservedHash := fun _ _ => ⟨rfl, by simp [encode, maxMessage]⟩

theorem unassigned (code : U8) : Statement (.unassigned code) := fun _ _ => ⟨rfl, by simp [encode, maxMessage]⟩

theorem configure (id : U8) (cfg : ServoConfig) (t : U32) : Statement (.configure id cfg t) :=
  fun _ _ => ⟨rfl, by simp [encode]⟩

theorem setTarget (id : U8) (angle : U16) (t : U32) : Statement (.setTarget id angle t) :=
  fun _ _ => ⟨rfl, by simp [encode]⟩

theorem tick (id : U8) (t : U32) : Statement (.tick id t) := fun _ _ => ⟨rfl, by simp [encode]⟩

end Sys2Proof.Laws.WireLength
end

