-- ==== Sys2Proof/Laws/Servo.lean ====
section
/-!
SUPPORT. The laws of the servo's comparisons and steps: direction-aware comparison as an order, what a step can do to a
position, the half distance and the braking distance of the deceleration point.
-/

namespace Sys2Proof.Machine

open Sys2Proof

/-! ### Values -/

theorem units_zero : F32.zero.units = 0 := by decide

theorem isFinite_zero : F32.zero.isFinite = true := by decide

theorem isNaN_zero : F32.zero.isNaN = false := by decide

theorem zero_le_iff {x : F32} : F32.zero.le x = true ↔ x.isNaN = false ∧ 0 ≤ x.units := by
  rw [F32.le_iff, units_zero]; simp [isNaN_zero]

theorem isNaN_goal (s : Servo) : s.goal.isNaN = false := F32.isNaN_ofNat _

theorem isFinite_goal (s : Servo) : s.goal.isFinite = true := isFinite_ofNat_u16 _

/-- The goal depends on the target alone. -/
theorem goal_congr {s s' : Servo} (h : s.target = s'.target) : s.goal = s'.goal := by
  unfold Servo.goal; rw [h]

theorem speedBound_congr {s s' : Servo} (h : s.maxSpeed = s'.maxSpeed) : s.speedBound = s'.speedBound := by
  unfold Servo.speedBound; rw [h]

theorem accel_congr {s s' : Servo} (h : s.maxAcceleration = s'.maxAcceleration) : s.accel = s'.accel := by
  unfold Servo.accel; rw [h]

/-- A position between the pulse limits is finite. -/
theorem isFinite_of_pulse_range {c : Config} {x : F32} (h : (F32.ofNat c.minPulse.toNat).le x = true)
    (h' : x.le (F32.ofNat c.maxPulse.toNat) = true) : x.isFinite = true :=
  F32.isFinite_of_between (isFinite_ofNat_u16 _) (isFinite_ofNat_u16 _) h h'

/-! ### `passed` as an order -/

theorem passed_refl (d : Direction) {x : F32} (h : x.isNaN = false) : passed d x x = true := by
  cases d <;> exact F32.le_refl h

theorem passed_trans {d : Direction} {x y z : F32} (h : passed d x y = true) (h' : passed d y z = true) :
    passed d x z = true := by
  cases d
  · exact F32.le_trans h h'
  · exact F32.le_trans h' h

theorem passed_of_not_passed {d : Direction} {x y : F32} (hx : x.isNaN = false) (hy : y.isNaN = false)
    (h : passed d x y = false) : passed d y x = true := by
  cases d
  · exact F32.le_of_not_le hx hy h
  · exact F32.le_of_not_le hy hx h

theorem isNaN_of_passed {d : Direction} {x y : F32} (h : passed d x y = true) :
    x.isNaN = false ∧ y.isNaN = false := by
  cases d <;> simp only [passed, F32.le_iff] at h <;> exact ⟨by tauto, by tauto⟩

/-- A move starts at or before its goal, in its own direction (R44). -/
theorem passed_directionTo {goal cur : F32} (h : goal.isNaN = false) (h' : cur.isNaN = false) :
    passed (directionTo goal cur) goal cur = true := by
  unfold directionTo
  split
  · next hl => exact F32.le_of_lt hl
  · next hl => exact F32.le_of_not_lt h h' (by simpa using hl)

/-! ### Steps -/

/-- A speed change over a time step is no NaN and not below zero. -/
theorem accel_mul_ok (s : Servo) {dt : F32} (hd : dt.isFinite = true) (hd0 : 0 ≤ dt.units) :
    (s.accel.mul dt).isNaN = false ∧ 0 ≤ (s.accel.mul dt).units :=
  F32.mul_nonneg (isFinite_ofNat_u16 _) hd (F32.units_ofNat_nonneg _) hd0

/-- A step is no NaN and not below zero, even at an infinite speed when time passes. -/
theorem mul_dt_ok {v dt : F32} (hv : v.isNaN = false) (hv0 : 0 ≤ v.units) (hd : dt.isFinite = true)
    (hd0 : 0 ≤ dt.units) (h : v.isFinite = true ∨ dt.mag ≠ 0) : (v.mul dt).isNaN = false ∧ 0 ≤ (v.mul dt).units := by
  by_cases hf : v.isFinite = true
  · exact F32.mul_nonneg hf hd hv0 hd0
  · have hdm : dt.mag ≠ 0 := by tauto
    have hi := F32.isInf_of_not_finite hv (by simpa using hf)
    have hvm : v.mag = F32.infMag := by simpa [F32.isInf] using hi
    have hvp : v.isNeg = false := by
      apply F32.isNeg_of_units_pos
      have h1 := F32.magUnits_mag_of_nonneg hv0
      have h2 : 0 < F32.magUnits F32.infMag := by decide
      rw [hvm] at h1; omega
    have hdp : dt.isNeg = false := by
      apply F32.isNeg_of_units_pos
      have h1 := F32.magUnits_mag_of_nonneg hd0
      have h2 := F32.magUnits_lt_iff.2 (Nat.pos_of_ne_zero hdm)
      simp at h2; omega
    have e : v.mul dt = F32.pack (v.isNeg != dt.isNeg) F32.infMag := by
      simp [F32.mul, hv, F32.not_isNaN_of_isFinite hd, hi, hdm]
    rw [e, hvp, hdp]
    exact ⟨F32.isNaN_pack _ (by decide), by rw [F32.units_pack _ (by decide)]; simp⟩

/-- A step moves the position in its direction or not at all (R234). -/
theorem advance_passed {d : Direction} {p v dt : F32} (hp : p.isFinite = true) (hx : (v.mul dt).isNaN = false)
    (h : 0 ≤ (v.mul dt).units) : passed d (advance d p v dt) p = true := by
  cases d
  · exact F32.sub_le_left hp hx h
  · exact F32.le_add_right hp hx h

/-- A step at an infinite speed, when time passes, goes past every finite point. -/
theorem advance_passed_of_not_finite {d : Direction} {p v dt g : F32} (hp : p.isFinite = true)
    (hg : g.isFinite = true) (hv : v.isNaN = false) (hvi : v.isFinite = false) (hv0 : 0 ≤ v.units)
    (hd : dt.isFinite = true) (hd0 : 0 ≤ dt.units) (hdm : dt.mag ≠ 0) : passed d (advance d p v dt) g = true := by
  have hi := F32.isInf_of_not_finite hv hvi
  have hvm : v.mag = F32.infMag := by simpa [F32.isInf] using hi
  have hvp : v.isNeg = false := by
    apply F32.isNeg_of_units_pos
    have h1 := F32.magUnits_mag_of_nonneg hv0
    have h2 : 0 < F32.magUnits F32.infMag := by decide
    rw [hvm] at h1; omega
  have hdp : dt.isNeg = false := by
    apply F32.isNeg_of_units_pos
    have h1 := F32.magUnits_mag_of_nonneg hd0
    have h2 := F32.magUnits_lt_iff.2 (Nat.pos_of_ne_zero hdm)
    simp at h2; omega
  have e : v.mul dt = F32.pack false F32.infMag := by
    simp [F32.mul, hv, F32.not_isNaN_of_isFinite hd, hi, hdm, hvp, hdp]
  have hpn := F32.not_isNaN_of_isFinite hp
  have hpi := F32.not_isInf_of_isFinite hp
  have n1 : (F32.pack false F32.infMag).isNaN = false := by decide
  have n2 : (F32.pack false F32.infMag).isInf = true := by decide
  have n3 : (F32.pack false F32.infMag).neg.isNaN = false := by decide
  have n4 : (F32.pack false F32.infMag).neg.isInf = true := by decide
  have gm := F32.magUnits_lt_iff.2 (F32.isFinite_iff.1 hg)
  have gu : -(F32.magUnits g.mag : Int) ≤ g.units ∧ g.units ≤ F32.magUnits g.mag := by
    unfold F32.units; split <;> omega
  have gn := F32.not_isNaN_of_isFinite hg
  have pu : (F32.pack false F32.infMag).units = F32.magUnits F32.infMag := by
    rw [F32.units_pack _ (by decide)]; simp
  cases d
  · have : p.sub (v.mul dt) = (F32.pack false F32.infMag).neg := by
      rw [e, F32.sub_eq_add_neg n1]; simp [F32.add, hpn, hpi, n3, n4]
    simp only [advance, passed, this]
    rw [F32.le_iff]; refine ⟨n3, gn, ?_⟩
    rw [F32.units_neg, pu]; omega
  · have : p.add (v.mul dt) = F32.pack false F32.infMag := by
      rw [e]; simp [F32.add, hpn, hpi, n1, n2]
    simp only [advance, passed, this]
    rw [F32.le_iff]; refine ⟨gn, n1, ?_⟩
    rw [pu]; omega

/-! ### The deceleration point -/

/-- Every power of two below infinity is a magnitude. -/
theorem exists_magUnits_two_pow {k : Nat} (hk : 2 ^ k < F32.magUnits F32.infMag) :
    ∃ m, m < F32.infMag ∧ F32.magUnits m = 2 ^ k := by
  have : ∃ m, F32.magUnits m = 2 ^ k := by
    by_cases h : k < 24
    · exact ⟨2 ^ k, F32.magUnits_small (Nat.pow_lt_pow_right (by norm_num) h)⟩
    · refine ⟨(k - 23) * 2 ^ 23 + 2 ^ 23, ?_⟩
      rw [F32.magUnits_shift _ _ (by norm_num) (by norm_num), ← pow_add]; congr 1; omega
  obtain ⟨m, hm⟩ := this
  exact ⟨m, F32.magUnits_lt_iff.1 (by omega), hm⟩

/-- Rounding at most doubles: a rounded distance is at most twice a power of two that the distance reaches. -/
theorem exists_round_bound {d : Nat} (hd : 2 * d < F32.magUnits F32.infMag) (h0 : 0 < d) :
    ∃ m m', m < F32.infMag ∧ m' < F32.infMag ∧ F32.magUnits m ≤ d ∧ F32.magUnits m' = 2 * F32.magUnits m ∧
      F32.roundUnits d 1 ≤ m' := by
  have hlo : 2 ^ Nat.log2 d ≤ d := Nat.log2_self_le (by omega)
  have hhi : d < 2 ^ (Nat.log2 d + 1) := Nat.lt_log2_self
  obtain ⟨m, hm, em⟩ := exists_magUnits_two_pow (k := Nat.log2 d) (by omega)
  obtain ⟨m', hm', em'⟩ := exists_magUnits_two_pow (k := Nat.log2 d + 1) (by rw [pow_succ]; omega)
  exact ⟨m, m', hm, hm', by omega, by rw [em, em', pow_succ]; ring, F32.roundUnits_le one_pos (by omega)⟩

theorem magUnits_two : F32.magUnits (F32.ofNat 2).mag = 2 * F32.one := by
  rw [← F32.natAbs_units, F32.units_ofNat (by norm_num), Int.natAbs_natCast]

theorem mag_ne_zero_of_magUnits {x : F32} (h : F32.magUnits x.mag ≠ 0) : x.mag ≠ 0 := by
  intro h0; rw [h0] at h; simp at h

theorem sub_finite_mag {x y : F32} (hx : x.isFinite = true) (hy : y.isFinite = true) :
    (x.sub y).mag = F32.roundUnits (x.units - y.units).natAbs 1 := by
  obtain ⟨-, h2⟩ := F32.add_finite (y := y.neg) hx (by simpa using hy)
  rw [F32.sub_eq_add_neg (F32.not_isNaN_of_isFinite hy)]
  have := F32.natAbs_units (x.add y.neg)
  rw [h2, F32.units_neg, ← Int.sub_eq_add_neg] at this
  have e : F32.magUnits (F32.roundUnits (x.units - y.units).natAbs 1) = F32.magUnits (x.add y.neg).mag := by
    split at this <;> omega
  exact le_antisymm (F32.magUnits_le_iff.1 e.ge) (F32.magUnits_le_iff.1 e.le)

/-- Half the distance of two points, as R223 computes it, is finite, not below zero and at most the distance. -/
theorem half_distance_ok {a b : F32} (ha : a.isFinite = true) (hb : b.isFinite = true)
    (hd : 2 * (a.units - b.units).natAbs < F32.magUnits F32.infMag) :
    (((a.sub b).abs).div (F32.ofNat 2)).isFinite = true ∧ 0 ≤ (((a.sub b).abs).div (F32.ofNat 2)).units ∧
      (((a.sub b).abs).div (F32.ofNat 2)).units ≤ (a.units - b.units).natAbs := by
  have hp := F32.one_pos'
  have hi := F32.infMag_lt
  have h2f : (F32.ofNat 2).isFinite = true := F32.isFinite_ofNat (by norm_num)
  have h20 := mag_ne_zero_of_magUnits (x := F32.ofNat 2) (by rw [magUnits_two]; omega)
  set d := (a.units - b.units).natAbs with hdd
  have hm : ((a.sub b).abs).mag = F32.roundUnits d 1 := by rw [F32.mag_abs, sub_finite_mag ha hb]
  obtain ⟨r, hr1, hr2⟩ : ∃ r, F32.roundUnits (F32.magUnits (F32.roundUnits d 1) * F32.one)
      (F32.magUnits (F32.ofNat 2).mag) = r ∧ F32.magUnits r ≤ d := by
    refine ⟨_, rfl, ?_⟩
    rcases Nat.eq_zero_or_pos d with h0 | h0
    · rw [h0, F32.roundUnits_zero _ one_pos, F32.magUnits_zero, Nat.zero_mul,
        F32.roundUnits_zero _ (by rw [magUnits_two]; omega)]; simp
    · obtain ⟨m, m', -, -, e1, e2, e3⟩ := exists_round_bound hd h0
      refine le_trans (F32.magUnits_le_iff.2 (F32.roundUnits_le (by rw [magUnits_two]; omega) ?_)) e1
      rw [magUnits_two]
      have := F32.magUnits_le_iff.2 e3
      rw [e2] at this
      calc _ ≤ 2 * F32.magUnits m * F32.one := Nat.mul_le_mul_right _ this
        _ = _ := by ring
  have hfin : ((a.sub b).abs).isFinite = true := by
    rw [F32.isFinite_iff, hm]
    rcases Nat.eq_zero_or_pos d with h0 | h0
    · rw [h0, F32.roundUnits_zero _ one_pos]; decide
    · obtain ⟨m, m', -, e0, -, -, e3⟩ := exists_round_bound hd h0
      omega
  have hrlt : r < F32.infMag := F32.magUnits_lt_iff.1 (by omega)
  rw [F32.div_finite hfin h2f h20, F32.isNeg_abs, F32.isNeg_ofNat, hm, hr1, F32.isFinite_iff,
    F32.mag_pack _ (by omega), F32.units_pack _ (by omega)]
  exact ⟨hrlt, by simp, by simp only [bne_self_eq_false, Bool.false_eq_true, if_false]; exact_mod_cast hr2⟩

/-- The braking distance `V * V / (2 * A)` of R223, for a bounded acceleration, is no NaN and not below zero. -/
theorem braking_distance_ok (s : Servo) (hA : s.maxAcceleration ≠ 0) :
    ((s.speedBound.mul s.speedBound).div ((F32.ofNat 2).mul s.accel)).isNaN = false ∧
      0 ≤ ((s.speedBound.mul s.speedBound).div ((F32.ofNat 2).mul s.accel)).units := by
  have hi := F32.infMag_lt
  have hp := F32.one_pos'
  have hV : s.speedBound.isFinite = true := isFinite_ofNat_u16 _
  have hAf : s.accel.isFinite = true := isFinite_ofNat_u16 _
  have h2f : (F32.ofNat 2).isFinite = true := F32.isFinite_ofNat (by norm_num)
  have hVl := s.maxSpeed.isLt
  have hAl := s.maxAcceleration.isLt
  have uV : F32.magUnits s.speedBound.mag = s.maxSpeed.toNat * F32.one := by
    unfold Servo.speedBound
    rw [← F32.natAbs_units, F32.units_ofNat (by omega), Int.natAbs_natCast]
  have uA : F32.magUnits s.accel.mag = s.maxAcceleration.toNat * F32.one := by
    unfold Servo.accel
    rw [← F32.natAbs_units, F32.units_ofNat (by omega), Int.natAbs_natCast]
  have bound : ∀ x y : F32, x.isFinite = true → y.isFinite = true → F32.magUnits x.mag ≤ 2 ^ 16 * F32.one →
      F32.magUnits y.mag ≤ 2 ^ 16 * F32.one → (x.mul y).isFinite = true := by
    intro x y hx hy h h'
    obtain ⟨m, hm, em⟩ := exists_magUnits_two_pow (k := 32 + 149) (by decide)
    refine F32.isFinite_mul hx hy hm ?_
    rw [em]
    calc _ ≤ 2 ^ 16 * F32.one * (2 ^ 16 * F32.one) := Nat.mul_le_mul h h'
      _ = _ := by unfold F32.one; ring
  have hVV := bound _ _ hV hV (by rw [uV]; exact Nat.mul_le_mul_right _ (by omega))
    (by rw [uV]; exact Nat.mul_le_mul_right _ (by omega))
  have h2A := bound _ _ h2f hAf (by rw [magUnits_two]; exact Nat.mul_le_mul_right _ (by norm_num))
    (by rw [uA]; exact Nat.mul_le_mul_right _ (by omega))
  have hA1 : 1 ≤ s.maxAcceleration.toNat := by
    by_contra hc; apply hA; apply BitVec.eq_of_toNat_eq; simp; omega
  have hl2A := F32.roundUnits_le_inf (F32.magUnits (F32.ofNat 2).mag * F32.magUnits s.accel.mag) F32.one
  have hlVV := F32.roundUnits_le_inf (F32.magUnits s.speedBound.mag * F32.magUnits s.speedBound.mag) F32.one
  have hne : ((F32.ofNat 2).mul s.accel).mag ≠ 0 := by
    rw [F32.mul_finite h2f hAf, F32.mag_pack _ (by omega)]
    have : 1 ≤ F32.roundUnits (F32.magUnits (F32.ofNat 2).mag * F32.magUnits s.accel.mag) F32.one := by
      apply F32.le_roundUnits hp (by decide)
      rw [magUnits_two, uA, show F32.magUnits 1 = 1 by decide, Nat.one_mul]
      nlinarith
    omega
  have hnegVV : (s.speedBound.mul s.speedBound).isNeg = false := by
    rw [F32.mul_finite hV hV, F32.isNeg_pack _ (by omega)]; simp
  have hneg2A : ((F32.ofNat 2).mul s.accel).isNeg = false := by
    rw [F32.mul_finite h2f hAf, F32.isNeg_pack _ (by omega), F32.isNeg_ofNat]
    unfold Servo.accel; rw [F32.isNeg_ofNat]; rfl
  have hl := F32.roundUnits_le_inf (F32.magUnits (s.speedBound.mul s.speedBound).mag * F32.one)
    (F32.magUnits ((F32.ofNat 2).mul s.accel).mag)
  rw [F32.div_finite hVV h2A hne, hnegVV, hneg2A]
  exact ⟨F32.isNaN_pack _ hl, by rw [F32.units_pack _ (by omega)]; simp⟩

/-! ### The arm of a tick (R225) -/

theorem tickServo_of_idle {c : Config} {s : Servo} {t : U32} (h : s.phase = .idle) :
    tickServo c s t = Acted.start { s with lastTick := t } := by
  cases s; simp only at h; subst h; rfl

theorem tickServo_of_accelerating {c : Config} {s : Servo} {t : U32} (h : s.phase = .accelerating) :
    tickServo c s t = tickAccelerating { s with lastTick := t } t (timeStep t s.lastTick) := by
  cases s; simp only at h; subst h; rfl

theorem tickServo_of_cruising {c : Config} {s : Servo} {t : U32} (h : s.phase = .cruising) :
    tickServo c s t = tickCruising { s with lastTick := t } t (timeStep t s.lastTick) := by
  cases s; simp only at h; subst h; rfl

theorem tickServo_of_decelerating {c : Config} {s : Servo} {t : U32} (h : s.phase = .decelerating) :
    tickServo c s t = tickDecelerating { s with lastTick := t } t (timeStep t s.lastTick) := by
  cases s; simp only at h; subst h; rfl

theorem tickServo_of_settling {c : Config} {s : Servo} {t : U32} (h : s.phase = .settling) :
    tickServo c s t = tickSettling c { s with lastTick := t } t := by
  cases s; simp only at h; subst h; rfl

end Sys2Proof.Machine
end

