-- ==== Sys2Proof/Laws/Step.lean ====
section
/-!
SUPPORT. Everything one step can do, said once: which agent moved, and what the unit's move came to.
-/

namespace Sys2Proof.Machine

open Sys2Proof

/-- A step under a well-formed configuration is a host append or a unit step. -/
theorem step_eq_of_wf {s : State} (h : s.config.wf) :
    step s =
      match s.agenda with
      | .append b :: rest => .next ((s.setAgenda rest).hostAppend b)
      | .unit :: rest => unitStep (s.setAgenda rest)
      | [] => unitStep s := if_pos h

/-- If a step answers a next state, the configuration is well formed and one of the agents moved. -/
theorem step_cases {s t : State} (h : step s = .next t) :
    s.config.wf ∧
      ((∃ b rest, s.agenda = .append b :: rest ∧ t = (s.setAgenda rest).hostAppend b) ∨
        (∃ rest, s.agenda = .unit :: rest ∧ unitStep (s.setAgenda rest) = .next t) ∨
        s.agenda = [] ∧ unitStep s = .next t) := by
  by_cases hc : s.config.wf
  · refine ⟨hc, ?_⟩
    rw [step_eq_of_wf hc] at h
    cases ha : s.agenda with
    | nil => rw [ha] at h; exact Or.inr (Or.inr ⟨rfl, h⟩)
    | cons m rest =>
      rw [ha] at h
      cases m with
      | append b => exact Or.inl ⟨b, rest, rfl, by injection h with h; exact h.symm⟩
      | unit => exact Or.inr (Or.inl ⟨rest, rfl, h⟩)
  · simp [step, hc] at h

/-- If a unit step answers a next state, the sequencer made it or an instruction did. -/
theorem unitStep_cases {s t : State} (h : unitStep s = .next t) :
    fetch s = .moved t ∨ ∃ i s', fetch s = .run i s' ∧ exec i s' = .next t := by
  unfold unitStep at h
  cases hf : fetch s with
  | run i s' => rw [hf] at h; exact Or.inr ⟨i, s', rfl, h⟩
  | moved s' => rw [hf] at h; injection h with h; exact Or.inl (by rw [h])

/-- The instructions a unit step runs: a dropped code in `S_POLL` (R132), or the handler's in `S_EXEC` (R138). -/
theorem fetch_run_cases {s s' : State} {i : Instr} (h : fetch s = .run i s') :
    (∃ code rest, s.seq = .poll ∧ s.rx = code :: rest ∧ commandAt s.cmd code = none ∧ i = droppedInstr code ∧
        s' = s.setRx rest) ∨
      ∃ hd P len b, s.seq = .exec hd P len b ∧ i = decodePayload s.config hd.kind P len.toNat ∧ s' = s := by
  unfold fetch at h
  cases hq : s.seq with
  | poll =>
    rw [hq] at h
    simp only [fetchPoll] at h
    cases hr : s.rx with
    | nil => rw [hr] at h; simp at h
    | cons code rest =>
      rw [hr] at h
      simp only at h
      cases hc : commandAt s.cmd code with
      | none =>
        rw [hc] at h; simp only [Fetched.run.injEq] at h
        exact Or.inl ⟨code, rest, rfl, rfl, hc, h.1.symm, h.2.symm⟩
      | some hd =>
        rw [hc] at h; simp only at h
        split at h
        · split at h <;> simp at h
        · simp at h
  | waitLen hd => rw [hq] at h; simp at h
  | wait hd n => rw [hq] at h; simp at h
  | exec hd P len b =>
    rw [hq] at h; simp only [Fetched.run.injEq] at h
    exact Or.inr ⟨hd, P, len, b, rfl, h.1.symm, h.2.symm⟩
  | sweep => rw [hq] at h; simp at h

/-- A run goes on from the next state of its first step. -/
theorem run_succ_of_next {s t : State} (k : Nat) (h : step s = .next t) :
    Host.Core.run Sys2Proof.core (k + 1) s = Host.Core.run Sys2Proof.core k t := by
  have general : ∀ (M : Host.Core) (a b : M.State), M.step a = .next b → M.run (k + 1) a = M.run k b := by
    intro M a b e
    simp [Host.Core.run, e]
  exact general Sys2Proof.core s t h

/-- A run of one step is the step. -/
theorem run_one (s : State) : Host.Core.run Sys2Proof.core 1 s = step s := by
  have general : ∀ (M : Host.Core) (a : M.State), M.run 1 a = M.step a := by
    intro M a
    simp only [Host.Core.run]
    cases M.step a <;> rfl
  exact general Sys2Proof.core s

end Sys2Proof.Machine
end

