-- ==== Sys2Proof/Tests/Slice0.lean ====
section
/-!
SUPPORT. Tests, their results taken from the spec (95_test_vectors.md, and the rules named), and for each obligation with
hypotheses a witness that meets them.
-/

namespace Sys2Proof.Tests

set_option Elab.async false

open Sys2Proof Sys2Proof.Machine

/-! ### Helpers -/

/-- The configuration of the test vectors: the defaults, with a settle delay of 1000 ms. -/
def cfg : Config := { Config.standard with settleDelayMs := 1000 }

/-- A state after reset with some fields to start a test from. -/
def start (seq : Seq) (rx : List U8) (reg : List (U8 × Instance)) : State :=
  { State.resetWith cfg with seq := seq, rx := rx, reg := reg, clockTape := [7] }

/-- A state in `S_SWEEP` with the servo `sv` under id 1. -/
def one (sv : Servo) : State := start .sweep [] [(1, ⟨.servo, 1, sv⟩)]

/-- The configuration of V2: pin 9, default 90, both ranges 0..180, both bounds unbounded. -/
def plain : ServoConfig := ⟨9, 90, 0, 180, 0, 180, 0, 0⟩

/-- The configuration of V10. -/
def bounded : ServoConfig := ⟨9, 90, 0, 180, 0, 180, 1000, 2000⟩

/-- The servo of V2 right after it was configured. -/
def rested : Servo := configuredServo cfg plain 0

/-- The servo of V2 at rest and detached. -/
def idle : Servo := { rested with phase := .idle, attached := false }

/-- A whole number as a position. -/
def pos (n : Nat) : F32 := F32.ofNat n

/-- Half of a whole number as a position. -/
def half (n : Nat) : F32 := (F32.ofNat n).div (F32.ofNat 2)

/-- A servo in a move upward from 544 to 2400 with `V = A = 1000`, at clock 0 (V32, first row). -/
def up (phase : Phase) (current speed : F32) : Servo :=
  { rested with
    phase := phase, current := current, speed := speed, target := 2400, decelPoint := pos 1900, maxSpeed := 1000,
    maxAcceleration := 1000, direction := .plus }

/-- What a servo is after an instruction on id 1, and the requests it made. -/
def servoAfter (o : Host.Outcome State Fault Refusal) : Option (Servo × List (U8 × Request)) :=
  match o with
  | .next t => (regGet t.reg 1).map fun i => (i.servo, t.requests)
  | _ => none

/-- What `TX`, `HIST` and the size of `REG` are after an instruction. -/
def reply (o : Host.Outcome State Fault Refusal) : Option (List U8 × List Event × Nat) :=
  match o with
  | .next t => some (t.tx, t.hist, t.reg.length)
  | _ => none

/-- The state that an outcome holds, or a given one. -/
def orElse (o : Host.Outcome State Fault Refusal) (s : State) : State :=
  match o with
  | .next t => t
  | _ => s

/-- The state after one step. -/
def stepped (s : State) : State := orElse (step s) s

/-- A state whose configuration is well formed steps to `stepped`. -/
theorem step_eq_stepped {s : State} (h : (match step s with | .next _ => true | _ => false) = true) :
    step s = .next (stepped s) := by
  unfold stepped orElse
  cases e : step s <;> simp [e] at h ⊢

theorem cfg_wf : cfg.wf := by decide

theorem start_booted (seq : Seq) (rx : List U8) (reg : List (U8 × Instance)) : Booted (start seq rx reg) :=
  ⟨cfg_wf, rfl, rfl⟩

/-! ### Well-formedness: each check refuses an ill-formed term -/

theorem test_wf_patch_too_long : (Instr.patch (List.replicate 256 0)).wf cfg = false := by decide +kernel
theorem test_wf_patch_longest : (Instr.patch (List.replicate 255 0)).wf cfg = true := by decide +kernel
theorem test_wf_patch_servo_form : (Instr.patch (5 :: List.replicate 17 0)).wf cfg = false := by decide
theorem test_wf_unassigned_command : (Instr.unassigned 4).wf cfg = false := by decide
theorem test_wf_unassigned_reserved : (Instr.unassigned 10).wf cfg = false := by decide
theorem test_wf_reserved_command :
    Instr.reservedNul.wf { cfg with reservedCodes := [], codeAck := 0 } = false ∧
      Instr.reservedLf.wf { cfg with reservedCodes := [], codeAck := 10 } = false ∧
      Instr.reservedHash.wf { cfg with reservedCodes := [], codeAck := 35 } = false := by decide
theorem test_wf_configure_id_zero : (Instr.configure 0 plain 0).wf cfg = false := by decide
theorem test_wf_set_target_id_zero : (Instr.setTarget 0 90 0).wf cfg = false := by decide
theorem test_wf_tick_id_zero : (Instr.tick 0 0).wf cfg = false := by decide

/-- R9: (a) two equal codes, (b) a reserved code, (c) pulse limits out of order. -/
theorem test_ill_formed_configurations :
    ∀ c ∈ [{ cfg with codeServo := 4 }, { cfg with codeAck := 35 }, { cfg with reservedCodes := [0, 10, 35, 5] },
      { cfg with minPulse := 2401 }], ¬ c.wf := by decide +kernel
/-- R69, U5: no handler on 0, 10 or 35, whatever the list of reserved codes is. -/
theorem test_fixed_reserved_codes :
    ∀ c ∈ [{ cfg with reservedCodes := [], codeAck := 0 }, { cfg with reservedCodes := [0, 35], codePatch := 10 },
      { cfg with reservedCodes := [0, 10], codeServo := 35 }], ¬ c.wf := by decide +kernel
/-- R9: the limits may be equal, and more codes may be reserved. -/
theorem test_well_formed_configurations :
    ∀ c ∈ [cfg, { cfg with minPulse := 2400 }, { cfg with reservedCodes := [35, 10, 0, 255] }], c.wf := by
  decide +kernel
/-- Log 29: each parameter that the rules write as a number, at another one. -/
theorem test_other_parameters :
    ∀ c ∈ [{ cfg with maxPayload := 254 }, { cfg with idMin := 0 }, { cfg with idMax := 254 },
      { cfg with instanceCapacity := 254 }, { cfg with servoCfgSize := 15 }, { cfg with actionPayloadSize := 2 },
      { cfg with rxCapacity := some 64 }, { cfg with clockWidth := 16 }, { cfg with reservedCodes := [0, 10] }], ¬ c.wf := by decide +kernel

/-! ### Decoding: the words of the encodings, byte by byte -/

/-- R101, V12 -/
theorem test_decode_handshake : decode cfg [0x01, 0x01] = .ok (.handshake, [0x01]) := by rfl
/-- R100 -/
theorem test_decode_ack : decode cfg [0x02] = .ok (.ack, []) := by rfl
/-- R102, V12: a PATCH with `L = 0` -/
theorem test_decode_patch_empty : decode cfg [0x03, 0x00, 0x09] = .ok (.patch [], [0x09]) := by rfl
/-- R104, V11 -/
theorem test_decode_action : decode cfg [0x04, 0x07, 0x01, 0x0E] = .ok (.action 7 270, []) := by decide +kernel
/-- R103, V10 -/
theorem test_decode_patch_servo :
    decode cfg [0x03, 0x12, 0x05, 0x01, 0x00, 0x09, 0x00, 0x5A, 0x00, 0x00, 0x00, 0xB4, 0x00, 0x00, 0x00, 0xB4, 0x03,
      0xE8, 0x07, 0xD0] = .ok (.patchServo 1 bounded, []) := by decide +kernel
/-- R110, V12 -/
theorem test_decode_reserved : decode cfg [0x00] = .ok (.reservedNul, []) ∧ decode cfg [0x0A] = .ok (.reservedLf, []) ∧
    decode cfg [0x23] = .ok (.reservedHash, []) := by decide +kernel
/-- R111, V12: a device code is unassigned as a leading byte. -/
theorem test_decode_unassigned : decode cfg [0x05] = .ok (.unassigned 0x05, []) ∧
    decode cfg [0xFF, 0x01] = .ok (.unassigned 0xFF, [0x01]) := by decide +kernel
/-- R94: a message cut short is no message. -/
theorem test_decode_short : decode cfg [] = .error .noCode ∧ decode cfg [0x03] = .error .noLength ∧
    decode cfg [0x04, 0x01, 0x00] = .error (.shortFrame 3 2) := by decide +kernel
/-- R103: the encoder writes the bytes of V10. -/
theorem test_encode_patch_servo :
    encode cfg (.patchServo 1 bounded) = [0x03, 0x12, 0x05, 0x01, 0x00, 0x09, 0x00, 0x5A, 0x00, 0x00, 0x00, 0xB4, 0x00,
      0x00, 0x00, 0xB4, 0x03, 0xE8, 0x07, 0xD0] := by decide +kernel

/-! ### Operands and arithmetic -/

/-- V1 -/
theorem test_be16 : be16 [0xFF, 0xFF] 0 = 65535 ∧ be16 [0x00, 0x12, 0x34] 1 = 4660 := by decide +kernel
/-- V13 -/
theorem test_to_pulse : toPulse cfg rested 45 = 1008 ∧ toPulse cfg rested 179 = 2389 ∧ toPulse cfg rested 65535 = 2400 := by
  decide +kernel
/-- V14 -/
theorem test_clamp_reversed : clamp 5 100 50 = 100 ∧ clamp 200 100 50 = 100 := by decide
/-- V16: the time step of 1 ms, and `544 + 1.0 × dt`, in binary32. -/
theorem test_time_step : timeStep 1 0 = ⟨0x3A83126F⟩ ∧ (pos 544).add ((pos 1).mul (timeStep 1 0)) = ⟨0x44080010⟩ := by
  decide +kernel
/-- V32, sixth row: `65535 × 65535` rounds down to `4294836224`. -/
theorem test_mul_rounds : (pos 65535).mul (pos 65535) = pos 4294836224 := by decide +kernel
/-- R213, V15: the default angle is not clamped into the user range. -/
theorem test_default_angle : (configureServo cfg idle ⟨9, 0, 0, 180, 10, 170, 0, 0⟩ 0).servo.defaultPos = 544 := by
  decide +kernel
/-- R37, V6 -/
theorem test_register_twice : (registerDevice (bootDevices cfg) (servoDevice cfg)) = (false, bootDevices cfg) := by
  decide +kernel

/-! ### The instructions -/

/-- V29 -/
theorem test_handshake : reply (exec .handshake (start .poll [] [])) = some ([0x01], [], 0) := by decide +kernel
/-- V28 -/
theorem test_ack : reply (exec .ack (start .poll [] [])) = some ([], [], 0) := by decide +kernel
/-- V30: an unknown target; R177. -/
theorem test_patch_unknown_target :
    reply (exec (.patch (7 :: 1 :: List.replicate 16 0)) (start .poll [] [])) = some ([], [.unknownCode (some 7)], 0) := by
  decide +kernel
/-- V30: 17 bytes are one too few. -/
theorem test_patch_short :
    reply (exec (.patch (5 :: 1 :: List.replicate 15 0)) (start .poll [] [])) = some ([], [.shortPayload 5 17], 0) := by
  decide +kernel
/-- V2, V30: the configuration of V2 creates the servo. -/
theorem test_patch_servo_creates :
    servoAfter (exec (.patchServo 1 plain) (start .poll [] [])) =
      some ({ rested with phaseStartedAt := 7, lastTick := 7 }, [(1, .attach 9), (1, .writePulse 1472)]) := by
  decide +kernel
/-- V30: a new configuration, pin 10 and default 45, on a servo that exists. -/
theorem test_patch_servo_replaces :
    (servoAfter (exec (.patchServo 1 { plain with pin := 10, defaultAngle := 45 }) (one idle))).map
        (fun r => (r.1.current, r.1.target, r.1.actPin, r.1.phase)) = some (pos 1008, 1008, 10, .settling) := by
  decide +kernel
/-- V31: no instance 9. -/
theorem test_action_no_instance :
    reply (exec (.action 9 90) (one rested)) = some ([], [.noInstance 9], 1) := by decide +kernel
/-- V3, V31: the angle 65535 is clamped to 180, on a detached servo. -/
theorem test_action_starts :
    (servoAfter (exec (.action 1 65535) (one idle))).map
        (fun r => (r.1.target, r.1.phase, r.1.decelPoint)) = some (2400, .cruising, pos 2400) ∧
      (servoAfter (exec (.action 1 65535) (one idle))).map (fun r => (r.1.attached, r.2)) = some (true, [(1, .attach 9)]) := by decide +kernel
/-- V19 -/
theorem test_reserved_hash : reply (exec .reservedHash (start .poll [] [])) = some ([], [.unknownCode (some 0x23)], 0) := by
  decide +kernel
/-- P3, iterations 1 and 2 -/
theorem test_reserved_nul_lf : reply (exec .reservedNul (start .poll [] [])) = some ([], [.unknownCode (some 0)], 0) ∧
    reply (exec .reservedLf (start .poll [] [])) = some ([], [.unknownCode (some 10)], 0) := by decide +kernel
/-- V20 -/
theorem test_unassigned : reply (exec (.unassigned 5) (start .poll [] [])) = some ([], [.unknownCode (some 5)], 0) := by
  decide +kernel
/-- V30: all configuration bytes 0: every angle maps to 544. -/
theorem test_configure_zeros :
    (servoAfter (exec (.configure 1 ⟨0, 0, 0, 0, 0, 0, 0, 0⟩ 3) (one rested))).map
        (fun r => (r.1.current, r.1.actPin, r.2)) = some (pos 544, 0, [(1, .attach 0), (1, .writePulse 544)]) := by
  decide +kernel
/-- V32, fourth row: 1472 to 647 with `V = 2000`, `A = 4000`; V7: the angle 0 is clamped to 10. -/
theorem test_set_target_down :
    (servoAfter (exec (.setTarget 1 0 5)
        (one { rested with userMin := 10, userMax := 170, maxSpeed := 2000, maxAcceleration := 4000 }))).map
        (fun r => (r.1.target, r.1.direction, r.1.phase, r.1.decelPoint)) =
      some (647, .minus, .accelerating, half 2119) := by decide +kernel
/-- V32, sixth row: `V = 65535`, `A = 1`. -/
theorem test_set_target_fast :
    (servoAfter (exec (.setTarget 1 180 5) (one { up .settling (pos 544) F32.zero with maxSpeed := 65535, maxAcceleration := 1 }))).map
        (fun r => (r.1.target, r.1.decelPoint)) = some (2400, pos 1472) := by decide +kernel

/-- A tick at clock `t` of a servo: whether it gives this phase, position and speed, and these requests. -/
def ticked (sv : Servo) (t : U32) (phase : Phase) (current speed : F32) (out : List Request) : Bool :=
  (servoAfter (exec (.tick 1 t) (one sv))).any fun r =>
    r.1.phase == phase && r.1.current == current && r.1.speed == speed && r.2 == out.map fun x => (1, x)

/-- V33, rows 2, 3 and 8: a speed equal to the bound stays, one above it is clamped; no time, no movement. V17: the clock
wraps. -/
theorem test_tick_accelerating :
    ticked (up .accelerating (pos 794) (pos 500)) 500 .accelerating (pos 1294) (pos 1000) [.writePulse 1294] = true ∧
      ticked (up .accelerating (pos 1294) (pos 1000)) 500 .cruising (pos 1794) (pos 1000) [.writePulse 1794] = true ∧
      ticked (up .accelerating (pos 544) F32.zero) 0 .accelerating (pos 544) F32.zero [.writePulse 544] = true ∧
      ticked { up .accelerating (pos 544) F32.zero with lastTick := 0xFFFFFF9C } 100 .accelerating (pos 584) (pos 200)
        [.writePulse 584] = true := by decide +kernel
/-- V33: passing the deceleration point, a speed of exactly 0, finishing, and the settle delay. -/
theorem test_tick_other_phases :
    ticked (up .cruising (pos 1794) (pos 1000)) 500 .decelerating (pos 1900) (pos 1000) [.writePulse 1900] = true ∧
      ticked (up .decelerating (pos 2150) (pos 500)) 500 .decelerating (pos 2150) F32.zero [.writePulse 2150] = true ∧
      ticked (up .decelerating (pos 2150) F32.zero) 500 .settling (pos 2400) F32.zero [.writePulse 2400] = true ∧
      ticked (up .settling (pos 2400) F32.zero) 999 .settling (pos 2400) F32.zero [] = true ∧
      ticked (up .settling (pos 2400) F32.zero) 1000 .idle (pos 2400) F32.zero [.detach] = true := by
  decide +kernel
/-! ### One step -/

/-- V23: an ACTION with one payload byte of three times out; the byte stays (R136). -/
theorem test_step_payload_timeout :
    let s := stepped (start (.wait ⟨4, "ACTION", .fixed 3, false, true, .action⟩ 3) [0x01] [])
    s.rx = [0x01] ∧ s.hist = [.readTimeout 4 3 1] := by decide +kernel
/-- V25: the length byte times out (R134). -/
theorem test_step_length_timeout :
    (stepped (start (.waitLen ⟨3, "PATCH", .variable, false, true, .patch⟩) [] [])).hist = [.readTimeout 3 1 0] := by
  decide +kernel
/-- R137: the sweep ticks and goes back to `S_POLL`. -/
theorem test_step_sweep :
    let s := stepped (one idle)
    s.seq = .poll ∧ s.reg = [(1, ⟨.servo, 1, { idle with lastTick := 7 }⟩)] ∧ s.clockTape = [] := by decide +kernel
/-- R7: the host appends a byte, whatever the unit is at. -/
theorem test_step_host : (stepped { one idle with agenda := [.append 4] }).rx = [4] := by decide +kernel
/-- R9 -/
theorem test_step_refused :
    step { start .poll [] [] with config := { cfg with codeServo := 4 } } = .refused .illFormedConfiguration := by rfl

/-- A table word stands where the next step runs it: the first instruction after reset (V2, V10, V11, V29). -/
theorem test_fetch_word :
    reply (step (State.reset.withFetchWord 8 0x01)) = some ([0x01], [], 0) ∧
      reply (step (State.reset.withFetchWord 8 0x23)) = some ([], [.unknownCode (some 0x23)], 0) ∧
      reply (step (State.reset.withFetchWord 32 0x0E010704)) = some ([], [.noInstance 7], 0) ∧
      reply (step (State.reset.withFetchWord 160 0xD007E803B4000000B40000005A00090001051203)) = some ([0x02], [], 1) := by
  decide +kernel

/-! ### Witnesses: encoding -/

theorem witness_DecodeEncodeRoundTrip :
    cfg.wf ∧ (Instr.patch (List.replicate 255 9)).onWire = true ∧ (Instr.patch (List.replicate 255 9)).wf cfg = true := by
  decide +kernel

theorem witness_EncodeDecodeRoundTrip : cfg.wf ∧ decode cfg [0x04, 0x07, 0x01, 0x0E, 0x09] = .ok (.action 7 270, [0x09]) := by
  decide +kernel

/-- Every clause of the lengths at its bounds: an unassigned code, 2 of 3 bytes, exactly `L` bytes, one fewer. -/
theorem witness_FrameLengthFollowsCode :
    cfg.wf ∧ (5 : U8) ∉ cfg.commandCodes ∧ ([1, 2] : List U8).length < 3 ∧ (2 : U8).toNat ≤ ([1, 2] : List U8).length ∧
      (0 : U8).toNat ≤ ([] : List U8).length ∧ ([1, 2] : List U8).length < (3 : U8).toNat := by decide

/-- The last byte, and the last pair. -/
theorem witness_BytePairsAreBigEndian :
    1 < ([0x12, 0x34] : List U8).length ∧ 0 + 1 < ([0x12, 0x34] : List U8).length := by decide

/-! ### Witnesses: the sequencer -/

/-- The registered commands, as the boot leaves them (R36). -/
def ackCommand : Command := ⟨2, "ACK", .fixed 0, false, false, .ack⟩
def patchCommand : Command := ⟨3, "PATCH", .variable, false, true, .patch⟩
def actionCommand : Command := ⟨4, "ACTION", .fixed 3, false, true, .action⟩

/-- A state that runs a PATCH SERVO of id 1. -/
def patching : State := start (.exec patchCommand (servoPayload cfg 1 plain ++ List.replicate 237 0) 18 false) [] []

/-- Both clauses, each with an empty agenda and with one that names the unit. -/
theorem witness_StepRunsDecodedInstruction :
    patching.config.wf ∧ patching.seq = .exec patchCommand (servoPayload cfg 1 plain ++ List.replicate 237 0) 18 false ∧
      patching.agenda = [] ∧ { patching with agenda := [.unit, .append 1] }.agenda = .unit :: [.append 1] ∧
      (start .poll [5, 1] []).seq = .poll ∧ (start .poll [5, 1] []).rx = 5 :: [1] ∧
      commandAt (start .poll [5, 1] []).cmd 5 = none ∧ (start .poll [5, 1] []).agenda = [] ∧
      { start .poll [5, 1] [] with agenda := [.unit] }.agenda = .unit :: [] := by decide +kernel

theorem witness_WholeMessageIsFramedAndRun :
    let s := start .poll (encode cfg (.patchServo 1 plain) ++ [1]) []
    Booted s ∧ s.seq = .poll ∧ s.agenda = [] ∧ (Instr.patchServo 1 plain).onWire = true ∧
      (Instr.patchServo 1 plain).wf s.config = true ∧ s.rx = encode s.config (.patchServo 1 plain) ++ [1] :=
  ⟨start_booted _ _ _, rfl, rfl, rfl, rfl, rfl⟩

theorem witness_PollWithoutByte :
    (start .poll [] []).config.wf ∧ (start .poll [] []).agenda = [] ∧ (start .poll [] []).seq = .poll ∧
      (start .poll [] []).rx = [] := ⟨cfg_wf, rfl, rfl, rfl⟩

/-- One code byte for each clause: unassigned, no payload, a payload of 3, and a variable one. -/
theorem witness_PollTakesOneCode :
    let s (b : U8) := start .poll [b] []
    (s 5).config.wf ∧ (s 5).agenda = [] ∧ (s 5).seq = .poll ∧ (s 5).rx = 5 :: [] ∧ commandAt (s 5).cmd 5 = none ∧
      commandAt (s 2).cmd 2 = some ackCommand ∧ ackCommand.size = .fixed 0 ∧
      commandAt (s 4).cmd 4 = some actionCommand ∧ actionCommand.size = .fixed 3 ∧ (3 : U8) ≠ 0 ∧
      commandAt (s 3).cmd 3 = some patchCommand ∧ patchCommand.size = .variable := by decide +kernel

/-- The length bytes 0, 1 and 255, and none. -/
theorem witness_LengthByteArrivesOrTimesOut :
    let s (rx : List U8) := start (.waitLen patchCommand) rx []
    (s []).config.wf ∧ (s []).agenda = [] ∧ (s []).seq = .waitLen patchCommand ∧ (s [0, 9]).rx = 0 :: [9] ∧
      (1 : U8) ≠ 0 ∧ (s [1]).rx = 1 :: [] ∧ (255 : U8) ≠ 0 ∧ (s [255]).rx = 255 :: [] ∧ (s []).rx = [] := by
  decide +kernel

/-- Exactly the bytes needed, and one fewer. -/
theorem witness_PayloadArrivesOrTimesOut :
    let s (rx : List U8) := start (.wait actionCommand 3) rx []
    (s []).config.wf ∧ (s []).agenda = [] ∧ (s []).seq = .wait actionCommand 3 ∧ (3 : U8).toNat ≤ (s [1, 0, 90]).rx.length ∧
      (s [1, 0]).rx.length < (3 : U8).toNat := by decide +kernel

theorem witness_HostAppendsOneByte :
    let s := { one idle with agenda := [.append 4, .unit] }
    s.config.wf ∧ s.agenda = .append 4 :: [.unit] := ⟨cfg_wf, rfl⟩

theorem witness_AgendaEntryRunsTheSameUnitStep :
    let s := { patching with agenda := [.unit, .append 4] }
    s.agenda = .unit :: [.append 4] ∧ step { s with agenda := [] } = .next (stepped { s with agenda := [] }) :=
  ⟨rfl, step_eq_stepped (by decide +kernel)⟩

/-- Each way a configuration is refused; the limits differ by one. -/
theorem witness_IllFormedConfigurationIsRefused :
    let s (c : Config) := State.resetWith c
    ¬ (s { cfg with codeServo := 4 }).config.codes.Nodup ∧
      (∃ x ∈ (s { cfg with codeAck := 0 }).config.codes, x ∈ (s { cfg with codeAck := 0 }).config.reservedCodes) ∧
      (∃ x ∈ (s { cfg with reservedCodes := [], codeAck := 0 }).config.codes, x = 0 ∨ x = 10 ∨ x = 35) ∧
      (∃ x ∈ (s { cfg with codeServo := 35 }).config.codes, x = 0 ∨ x = 10 ∨ x = 35) ∧
      (s { cfg with minPulse := 2401 }).config.maxPulse.toNat < (s { cfg with minPulse := 2401 }).config.minPulse.toNat ∧
      (s { cfg with maxPayload := 254 }).config.maxPayload ≠ 255 ∧ (s { cfg with idMin := 0 }).config.idMin ≠ 1 ∧
      (s { cfg with idMax := 254 }).config.idMax ≠ 255 ∧
      (s { cfg with instanceCapacity := 254 }).config.instanceCapacity ≠ 255 ∧
      (s { cfg with servoCfgSize := 15 }).config.servoCfgSize ≠ 16 ∧
      (s { cfg with actionPayloadSize := 2 }).config.actionPayloadSize ≠ 3 ∧
      (s { cfg with rxCapacity := some 64 }).config.rxCapacity ≠ none ∧
      (s { cfg with clockWidth := 16 }).config.clockWidth ≠ 32 ∧
      0 ∉ (s { cfg with reservedCodes := [10, 35] }).config.reservedCodes ∧
      10 ∉ (s { cfg with reservedCodes := [0, 35] }).config.reservedCodes ∧
      35 ∉ (s { cfg with reservedCodes := [0, 10] }).config.reservedCodes := by decide +kernel

theorem witness_EveryStepAnswersNext : (one idle).config.wf := cfg_wf

theorem regWf_one (i : Instance) (h : i.id = 1) : RegWf [(1, i)] := by
  refine ⟨by simp, ?_⟩
  intro e he
  rw [List.mem_singleton] at he
  subst he
  exact ⟨(by decide : (1 : U8) ≠ 0), h⟩

theorem witness_SweepTicksEveryInstanceOnce :
    (one idle).config.wf ∧ (one idle).agenda = [] ∧ (one idle).seq = .sweep ∧ RegWf (one idle).reg :=
  ⟨cfg_wf, rfl, rfl, regWf_one _ rfl⟩

/-- A host move, and a unit step. -/
theorem witness_SequencerKeepsOrder :
    let s := { one idle with agenda := [.append 4] }
    step s = .next (stepped s) ∧ step (one idle) = .next (stepped (one idle)) :=
  ⟨step_eq_stepped (by decide +kernel), step_eq_stepped (by decide +kernel)⟩

theorem witness_TimedOutFlagIsIgnored : patching.config.wf ∧ patching.agenda = [] := ⟨cfg_wf, rfl⟩

theorem witness_ReceiveStreamIsFifo :
    let s := { one idle with agenda := [.append 4] }
    step s = .next (stepped s) ∧ step patching = .next (stepped patching) :=
  ⟨step_eq_stepped (by decide +kernel), step_eq_stepped (by decide +kernel)⟩

theorem witness_QuiescentIterationOnlyTicks :
    let s := start .poll [] [(1, ⟨.servo, 1, idle⟩)]
    s.config.wf ∧ s.agenda = [] ∧ RegWf s.reg ∧ s.quiescent :=
  ⟨cfg_wf, rfl, regWf_one _ rfl, rfl, rfl, by
    intro e he
    rw [show (start .poll [] [(1, (⟨.servo, 1, idle⟩ : Instance))]).reg = [(1, ⟨.servo, 1, idle⟩)] from rfl,
      List.mem_singleton] at he
    subst he; rfl⟩

/-! ### Witnesses: messages -/

theorem witness_HandshakeRepliesWithItsCode : Booted (one idle) := start_booted _ _ _

theorem witness_AckIsNotAnswered : Booted (one idle) := start_booted _ _ _

/-- Each clause at its bound: another target, 16 argument bytes where 17 are needed, and 16 after the id 0. -/
theorem witness_PatchRejectionsChangeNothing :
    Booted (one idle) ∧ (4 : U8) ≠ (one idle).config.codeServo ∧ (List.replicate 16 (0 : U8)).length < 17 ∧
      16 ≤ (List.replicate 16 (0 : U8)).length := ⟨start_booted _ _ _, by decide, by decide, by decide⟩

/-- The ids 1 and 255, with and without bytes past the configuration. -/
theorem witness_PatchCreatesConfiguredInstance :
    let s := start .poll [] []
    Booted s ∧ (1 : U8) ≠ 0 ∧ (255 : U8) ≠ 0 ∧ regGet s.reg 1 = none ∧ regGet s.reg 255 = none ∧
      ∃ extra, Instr.patch (servoPayload cfg 255 plain ++ [0xFF, 0xFF]) = .patch (servoPayload s.config 255 plain ++ extra) :=
  ⟨start_booted _ _ _, by decide, by decide, rfl, rfl, [0xFF, 0xFF], rfl⟩

/-- Both modes, and a canonical `REG` with the next state whose size is compared. -/
theorem witness_PatchUpdatesByMode :
    let s := { one idle with config := { cfg with patchUpdateMode := .ignore } }
    Booted (one idle) ∧ (1 : U8) ≠ 0 ∧ regGet (one idle).reg 1 = some ⟨.servo, 1, idle⟩ ∧
      (one idle).config.patchUpdateMode = .replace ∧ Booted s ∧ regGet s.reg 1 = some ⟨.servo, 1, idle⟩ ∧
      s.config.patchUpdateMode = .ignore ∧ RegWf (one idle).reg ∧ RegWf s.reg ∧
      exec (.patchServo 1 plain) (one idle) = .next (orElse (exec (.patchServo 1 plain) (one idle)) (one idle)) ∧
      exec (.patchServo 1 plain) s = .next (orElse (exec (.patchServo 1 plain) s) s) :=
  ⟨start_booted _ _ _, by decide, rfl, rfl, ⟨by decide, rfl, rfl⟩, rfl, rfl, regWf_one _ rfl, regWf_one _ rfl, rfl, rfl⟩

/-- A state with an instance of another kind under id 1. -/
def foreign : State := start .poll [] [(1, ⟨.other 9, 1, idle⟩)]

theorem witness_PatchOfAnotherKindIsRejected :
    Booted foreign ∧ (1 : U8) ≠ 0 ∧ regGet foreign.reg 1 = some ⟨.other 9, 1, idle⟩ ∧ DeviceKind.other 9 ≠ .servo :=
  ⟨start_booted _ _ _, by decide, rfl, by decide⟩

theorem witness_PatchRunsTransientTargetOnce :
    let d : Device := ⟨9, "ONCE", 0, false, .other 9⟩
    let s := { start .poll [] [] with dev := bootDevices cfg ++ [d] }
    s.config.wf ∧ s.cmd = bootCommands s.config ∧ deviceAt s.dev 9 = some d ∧ d.runnable = false :=
  ⟨cfg_wf, rfl, by decide +kernel, rfl⟩

/-- The id 0, an empty slot, and an instance of another kind. -/
theorem witness_ActionRejectionsChangeNothing :
    ((0 : U8) = 0 ∨ regGet foreign.reg 0 = none) ∧ ((255 : U8) = 0 ∨ regGet foreign.reg 255 = none) ∧ (1 : U8) ≠ 0 ∧
      regGet foreign.reg 1 = some ⟨.other 9, 1, idle⟩ ∧ DeviceKind.other 9 ≠ .servo :=
  ⟨.inl rfl, .inr rfl, by decide, rfl, by decide⟩

theorem witness_ActionStartsMove :
    Booted (one idle) ∧ (1 : U8) ≠ 0 ∧ regGet (one idle).reg 1 = some ⟨.servo, 1, idle⟩ :=
  ⟨start_booted _ _ _, by decide, rfl⟩

/-- One message that is applied and one that is rejected. -/
theorem witness_AckExactlyWhenApplied :
    Booted (one idle) ∧ (∃ id angle, Instr.action 1 90 = .action id angle) ∧
      exec (.action 1 90) (one idle) = .next (orElse (exec (.action 1 90) (one idle)) (one idle)) ∧
      exec (.action 2 90) (one idle) = .next (orElse (exec (.action 2 90) (one idle)) (one idle)) :=
  ⟨start_booted _ _ _, ⟨1, 90, rfl⟩, rfl, rfl⟩

theorem witness_OtherInstancesUntouched :
    (1 : U8) ≠ 2 ∧ (∃ angle, Instr.action 2 90 = .action 2 angle) ∧
      exec (.action 2 90) (one idle) = .next (orElse (exec (.action 2 90) (one idle)) (one idle)) :=
  ⟨by decide, ⟨90, rfl⟩, rfl⟩

/-- A slot that is filled and one that is empty. -/
theorem witness_PatchTwiceKeepsRegistrySize :
    Booted (one idle) ∧ RegWf (one idle).reg ∧ (1 : U8) ≠ 0 ∧ (2 : U8) ≠ 0 ∧
      exec (.patchServo 1 plain) (one idle) = .next (orElse (exec (.patchServo 1 plain) (one idle)) (one idle)) ∧
      exec (.patchServo 2 plain) (one idle) = .next (orElse (exec (.patchServo 2 plain) (one idle)) (one idle)) ∧
      regGet (one idle).reg 2 = none :=
  ⟨start_booted _ _ _, regWf_one _ rfl, by decide, by decide, rfl, rfl, rfl⟩

/-! ### Witnesses: the motion controller -/

theorem witness_ConfigureWritesEveryRegister :
    (one idle).config.wf ∧ regGet (one idle).reg 1 = some ⟨.servo, 1, idle⟩ ∧ (255 : U8) ≠ 0 ∧
      regGet (one idle).reg 255 = none := ⟨cfg_wf, rfl, by decide, rfl⟩

theorem witness_SetTargetStartsMove :
    (one idle).config.wf ∧ regGet (one idle).reg 1 = some ⟨.servo, 1, idle⟩ ∧ regGet (one idle).reg 2 = none :=
  ⟨cfg_wf, rfl, rfl⟩

theorem witness_IdleTickWritesLastTickOnly :
    regGet (one idle).reg 1 = some ⟨.servo, 1, idle⟩ ∧ idle.phase = .idle := ⟨rfl, rfl⟩

/-- 1000 ms after the phase began, and 999 ms; across the wrap of the clock. -/
theorem witness_SettlingTickDetachesAfterDelay :
    let sv := { rested with phaseStartedAt := 0xFFFFFF9C }
    regGet (one sv).reg 1 = some ⟨.servo, 1, sv⟩ ∧ sv.phase = .settling ∧
      (one sv).config.settleDelayMs.toNat ≤ ((900 : U32).toNat + 2 ^ 32 - sv.phaseStartedAt.toNat) % 2 ^ 32 ∧
      ((899 : U32).toNat + 2 ^ 32 - sv.phaseStartedAt.toNat) % 2 ^ 32 < (one sv).config.settleDelayMs.toNat := by
  decide +kernel

/-- The time of a tick at clock `t`, and the position after it at a speed, as the statements about ticks name them. -/
def dtOf (sv : Servo) (t : U32) : F32 := (F32.ofNat ((t - sv.lastTick).toNat)).div (F32.ofNat 1000)

def movedTo (sv : Servo) (sp dt : F32) : F32 :=
  match sv.direction with
  | .plus => sv.current.add (sp.mul dt)
  | .minus => sv.current.sub (sp.mul dt)

/-- The hypotheses of `AcceleratingTick` on the servo `sv` under id 1. -/
def Accelerates (sv : Servo) (t : U32) (dt free sp p : F32) : Prop :=
  regGet (one sv).reg 1 = some ⟨.servo, 1, sv⟩ ∧ sv.phase = .accelerating ∧ sv.maxAcceleration ≠ 0 ∧ dt = dtOf sv t ∧
    free = sv.speed.add ((F32.ofNat sv.maxAcceleration.toNat).mul dt) ∧
    sp = (if sv.maxSpeed ≠ 0 ∧ (F32.ofNat sv.maxSpeed.toNat).lt free = true then F32.ofNat sv.maxSpeed.toNat else free) ∧
    p = movedTo sv sp dt

/-- The target reached exactly (with a clamped speed), the deceleration point reached exactly, and neither, with the clamp
and without it. -/
theorem witness_AcceleratingTick :
    let target := up .accelerating (pos 1400) (pos 1000)
    let braking := up .accelerating (pos 900) (pos 1000)
    let clamped := up .accelerating (pos 544) (pos 1000)
    let free := up .accelerating (pos 544) F32.zero
    (∃ dt fr sp p, Accelerates target 1000 dt fr sp p ∧ passed .plus p (pos 2400) = true) ∧
      (∃ dt fr sp p, Accelerates braking 1000 dt fr sp p ∧ passed .plus p (pos 2400) = false ∧
        passed .plus p braking.decelPoint = true) ∧
      (∃ dt fr sp p, Accelerates clamped 1000 dt fr sp p ∧ passed .plus p (pos 2400) = false ∧
        passed .plus p clamped.decelPoint = false ∧ (F32.ofNat clamped.maxSpeed.toNat).lt fr = true) ∧
      (∃ dt fr sp p, Accelerates free 1000 dt fr sp p ∧ passed .plus p (pos 2400) = false ∧
        passed .plus p free.decelPoint = false ∧ (F32.ofNat free.maxSpeed.toNat).lt fr = false) :=
  ⟨⟨_, _, _, _, ⟨rfl, rfl, by decide, rfl, rfl, rfl, rfl⟩, by decide +kernel⟩,
    ⟨_, _, _, _, ⟨rfl, rfl, by decide, rfl, rfl, rfl, rfl⟩, by decide +kernel, by decide +kernel⟩,
    ⟨_, _, _, _, ⟨rfl, rfl, by decide, rfl, rfl, rfl, rfl⟩, by decide +kernel, by decide +kernel, by decide +kernel⟩,
    ⟨_, _, _, _, ⟨rfl, rfl, by decide, rfl, rfl, rfl, rfl⟩, by decide +kernel, by decide +kernel, by decide +kernel⟩⟩

/-- The hypotheses of `CruisingTick` on the servo `sv` under id 1. -/
def Cruises (sv : Servo) (t : U32) (dt p : F32) : Prop :=
  regGet (one sv).reg 1 = some ⟨.servo, 1, sv⟩ ∧ sv.phase = .cruising ∧ dt = dtOf sv t ∧
    p = movedTo sv (F32.ofNat sv.maxSpeed.toNat) dt

/-- An unbounded speed, the target reached exactly, the deceleration point reached exactly, and neither. -/
theorem witness_CruisingTick :
    let jump := { up .cruising (pos 544) (pos 1000) with maxSpeed := 0 }
    let target := up .cruising (pos 1400) (pos 1000)
    let braking := up .cruising (pos 900) (pos 1000)
    let free := up .cruising (pos 544) (pos 1000)
    (∃ dt p, Cruises jump 1000 dt p ∧ jump.maxSpeed = 0) ∧
      (∃ dt p, Cruises target 1000 dt p ∧ target.maxSpeed ≠ 0 ∧ passed .plus p (pos 2400) = true) ∧
      (∃ dt p, Cruises braking 1000 dt p ∧ braking.maxSpeed ≠ 0 ∧ passed .plus p (pos 2400) = false ∧
        passed .plus p braking.decelPoint = true) ∧
      (∃ dt p, Cruises free 1000 dt p ∧ free.maxSpeed ≠ 0 ∧ passed .plus p (pos 2400) = false ∧
        passed .plus p free.decelPoint = false) :=
  ⟨⟨_, _, ⟨rfl, rfl, rfl, rfl⟩, rfl⟩, ⟨_, _, ⟨rfl, rfl, rfl, rfl⟩, by decide, by decide +kernel⟩,
    ⟨_, _, ⟨rfl, rfl, rfl, rfl⟩, by decide, by decide +kernel, by decide +kernel⟩,
    ⟨_, _, ⟨rfl, rfl, rfl, rfl⟩, by decide, by decide +kernel, by decide +kernel⟩⟩

/-- The hypotheses of `DeceleratingTick` on the servo `sv` under id 1. -/
def Decelerates (sv : Servo) (t : U32) (dt sp p : F32) : Prop :=
  regGet (one sv).reg 1 = some ⟨.servo, 1, sv⟩ ∧ sv.phase = .decelerating ∧ dt = dtOf sv t ∧
    sp = sv.speed.sub ((F32.ofNat sv.maxAcceleration.toNat).mul dt) ∧ p = movedTo sv sp dt

/-- An unbounded acceleration, a speed just below 0, the target reached exactly; and a speed of exactly 0 before it. -/
theorem witness_DeceleratingTick :
    let jump := { up .decelerating (pos 2150) (pos 500) with maxAcceleration := 0 }
    let sv := up .decelerating (pos 2150) (pos 500)
    let target := up .decelerating (pos 2275) (pos 500)
    (∃ dt sp p, Decelerates jump 500 dt sp p ∧ jump.maxAcceleration = 0) ∧
      (∃ dt sp p, Decelerates sv 501 dt sp p ∧ sp.lt F32.zero = true) ∧
      (∃ dt sp p, Decelerates target 250 dt sp p ∧ sp.lt F32.zero = false ∧ passed .plus p (pos 2400) = false) ∧
      (∃ dt sp p, Decelerates { target with current := half 4675 } 250 dt sp p ∧ passed .plus p (pos 2400) = true) ∧
      (∃ dt sp p, Decelerates sv 500 dt sp p ∧ sv.maxAcceleration ≠ 0 ∧ sp.lt F32.zero = false ∧
        passed .plus p (pos 2400) = false) :=
  ⟨⟨_, _, _, ⟨rfl, rfl, rfl, rfl, rfl⟩, rfl⟩, ⟨_, _, _, ⟨rfl, rfl, rfl, rfl, rfl⟩, by decide +kernel⟩,
    ⟨_, _, _, ⟨rfl, rfl, rfl, rfl, rfl⟩, by decide +kernel, by decide +kernel⟩,
    ⟨_, _, _, ⟨rfl, rfl, rfl, rfl, rfl⟩, by decide +kernel⟩,
    ⟨_, _, _, ⟨rfl, rfl, rfl, rfl, rfl⟩, by decide, by decide +kernel, by decide +kernel⟩⟩

/-- The invariant of a servo in each phase of the move of V32's first row, and at rest. -/
theorem servoInv_up : ServoInv cfg (up .accelerating (pos 544) F32.zero) ∧ ServoInv cfg (up .cruising (pos 1794) (pos 1000)) ∧
    ServoInv cfg (up .decelerating (pos 1900) (pos 1000)) ∧ ServoInv cfg rested ∧ ServoInv cfg idle := by
  refine ⟨?_, ?_, ?_, ?_, ?_⟩ <;> constructor <;> decide +kernel

theorem witness_TickPhaseTransitions :
    let s := one (up .cruising (pos 1794) (pos 1000))
    regGet s.reg 1 = some ⟨.servo, 1, up .cruising (pos 1794) (pos 1000)⟩ ∧
      exec (.tick 1 500) s = .next (orElse (exec (.tick 1 500) s) s) ∧
      (regGet (orElse (exec (.tick 1 500) s) s).reg 1).isSome = true := ⟨rfl, rfl, by decide +kernel⟩

theorem witness_TickNeverOvershoots :
    let sv := up .cruising (pos 1794) (pos 1000)
    let s := one sv
    regGet s.reg 1 = some ⟨.servo, 1, sv⟩ ∧ ServoInv s.config sv ∧ sv.moving = true ∧
      exec (.tick 1 500) s = .next (orElse (exec (.tick 1 500) s) s) ∧
      (regGet (orElse (exec (.tick 1 500) s) s).reg 1).isSome = true :=
  ⟨rfl, servoInv_up.2.1, rfl, rfl, by decide +kernel⟩

/-- A servo that settles and one that is idle. -/
theorem witness_SettledServoStaysAtTarget :
    (rested.phase = .settling ∨ rested.phase = .idle) ∧ rested.current = rested.goal ∧
      (idle.phase = .settling ∨ idle.phase = .idle) ∧ idle.current = idle.goal := by decide +kernel

/-- One below the low end and one above the high end of the range 10..170 (V7). -/
theorem witness_TargetIsClampedToBoundary :
    let sv := { rested with userMin := 10, userMax := 170 }
    let s := one sv
    s.config.wf ∧ regGet s.reg 1 = some ⟨.servo, 1, sv⟩ ∧ sv.userMin ≤ sv.userMax ∧ (9 : U16) < sv.userMin ∧
      sv.userMax < (171 : U16) ∧ exec (.setTarget 1 9 0) s = .next (orElse (exec (.setTarget 1 9 0) s) s) ∧
      (regGet (orElse (exec (.setTarget 1 9 0) s) s).reg 1).isSome = true :=
  ⟨cfg_wf, rfl, by decide, by decide, by decide, rfl, by decide +kernel⟩

/-- A range of one point, and the shortest that is not. -/
theorem witness_BoundedMapStaysInRange : 90 ≤ 90 ∧ 90 < 91 ∧ 544 ≤ 544 := by decide

theorem witness_DecelPointLiesAhead :
    let sv := up .cruising (pos 1794) (pos 1000)
    let s := one sv
    s.config.wf ∧ regGet s.reg 1 = some ⟨.servo, 1, sv⟩ ∧ ServoInv s.config sv ∧ sv.maxAcceleration ≠ 0 ∧
      exec (.setTarget 1 0 0) s = .next (orElse (exec (.setTarget 1 0 0) s) s) ∧
      (regGet (orElse (exec (.setTarget 1 0 0) s) s).reg 1).isSome = true :=
  ⟨cfg_wf, rfl, servoInv_up.2.1, by decide, rfl, by decide +kernel⟩

/-! ### Witnesses: binary32 -/

/-- A tie, the largest finite magnitude and the overflow past it. -/
theorem witness_RoundingIsNearestEven :
    0 < 1 ∧ F32.roundUnits (2 ^ 25 + 2) 1 < F32.infMag ∧
      F32.roundUnits (F32.magUnits (F32.infMag - 1)) 1 < F32.infMag ∧
      F32.roundUnits (F32.magUnits F32.infMag) 1 = F32.infMag := by decide +kernel

theorem witness_SumsRoundToNearest :
    (pos 544).isFinite = true ∧ (half 1).isFinite = true ∧ (half 1089).isFinite = true ∧
      ((pos 544).add (half 1)).isFinite = true ∧ (half 1089).units = (pos 544).units + (half 1).units := by decide +kernel

/-- Positions at both ends of `trunc`'s range, 0 and 65535.5, and just below 0; a divisor that is not 0. -/
theorem witness_ProductsQuotientsAndConversions :
    let low := F32.zero
    let high := half 131071
    let below := (half 1).neg
    low.isFinite = true ∧ 0 ≤ low.units ∧ low.units < (65536 * F32.one : Nat) ∧ low.units ≤ 0 ∧
      high.isFinite = true ∧ 0 ≤ high.units ∧ high.units < (65536 * F32.one : Nat) ∧
      below.isFinite = true ∧ -(F32.one : Int) < below.units ∧ below.units ≤ 0 ∧ below.units ≠ 0 := by decide +kernel

/-- R11, R219, by hand: one third in binary32, and the integer part at both ends of the range of `trunc`. -/
theorem test_div_trunc :
    (pos 1).div (pos 3) = ⟨0x3EAAAAAB⟩ ∧ (half 131071).trunc = 65535 ∧ (half 1).neg.trunc = 0 := by decide +kernel

/-! ### Witnesses: the whole machine -/

theorem inv_one {sv : Servo} (h : ServoInv cfg sv) (q : Seq) (hq : SeqInv (bootCommands cfg) q) :
    Inv (start q [] [(1, ⟨.servo, 1, sv⟩)]) where
  booted := start_booted _ _ _
  seq_ok := hq
  reg_ok := regWf_one _ rfl
  servo_ok := by
    intro e he
    rw [show (start q [] [(1, (⟨.servo, 1, sv⟩ : Instance))]).reg = [(1, ⟨.servo, 1, sv⟩)] from rfl,
      List.mem_singleton] at he
    subst he
    exact ⟨rfl, h⟩

theorem inv_patching : Inv patching where
  booted := start_booted _ _ _
  seq_ok := by
    refine ⟨?_, ?_, ?_⟩ <;> decide +kernel
  reg_ok := by decide
  servo_ok := by intro e he; cases he

theorem witness_RegistriesAreReadOnly : step patching = .next (stepped patching) := step_eq_stepped (by decide +kernel)

theorem witness_InstancesKeepIdentity :
    step (one idle) = .next (stepped (one idle)) ∧ regGet (one idle).reg 1 = some ⟨.servo, 1, idle⟩ :=
  ⟨step_eq_stepped (by decide +kernel), rfl⟩

theorem witness_OnlyPatchCreatesInstances :
    Inv patching ∧ step patching = .next (stepped patching) ∧ regGet patching.reg 1 = none ∧
      (regGet (stepped patching).reg 1).isSome = true :=
  ⟨inv_patching, step_eq_stepped (by decide +kernel), rfl, by decide +kernel⟩

/-- A step that sends a byte and one that sends none. -/
theorem witness_TransmitsOnlyAckAndHandshake :
    Inv patching ∧ step patching = .next (stepped patching) ∧ (stepped patching).tx = [0x02] ∧ Inv (one idle) ∧
      step (one idle) = .next (stepped (one idle)) ∧ (stepped (one idle)).tx = [] :=
  ⟨inv_patching, step_eq_stepped (by decide +kernel), by decide +kernel, inv_one servoInv_up.2.2.2.2 _ trivial,
    step_eq_stepped (by decide +kernel), by decide +kernel⟩

theorem witness_HistoryIsNeverRead : step patching = .next (stepped patching) := step_eq_stepped (by decide +kernel)

/-- A tick of an attached servo, and a `configure` that attaches first. -/
theorem witness_PulsesOnlyWhenAttached :
    let s := one (up .cruising (pos 544) (pos 1000))
    Inv s ∧ step s = .next (stepped s) ∧ (stepped s).requests = s.requests ++ [(1, .writePulse 551)] ∧
      [((1 : U8), Request.writePulse 551)] = [] ++ (1, .writePulse 551) :: [] ∧
      Inv patching ∧ step patching = .next (stepped patching) ∧
      (stepped patching).requests = patching.requests ++ ([(1, .attach 9)] ++ (1, .writePulse 1472) :: []) :=
  ⟨inv_one (by constructor <;> decide +kernel) _ trivial, step_eq_stepped (by decide +kernel), by decide +kernel, rfl,
    inv_patching, step_eq_stepped (by decide +kernel), by decide +kernel⟩

theorem witness_ResetState : cfg.wf := cfg_wf

/-- In both registries a code that has an entry, and one that has none. -/
theorem witness_FirstRegistrationWins :
    (∃ e ∈ bootCommands cfg, e.code = ackCommand.code) ∧
      (∀ e ∈ bootCommands cfg, e.code ≠ ({ ackCommand with code := 9 } : Command).code) ∧
      (∃ e ∈ bootDevices cfg, e.code = (servoDevice cfg).code) ∧
      (∀ e ∈ bootDevices cfg, e.code ≠ ({ servoDevice cfg with code := 9 } : Device).code) := by decide +kernel

theorem witness_InvariantHoldsAtReset : cfg.wf := cfg_wf

theorem witness_StepKeepsInvariant :
    let s := one (up .accelerating (pos 544) F32.zero)
    Inv s ∧ step s = .next (stepped s) ∧ Inv patching ∧ step patching = .next (stepped patching) :=
  ⟨inv_one servoInv_up.1 _ trivial, step_eq_stepped (by decide +kernel), inv_patching, step_eq_stepped (by decide +kernel)⟩

/-- Any bytes that the host sends first can stand in `RX`. -/
theorem reachable_rx (bytes : List U8) (moves : List Move) (tape : List U32) :
    Reachable { State.resetWith cfg with rx := bytes, agenda := moves, clockTape := tape } := by
  suffices h : ∀ (more done : List U8), Reachable { State.resetWith cfg with
      rx := done, agenda := more.map .append ++ moves, clockTape := tape } →
      Reachable { State.resetWith cfg with rx := done ++ more, agenda := moves, clockTape := tape } from
    h bytes [] (.reset cfg _ _ cfg_wf)
  intro more
  induction more with
  | nil => intro done h; simpa using h
  | cons b more ih =>
    intro done h
    have := ih (done ++ [b]) (.step _ _ h (by rw [step_eq_of_wf cfg_wf]; rfl))
    simpa using this

theorem reachable_stepped {s : State} (h : Reachable s)
    (h' : (match step s with | .next _ => true | _ => false) = true) : Reachable (stepped s) :=
  .step _ _ h (step_eq_stepped h')

/-- After a whole PATCH SERVO in `RX`, the fourth step has made the instance. -/
def patched : State :=
  stepped (stepped (stepped (stepped
    { State.resetWith cfg with rx := encode cfg (.patchServo 1 plain), agenda := [], clockTape := [0] })))

theorem witness_ReachableServosAreSound : Reachable patched ∧ patched.reg = [(1, ⟨.servo, 1, rested⟩)] :=
  ⟨reachable_stepped (reachable_stepped (reachable_stepped (reachable_stepped
      (reachable_rx (encode cfg (.patchServo 1 plain)) [] [0]) (by decide +kernel)) (by decide +kernel))
      (by decide +kernel)) (by decide +kernel), by decide +kernel⟩

end Sys2Proof.Tests
end

section
/-!
PROOFS. The statements of 00_scope.md sections 3 to 5: the binary32 operations round the exact result once, to nearest even
(R11, D10); the host's move (R7, R25); the refusal of an ill-formed configuration (R9).
-/

namespace Sys2Proof.F32

open Sys2Proof

/-! ### Rounding a magnitude -/

/-- Rounding as a choice between the two neighbours `k` and `k + 1` of the exact value: the comparison with their midpoint
decides, a tie goes to the even one, and infinity caps the result. -/
theorem roundUnits_neighbours (num den : Nat) (hd : 0 < den) :
    ∃ k k', roundUnits num den = Min.min k' infMag ∧
      den * magUnits k ≤ num ∧ num < den * magUnits (k + 1) ∧
      (2 * num < den * magUnits k + den * magUnits (k + 1) ∧ k' = k ∨
        2 * num = den * magUnits k + den * magUnits (k + 1) ∧ k' = k + k % 2 ∨
        den * magUnits k + den * magUnits (k + 1) < 2 * num ∧ k' = k + 1) := by
  obtain ⟨sh, q, q', hround, hq, hsh, hlo, hhi, hmid⟩ := roundUnits_form num den hd
  have below : den * magUnits (sh * 2 ^ 23 + q) = q * 2 ^ sh * den := by
    rw [magUnits_shift sh q hq.le hsh, Nat.mul_comm]
  have above : den * magUnits (sh * 2 ^ 23 + q + 1) = q * 2 ^ sh * den + 2 ^ sh * den := by
    rw [Nat.add_assoc, magUnits_shift sh (q + 1) hq (by omega)]; ring
  have hhi' : num < q * 2 ^ sh * den + 2 ^ sh * den := by rwa [Nat.add_mul, Nat.add_mul, Nat.one_mul] at hhi
  refine ⟨sh * 2 ^ 23 + q, sh * 2 ^ 23 + q', hround, ?_⟩
  rw [below, above]
  omega

/-- Of two neighbours `lo` and `hi` around `n`, the one on `n`'s side of their midpoint is nearer to `n` than anything not
between them; at the midpoint both are as near, and `even` says which was taken. -/
theorem nearest_of_midpoint {n lo hi r x : Nat} {even : Prop} (hlo : lo ≤ n) (hhi : n < hi) (hx : x ≤ lo ∨ hi ≤ x)
    (hxr : x ≠ r)
    (hr : 2 * n < lo + hi ∧ r = lo ∨ 2 * n = lo + hi ∧ (r = lo ∨ r = hi) ∧ even ∨ lo + hi < 2 * n ∧ r = hi) :
    |(n : Int) - r| < |(n : Int) - x| ∨ |(n : Int) - r| = |(n : Int) - x| ∧ even := by
  simp only [abs_eq_max_neg]
  rcases hr with ⟨hmid, rfl⟩ | ⟨hmid, hr, heven⟩ | ⟨hmid, rfl⟩
  · left; omega
  · simp only [heven, and_true]; omega
  · left; omega

/-- A finite rounded magnitude is nearer to the exact value than every other magnitude, or as near and even. -/
theorem roundUnits_nearest {num den : Nat} (hd : 0 < den) (hfin : roundUnits num den < infMag) {m : Nat}
    (hm : m ≠ roundUnits num den) :
    |(num : Int) - den * magUnits (roundUnits num den)| < |(num : Int) - den * magUnits m| ∨
      |(num : Int) - den * magUnits (roundUnits num den)| = |(num : Int) - den * magUnits m| ∧
        roundUnits num den % 2 = 0 := by
  obtain ⟨k, k', hround, hlo, hhi, hmid⟩ := roundUnits_neighbours num den hd
  have hk' : k' < infMag := (min_lt_iff.1 (hround ▸ hfin)).resolve_right (lt_irrefl _)
  rw [hround, min_eq_left hk'.le] at hm ⊢
  have mono : StrictMono fun i => den * magUnits i := magUnits_strictMono.const_mul hd
  have hside : den * magUnits m ≤ den * magUnits k ∨ den * magUnits (k + 1) ≤ den * magUnits m :=
    (le_or_gt m k).imp (mono.le_iff_le.2 ·) (mono.le_iff_le.2 ·)
  have hne : den * magUnits m ≠ den * magUnits k' := mono.injective.ne hm
  have key := nearest_of_midpoint (even := k' % 2 = 0) hlo hhi hside hne ?_
  · simpa only [Nat.cast_mul] using key
  · rcases hmid with ⟨hc, rfl⟩ | ⟨hc, rfl⟩ | ⟨hc, rfl⟩
    · exact .inl ⟨hc, rfl⟩
    · have hpar : k + k % 2 = k ∨ k + k % 2 = k + 1 := by omega
      exact .inr (.inl ⟨hc, hpar.imp (by rw [·]) (by rw [·]), by omega⟩)
    · exact .inr (.inr ⟨hc, rfl⟩)

/-- Rounding overflows exactly from the midpoint of the largest finite magnitude and infinity on. -/
theorem roundUnits_eq_infMag_iff {num den : Nat} (hd : 0 < den) :
    roundUnits num den = infMag ↔ den * (magUnits (infMag - 1) + magUnits infMag) ≤ 2 * num := by
  obtain ⟨k, k', hround, hlo, hhi, hmid⟩ := roundUnits_neighbours num den hd
  have mono : StrictMono fun i => den * magUnits i := magUnits_strictMono.const_mul hd
  have hinf : infMag - 1 + 1 = infMag := rfl
  have hodd : (infMag - 1) % 2 = 1 := rfl
  have hmax : den * magUnits (infMag - 1) < den * magUnits infMag := mono (by decide)
  rw [hround, min_eq_right_iff, Nat.mul_add]
  rcases Nat.lt_trichotomy k (infMag - 1) with hk | rfl | hk
  · have : den * magUnits (k + 1) ≤ den * magUnits (infMag - 1) := mono.le_iff_le.2 hk
    omega
  · rw [hinf] at hmid
    omega
  · have : den * magUnits infMag ≤ den * magUnits k := mono.le_iff_le.2 (by omega)
    omega

/-! ### Rounding a signed value -/

/-- The sign bit of a value other than 0 is the sign of its units. -/
theorem isNeg_eq_of_units_ne_zero {x : F32} (h : x.units ≠ 0) : x.isNeg = decide (x.units < 0) := by
  unfold units at h ⊢
  cases hx : x.isNeg <;> simp only [hx, Bool.false_eq_true, if_false, if_true] at h ⊢ <;> symm
  · simp
  · simp; omega

/-- `roundUnits_nearest` against values of either sign: one below 0 is no nearer than 0 is. -/
theorem roundUnits_nearest_signed {n den m : Nat} {v : Int} (hd : 0 < den) (hfin : roundUnits n den < infMag)
    (hv : v.natAbs = magUnits m) (hne : v ≠ magUnits (roundUnits n den)) :
    |(n : Int) - den * magUnits (roundUnits n den)| < |n - den * v| ∨
      |(n : Int) - den * magUnits (roundUnits n den)| = |n - den * v| ∧ roundUnits n den % 2 = 0 := by
  rcases Int.natAbs_eq v with hpos | hneg
  · rw [hv] at hpos
    subst hpos
    exact roundUnits_nearest hd hfin fun h => hne (by rw [h])
  · rw [hv] at hneg
    have hdist : |(n : Int) - den * v| = n + (den * magUnits m : Nat) := by
      rw [hneg, abs_of_nonneg] <;> push_cast
      · ring
      · rw [mul_neg, sub_neg_eq_add]; positivity
    rw [hdist]
    by_cases hr : roundUnits n den = 0
    · have hm : 0 < den * magUnits m := by
        refine Nat.mul_pos hd (Nat.pos_of_ne_zero fun h0 => hne ?_)
        rw [hneg, h0, hr]; simp
      left; rw [hr, magUnits_zero, Nat.cast_zero, mul_zero, sub_zero, Nat.abs_cast]; omega
    · have hzero := roundUnits_nearest hd hfin (Ne.symm hr)
      rw [magUnits_zero, Nat.cast_zero, mul_zero, sub_zero, Nat.abs_cast] at hzero
      have hx : (0 : Int) ≤ (den * magUnits m : Nat) := Int.natCast_nonneg _
      rcases hzero with hlt | ⟨heq, heven⟩
      · left; omega
      · rcases hx.lt_or_eq with h0 | h0
        · left; omega
        · right; exact ⟨by omega, heven⟩

/-- A sign bit that agrees with a value other than 0 gives the value back from its size. -/
theorem eq_signed_natAbs {num : Int} {neg : Bool} (hneg : num ≠ 0 → neg = decide (num < 0)) :
    num = if neg then -(num.natAbs : Int) else num.natAbs := by
  by_cases h0 : num = 0
  · simp [h0]
  · rw [hneg h0]
    simp only [decide_eq_true_eq]
    split <;> omega

/-- A packed finite rounded magnitude is nearer to the exact value of its sign than every other finite value, or as near
and even. -/
theorem pack_roundUnits_nearest {num : Int} {n den : Nat} {neg : Bool} {z : F32} (hd : 0 < den)
    (hnum : num = if neg then -(n : Int) else n) (hfin : roundUnits n den < infMag)
    (hne : z.units ≠ (pack neg (roundUnits n den)).units) :
    |num - den * (pack neg (roundUnits n den)).units| < |num - den * z.units| ∨
      |num - den * (pack neg (roundUnits n den)).units| = |num - den * z.units| ∧ roundUnits n den % 2 = 0 := by
  have hz := natAbs_units z
  rw [units_pack neg (hfin.trans infMag_lt)] at hne ⊢
  subst hnum
  cases neg with
  | false => exact roundUnits_nearest_signed hd hfin hz hne
  | true =>
    have flip (a : Int) : |-(n : Int) - den * a| = |n - den * -a| := by rw [← abs_neg]; congr 1; ring
    simp only [if_true] at hne ⊢
    rw [flip, flip, neg_neg]
    exact roundUnits_nearest_signed hd hfin (by rw [Int.natAbs_neg, hz]) fun h => hne (by rw [← h, neg_neg])

/-- Rounding the size of an exact value and giving the result the sign of that value rounds it once, to nearest even. -/
theorem isNearest_pack {num : Int} {den : Nat} {neg : Bool} (hd : 0 < den) (hneg : num ≠ 0 → neg = decide (num < 0)) :
    (pack neg (roundUnits num.natAbs den)).IsNearest num den := by
  have hle := roundUnits_le_inf num.natAbs den
  have hlt : roundUnits num.natAbs den < 2 ^ 31 := hle.trans_lt infMag_lt
  refine ⟨isNaN_pack neg hle, fun hfin z _ hne => ?_, ?_, fun h => by rw [isNeg_pack neg hlt, hneg h]⟩
  · rw [isFinite_iff, mag_pack neg hlt] at hfin
    rw [mag_pack neg hlt]
    exact pack_roundUnits_nearest hd (eq_signed_natAbs hneg) hfin hne
  · have habs : ((den * (magUnits (infMag - 1) + magUnits infMag) : Nat) : Int) ≤ 2 * |num| ↔
        den * (magUnits (infMag - 1) + magUnits infMag) ≤ 2 * num.natAbs := by
      rw [Int.abs_eq_natAbs]; exact_mod_cast Iff.rfl
    rw [habs, ← roundUnits_eq_infMag_iff hd, ← Bool.not_eq_true, isFinite_iff, mag_pack neg hlt, not_lt]
    exact ⟨hle.antisymm, Eq.ge⟩

/-! ### The operations (R11) -/

/-- A finite sum as one packed rounding; an exact zero may have either sign. -/
theorem add_eq_pack {x y : F32} (hx : x.isFinite = true) (hy : y.isFinite = true) :
    ∃ neg, (x.units + y.units ≠ 0 → neg = decide (x.units + y.units < 0)) ∧
      x.add y = pack neg (roundUnits (x.units + y.units).natAbs 1) := by
  simp only [add, not_isNaN_of_isFinite hx, not_isNaN_of_isFinite hy, not_isInf_of_isFinite hx,
    not_isInf_of_isFinite hy, Bool.or_self, Bool.false_eq_true, if_false]
  split
  · next h0 => exact ⟨x.isNeg && y.isNeg, fun h => absurd h0 h, by rw [h0]; rfl⟩
  · exact ⟨_, fun _ => rfl, rfl⟩

theorem add_isNearest {x y : F32} (hx : x.isFinite = true) (hy : y.isFinite = true) :
    (x.add y).IsNearest (x.units + y.units) 1 := by
  obtain ⟨neg, hneg, hadd⟩ := add_eq_pack hx hy
  rw [hadd]
  exact isNearest_pack Nat.one_pos hneg

theorem sub_isNearest {x y : F32} (hx : x.isFinite = true) (hy : y.isFinite = true) :
    (x.sub y).IsNearest (x.units - y.units) 1 := by
  rw [sub_eq_add_neg (not_isNaN_of_isFinite hy), Int.sub_eq_add_neg, ← units_neg]
  exact add_isNearest hx (by rwa [isFinite_neg])

/-- A finite rounded value is at least as near to the exact one as any finite value. -/
theorem IsNearest.abs_sub_le {r z : F32} {num : Int} {den : Nat} (h : r.IsNearest num den) (hr : r.isFinite = true)
    (hz : z.isFinite = true) : |num - den * r.units| ≤ |num - den * z.units| := by
  obtain ⟨-, hnear, -⟩ := h
  by_cases he : z.units = r.units
  · rw [he]
  · exact (hnear hr z hz he).elim Int.le_of_lt fun htie => htie.1.le

/-- An exact value that is representable is the rounded one. -/
theorem IsNearest.units_eq {r z : F32} {num : Int} (h : r.IsNearest num 1) (hr : r.isFinite = true)
    (hz : z.isFinite = true) (he : z.units = num) : r.units = z.units := by
  have hle := h.abs_sub_le hr hz
  rw [he, Nat.cast_one, one_mul, one_mul, sub_self, abs_zero, abs_nonpos_iff] at hle
  omega

theorem ofNat_isNearest (n : Nat) : (ofNat n).IsNearest (n * one : Nat) 1 := by
  rw [ofNat_eq]
  exact isNearest_pack (num := (n * one : Nat)) Nat.one_pos fun _ =>
    (decide_eq_false (not_lt.2 (Int.natCast_nonneg _))).symm

/-- The sign of a product of two factors other than 0. -/
theorem decide_mul_neg {a b : Int} (ha : a ≠ 0) (hb : b ≠ 0) :
    (decide (a < 0) != decide (b < 0)) = decide (a * b < 0) := by
  rcases lt_or_gt_of_ne ha with ha | ha <;> rcases lt_or_gt_of_ne hb with hb | hb
  · simp [ha, hb, (mul_pos_of_neg_of_neg ha hb).not_gt]
  · simp [ha, hb.not_gt, mul_neg_of_neg_of_pos ha hb]
  · simp [ha.not_gt, hb, mul_neg_of_pos_of_neg ha hb]
  · simp [ha.not_gt, hb.not_gt, (mul_pos ha hb).not_gt]

theorem mul_isNearest {x y : F32} (hx : x.isFinite = true) (hy : y.isFinite = true) :
    (x.mul y).IsNearest (x.units * y.units) one := by
  rw [mul_finite hx hy, ← natAbs_units x, ← natAbs_units y, ← Int.natAbs_mul]
  refine isNearest_pack one_pos' fun h => ?_
  obtain ⟨hx0, hy0⟩ := mul_ne_zero_iff.1 h
  rw [isNeg_eq_of_units_ne_zero hx0, isNeg_eq_of_units_ne_zero hy0, decide_mul_neg hx0 hy0]

theorem div_isNearest {x y : F32} (hx : x.isFinite = true) (hy : y.isFinite = true) (hy0 : y.units ≠ 0) :
    (x.div y).IsNearest (x.units * one * y.units.sign) y.units.natAbs := by
  have hmag : y.mag ≠ 0 := fun h => hy0 (by rw [← Int.natAbs_eq_zero, natAbs_units, h, magUnits_zero])
  have hnum : (x.units * one * y.units.sign).natAbs = magUnits x.mag * one := by
    rw [Int.natAbs_mul, Int.natAbs_mul, natAbs_units, Int.natAbs_natCast, Int.natAbs_sign_of_ne_zero hy0, Nat.mul_one]
  rw [div_finite hx hy hmag, ← hnum, ← natAbs_units y]
  refine isNearest_pack (Int.natAbs_pos.2 hy0) fun h => ?_
  obtain ⟨hx1, hs0⟩ := mul_ne_zero_iff.1 h
  have hx0 := (mul_ne_zero_iff.1 hx1).1
  have hscale : x.units * one < 0 ↔ x.units < 0 := by
    have hone : (0 : Int) < one := Int.natCast_pos.2 one_pos'
    exact ⟨fun h => neg_of_mul_neg_left h hone.le, fun h => mul_neg_of_neg_of_pos h hone⟩
  rw [isNeg_eq_of_units_ne_zero hx0, isNeg_eq_of_units_ne_zero hy0, ← decide_mul_neg hx1 hs0]
  simp only [hscale, Int.sign_neg_iff]

theorem units_min {x y : F32} (hx : x.isNaN = false) (hy : y.isNaN = false) :
    (x.min y).units = Min.min x.units y.units := by
  by_cases h : y.units < x.units
  · rw [F32.min, if_pos (lt_iff.2 ⟨hy, hx, h⟩), min_eq_right h.le]
  · rw [F32.min, if_neg fun hl => h (lt_iff.1 hl).2.2, min_eq_left (not_lt.1 h)]

/-! ### The integer part (R11, R219) -/

theorem truncInt_eq_tdiv (x : F32) : x.truncInt = x.units.tdiv one := by
  unfold truncInt units
  split
  · rw [Int.neg_tdiv]; rfl
  · rfl

/-- `trunc` of a finite value whose integer part is a u16. -/
theorem toNat_trunc {x : F32} {k : Nat} (hx : x.isFinite = true) (hk : x.units.tdiv one = k) (hlt : k < 65536) :
    x.trunc.toNat = k := by
  rw [← truncInt_eq_tdiv] at hk
  rw [trunc, if_pos ⟨hx, by omega, by omega⟩, hk, BitVec.ofInt_natCast, BitVec.toNat_ofNat]
  exact Nat.mod_eq_of_lt hlt

theorem trunc_of_nonneg {x : F32} (hx : x.isFinite = true) (h0 : 0 ≤ x.units)
    (hlt : x.units < (65536 * one : Nat)) :
    (x.trunc.toNat * one : Nat) ≤ x.units ∧ x.units < ((x.trunc.toNat + 1) * one : Nat) := by
  obtain ⟨u, hu⟩ := Int.eq_ofNat_of_zero_le h0
  rw [hu, Int.ofNat_lt] at hlt
  rw [toNat_trunc (k := u / one) hx (by rw [hu]; rfl) (Nat.div_lt_of_lt_mul (by rwa [Nat.mul_comm])), hu,
    Int.ofNat_le, Int.ofNat_lt]
  exact ⟨Nat.div_mul_le_self u one, by rw [Nat.mul_comm]; exact Nat.lt_mul_div_succ u one_pos'⟩

theorem trunc_eq_zero {x : F32} (hx : x.isFinite = true) (hlo : -(one : Int) < x.units) (hhi : x.units ≤ 0) :
    x.trunc = 0 := by
  have hdiv : x.units.tdiv one = (0 : Nat) := by
    rw [← neg_neg x.units, Int.neg_tdiv, Int.tdiv_eq_zero_of_lt (by omega) (by omega)]; rfl
  exact BitVec.eq_of_toNat_eq (toNat_trunc hx hdiv (by omega))

end Sys2Proof.F32

namespace Sys2Proof.Machine

open Sys2Proof

/-- Settles O47: the rounded magnitude is chosen between the two neighbours of the exact value by their midpoint. -/
theorem roundingIsNearestEven : Obligations.RoundingIsNearestEven :=
  fun _ _ hd => ⟨fun hfin _ hm _ => F32.roundUnits_nearest hd hfin hm, F32.roundUnits_eq_infMag_iff hd⟩

/-- Settles O48: a sum packs the rounded size of the exact sum, and a difference is the sum with the sign changed. -/
theorem sumsRoundToNearest : Obligations.SumsRoundToNearest := by
  intro x y hx hy
  have hadd := F32.add_isNearest hx hy
  refine ⟨hadd, F32.sub_isNearest hx hy, fun z hz hfin => ⟨?_, hadd.units_eq hfin hz⟩⟩
  simpa using hadd.abs_sub_le hfin hz

/-- Settles O49: each operation packs the rounded size of its exact result under that result's sign; `trunc` divides the
units by those of 1. -/
theorem productsQuotientsAndConversions : Obligations.ProductsQuotientsAndConversions := by
  refine ⟨F32.ofNat_isNearest, fun x hx => ?_, fun x y hx hy => ?_⟩
  · exact ⟨F32.units_neg x, by rw [F32.units_abs, Int.abs_eq_natAbs], F32.trunc_of_nonneg hx, F32.trunc_eq_zero hx⟩
  · have hxn := F32.not_isNaN_of_isFinite hx
    have hyn := F32.not_isNaN_of_isFinite hy
    refine ⟨F32.mul_isNearest hx hy, F32.div_isNearest hx hy, F32.units_min hxn hyn, ?_, ?_⟩
    · simp [F32.lt_iff, hxn, hyn]
    · simp [F32.le_iff, hxn, hyn]

/-! ### The machine's step -/

/-- Settles O12: the host move of a step under a well-formed configuration. -/
theorem hostAppendsOneByte : Obligations.HostAppendsOneByte := by
  intro s b moves hwf hagenda
  rw [step_eq_of_wf hwf, hagenda]
  rfl

/-- A step under a configuration that is not well formed is the refusal (R9, R274). -/
theorem step_of_not_wf {s : State} (h : ¬ s.config.wf) : step s = .refused .illFormedConfiguration := if_neg h

/-- Settles O14: each way to be ill formed contradicts one part of `Config.wf`. -/
theorem illFormedConfigurationIsRefused : Obligations.IllFormedConfigurationIsRefused := by
  intro s hbad
  refine step_of_not_wf fun hwf => ?_
  have hcode (x : U8) (hx : x ∈ s.config.codes) : ¬ (x = 0 ∨ x = 10 ∨ x = 35) := by
    simpa [Config.fixedReserved] using code_not_fixedReserved hwf hx
  have hpulse := minPulse_le_maxPulse hwf
  obtain ⟨hnodup, hreserved, -, hpayload, hidMin, hidMax, hcapacity, hcfgSize, haction, hrx, hclock, hfixed⟩ := hwf
  rcases hbad with h | ⟨x, hx, h⟩ | ⟨x, hx, h⟩ | h | h
  · exact h hnodup
  · exact hreserved x hx h
  · exact hcode x hx h
  · exact h.not_ge hpulse
  · have h0 : 0 ∈ s.config.reservedCodes := hfixed 0 (by decide)
    have h10 : 10 ∈ s.config.reservedCodes := hfixed 10 (by decide)
    have h35 : 35 ∈ s.config.reservedCodes := hfixed 35 (by decide)
    simp only [hpayload, hidMin, hidMax, hcapacity, hcfgSize, haction, hrx, hclock, h0, h10, h35, ne_eq, not_true_eq_false,
      or_self] at h

end Sys2Proof.Machine
end

section
/-!
PROOFS. The invariant of one servo (10_state.md R45): what keeps it in `configure`, `set_target` and each outcome of a tick
(42_motion.md R220 to R230, R233, R234).
-/

namespace Sys2Proof.Machine

open Sys2Proof

/-! ### Positions between two points -/

/-- A position onward of one point and not past another lies in every range that holds both. -/
theorem le_and_le_of_passed {d : Direction} {p a b lo hi : F32} (hpa : passed d p a = true) (hbp : passed d b p = true)
    (ha : lo.le a = true ∧ a.le hi = true) (hb : lo.le b = true ∧ b.le hi = true) : lo.le p = true ∧ p.le hi = true := by
  cases d with
  | minus => exact ⟨F32.le_trans hb.1 hbp, F32.le_trans hpa ha.2⟩
  | plus => exact ⟨F32.le_trans ha.1 hpa, F32.le_trans hbp hb.2⟩

/-- A position lies between the pulse limits (R45(b)). -/
def InPulseRange (c : Config) (x : F32) : Prop :=
  (F32.ofNat c.minPulse.toNat).le x = true ∧ x.le (F32.ofNat c.maxPulse.toNat) = true

theorem InPulseRange.isFinite {c : Config} {x : F32} (h : InPulseRange c x) : x.isFinite = true :=
  isFinite_of_pulse_range h.1 h.2

/-- Two positions between the pulse limits are so near that half their distance does not overflow (R213, R223). -/
theorem InPulseRange.two_mul_dist_lt {c : Config} {x y : F32} (hx : InPulseRange c x) (hy : InPulseRange c y) :
    2 * (x.units - y.units).natAbs < F32.magUnits F32.infMag := by
  obtain ⟨-, -, hxlo⟩ := F32.le_iff.1 hx.1
  obtain ⟨-, -, hxhi⟩ := F32.le_iff.1 hx.2
  obtain ⟨-, -, hylo⟩ := F32.le_iff.1 hy.1
  obtain ⟨-, -, hyhi⟩ := F32.le_iff.1 hy.2
  have hmin := F32.units_ofNat_nonneg c.minPulse.toNat
  have hlimit := c.maxPulse.isLt
  have hmax : (F32.ofNat c.maxPulse.toNat).units = ((c.maxPulse.toNat * F32.one : Nat) : Int) :=
    F32.units_ofNat (by omega)
  have hbound : c.maxPulse.toNat * F32.one ≤ 2 ^ 16 * F32.one := Nat.mul_le_mul_right _ hlimit.le
  have hroom : 2 * (2 ^ 16 * F32.one) < F32.magUnits F32.infMag := by decide
  omega

/-! ### The deceleration point -/

/-- The distance that R223 takes off the target: half the way, or the braking distance where that is shorter. -/
def brakingOffset (s : Servo) : F32 :=
  let half := ((s.goal.sub s.current).abs).div (F32.ofNat 2)
  if s.maxSpeed = 0 then half
  else half.min ((s.speedBound.mul s.speedBound).div ((F32.ofNat 2).mul s.accel))

theorem decelPointOf_eq (s : Servo) :
    decelPointOf s =
      match s.direction with
      | .plus => s.goal.sub (brakingOffset s)
      | .minus => s.goal.add (brakingOffset s) := rfl

/-- The offset of the deceleration point is finite, not below zero, and no longer than the way to the target. -/
theorem brakingOffset_ok {c : Config} {s : Servo} (hcur : InPulseRange c s.current) (hgoal : InPulseRange c s.goal)
    (hA : s.maxAcceleration ≠ 0) :
    (brakingOffset s).isFinite = true ∧ 0 ≤ (brakingOffset s).units ∧
      (brakingOffset s).units ≤ (s.goal.units - s.current.units).natAbs := by
  obtain ⟨hfin, hnonneg, hle⟩ := half_distance_ok hgoal.isFinite hcur.isFinite (hgoal.two_mul_dist_lt hcur)
  obtain ⟨hbn, hb0⟩ := braking_distance_ok s hA
  simp only [brakingOffset]
  split
  · exact ⟨hfin, hnonneg, hle⟩
  · have hmin := F32.units_min (F32.not_isNaN_of_isFinite hfin) hbn
    refine ⟨F32.isFinite_of_nonneg_le ?_ hfin ?_, ?_, ?_⟩ <;> omega

/-- The deceleration point of a move with bounded acceleration lies between its start and its target (R233). -/
theorem decelPointOf_between {c : Config} {s : Servo} (hcur : InPulseRange c s.current) (hgoal : InPulseRange c s.goal)
    (hA : s.maxAcceleration ≠ 0) (hahead : passed s.direction s.goal s.current = true) :
    passed s.direction (decelPointOf s) s.current = true ∧ passed s.direction s.goal (decelPointOf s) = true := by
  obtain ⟨hfin, hnonneg, hle⟩ := brakingOffset_ok hcur hgoal hA
  have hnan := F32.not_isNaN_of_isFinite hfin
  rw [decelPointOf_eq]
  cases hd : s.direction with
  | plus =>
    rw [hd] at hahead
    obtain ⟨-, -, hway⟩ := F32.le_iff.1 hahead
    refine ⟨?_, F32.sub_le_left hgoal.isFinite hnan hnonneg⟩
    change s.current.le (s.goal.sub _) = true
    rw [F32.sub_eq_add_neg hnan]
    exact F32.le_add_of hgoal.isFinite (by rwa [F32.isFinite_neg]) hcur.isFinite (by rw [F32.units_neg]; omega)
  | minus =>
    rw [hd] at hahead
    obtain ⟨-, -, hway⟩ := F32.le_iff.1 hahead
    exact ⟨F32.add_le_of hgoal.isFinite hfin hcur.isFinite (by omega), F32.le_add_right hgoal.isFinite hnan hnonneg⟩

/-! ### What the invariant of a servo says -/

theorem moving_iff {s : Servo} :
    s.moving = true ↔ s.phase = .accelerating ∨ s.phase = .cruising ∨ s.phase = .decelerating := by
  simp [Servo.moving, or_assoc]

theorem inPulseRange_goal {c : Config} {s : Servo} (hlo : c.minPulse ≤ s.target) (hhi : s.target ≤ c.maxPulse) :
    InPulseRange c s.goal :=
  ⟨le_ofNat_u16 hlo, le_ofNat_u16 hhi⟩

section

variable {c : Config} {s : Servo}

theorem ServoInv.current_range (h : ServoInv c s) : InPulseRange c s.current := ⟨h.current_low, h.current_high⟩

theorem ServoInv.current_finite (h : ServoInv c s) : s.current.isFinite = true := h.current_range.isFinite

theorem ServoInv.goal_range (h : ServoInv c s) : InPulseRange c s.goal := inPulseRange_goal h.target_low h.target_high

theorem ServoInv.attached_of_moving (h : ServoInv c s) (hm : s.moving = true) : s.attached = true := by
  by_contra hdetached
  have hidle : s.phase = .idle := h.idle_iff_detached.2 (by simpa using hdetached)
  simp [Servo.moving, hidle] at hm

/-- Nothing in the invariant of a servo is about `last_tick`. -/
theorem ServoInv.with_lastTick (h : ServoInv c s) (t : U32) : ServoInv c { s with lastTick := t } := { h with }

/-! ### `configure` and `set_target` keep the invariant of a servo -/

/-- A servo at rest at its target, between the limits, meets the invariant, whatever its other registers hold. -/
theorem servoInv_of_at_rest (htarget : c.minPulse ≤ s.target ∧ s.target ≤ c.maxPulse)
    (hdefault : c.minPulse ≤ s.defaultPos ∧ s.defaultPos ≤ c.maxPulse) (hphase : s.phase = .settling)
    (hattached : s.attached = true) (hcurrent : s.current = s.goal) (hspeed : s.speed = F32.zero) : ServoInv c s where
  idle_iff_detached := by simp [hphase, hattached]
  current_low := hcurrent ▸ (inPulseRange_goal htarget.1 htarget.2).1
  current_high := hcurrent ▸ (inPulseRange_goal htarget.1 htarget.2).2
  target_low := htarget.1
  target_high := htarget.2
  default_low := hdefault.1
  default_high := hdefault.2
  not_past_target := by simp [Servo.moving, hphase]
  at_rest _ := hcurrent
  speed_finite := hspeed ▸ isFinite_zero
  speed_nonneg := by rw [hspeed]; exact F32.le_refl isNaN_zero
  decel_ahead := by simp [hphase]
  decel_unbounded := by simp [hphase]
  accel_bounded := by simp [hphase]

/-- `configure` leaves a servo at rest at its default position, whatever it was (R220). -/
theorem servoInv_configureServo (hc : c.wf) (s : Servo) (cfg : ServoConfig) (t : U32) :
    ServoInv c (configureServo c s cfg t).servo :=
  servoInv_of_at_rest (toPulse_range hc _ _) (toPulse_range hc _ _) rfl rfl rfl rfl

/-- A servo as `set_target` turns it to its new target (R222), before a phase is chosen. -/
def turnedServo (c : Config) (s : Servo) (angle : U16) (t : U32) : Servo :=
  { s with
    attached := true
    actPin := if s.attached then s.actPin else s.pin
    target := targetOf c s angle
    phaseStartedAt := t
    lastTick := t
    direction := directionTo (F32.ofNat (targetOf c s angle).toNat) s.current }

/-- A servo is attached to its pin before it moves, unless it is attached already (R222, D25). -/
theorem start_reattach_eq (s : Servo) :
    (Acted.start s).reattach =
      ⟨{ s with attached := true, actPin := if s.attached then s.actPin else s.pin },
        if s.attached then [] else [.attach s.pin]⟩ := by
  unfold Acted.reattach
  cases hatt : s.attached with
  | false => simp [Acted.start, Acted.attach, hatt]
  | true => cases s; simp_all [Acted.start]

/-- `set_target` turns the servo and starts it at full speed, or from rest where its acceleration is bounded (R222). -/
theorem setTargetServo_servo (c : Config) (s : Servo) (angle : U16) (t : U32) :
    (setTargetServo c s angle t).servo =
      if s.maxAcceleration = 0 then
        { turnedServo c s angle t with
          phase := .cruising, speed := s.speedBound, decelPoint := (turnedServo c s angle t).goal }
      else
        { turnedServo c s angle t with
          phase := .accelerating, speed := F32.zero, decelPoint := decelPointOf (turnedServo c s angle t) } := by
  simp only [setTargetServo, start_reattach_eq]
  split <;> rfl

/-- A servo that sets out on a move meets the invariant when its deceleration point lies between its position and its
target. -/
theorem servoInv_of_setting_out (hphase : s.phase = .accelerating ∧ s.maxAcceleration ≠ 0 ∨
      s.phase = .cruising ∧ (s.maxAcceleration = 0 → s.decelPoint = s.goal))
    (hattached : s.attached = true) (hcurrent : InPulseRange c s.current)
    (htarget : c.minPulse ≤ s.target ∧ s.target ≤ c.maxPulse)
    (hdefault : c.minPulse ≤ s.defaultPos ∧ s.defaultPos ≤ c.maxPulse)
    (hspeed : s.speed.isFinite = true ∧ F32.zero.le s.speed = true)
    (hdecel : passed s.direction s.decelPoint s.current = true ∧ passed s.direction s.goal s.decelPoint = true) :
    ServoInv c s where
  idle_iff_detached := by rcases hphase with ⟨hp, -⟩ | ⟨hp, -⟩ <;> simp [hp, hattached]
  current_low := hcurrent.1
  current_high := hcurrent.2
  target_low := htarget.1
  target_high := htarget.2
  default_low := hdefault.1
  default_high := hdefault.2
  not_past_target _ := passed_trans hdecel.2 hdecel.1
  at_rest := by rcases hphase with ⟨hp, -⟩ | ⟨hp, -⟩ <;> simp [hp]
  speed_finite := hspeed.1
  speed_nonneg := hspeed.2
  decel_ahead _ := hdecel
  decel_unbounded := by rcases hphase with ⟨hp, -⟩ | ⟨hp, hdp⟩ <;> simp_all
  accel_bounded := by rcases hphase with ⟨hp, hA⟩ | ⟨hp, -⟩ <;> simp_all

/-- `set_target` points the servo at its new target from where it stands, and starts a sound move (R222, R223). -/
theorem ServoInv.after_setTarget (hc : c.wf) (h : ServoInv c s) (angle : U16) (t : U32) :
    ServoInv c (setTargetServo c s angle t).servo := by
  have htarget : c.minPulse ≤ targetOf c s angle ∧ targetOf c s angle ≤ c.maxPulse := by
    rw [targetOf_eq]; exact toPulse_range hc s _
  have hdefault := And.intro h.default_low h.default_high
  have hgoal : InPulseRange c (turnedServo c s angle t).goal := inPulseRange_goal htarget.1 htarget.2
  have hahead : passed (turnedServo c s angle t).direction (turnedServo c s angle t).goal s.current = true :=
    passed_directionTo (F32.isNaN_ofNat _) (F32.not_isNaN_of_isFinite h.current_finite)
  rw [setTargetServo_servo]
  split
  · have hspeed : s.speedBound.isFinite = true ∧ F32.zero.le s.speedBound = true :=
      ⟨isFinite_ofNat_u16 _, zero_le_iff.2 ⟨F32.isNaN_ofNat _, F32.units_ofNat_nonneg _⟩⟩
    exact servoInv_of_setting_out (.inr ⟨rfl, fun _ => rfl⟩) rfl h.current_range htarget hdefault hspeed
      ⟨hahead, passed_refl _ (isNaN_goal _)⟩
  · next hA =>
    exact servoInv_of_setting_out (.inl ⟨rfl, hA⟩) rfl h.current_range htarget hdefault
      ⟨isFinite_zero, F32.le_refl isNaN_zero⟩
      (decelPointOf_between (s := turnedServo c s angle t) h.current_range hgoal hA hahead)

/-! ### What a tick of a moving servo comes to -/

/-- A position onward of the servo's own and not past its target, nor past its deceleration point before it decelerates,
with a speed to go on at (R227 to R229, R234). -/
structure WithinMove (s : Servo) (p sp : F32) : Prop where
  onward : passed s.direction p s.current = true
  not_past_goal : passed s.direction s.goal p = true
  not_past_decel : s.phase = .accelerating ∨ s.phase = .cruising → passed s.direction s.decelPoint p = true
  speed_finite : sp.isFinite = true
  speed_nonneg : F32.zero.le sp = true

/-- The four ways a tick can leave a moving servo whose `last_tick` is written already (R227 to R229, R232). -/
inductive MoveOutcome (s : Servo) (t : U32) : Servo → Prop
  /-- the target is reached (R218) -/
  | finished : MoveOutcome s t (finish s t).servo
  /-- the deceleration point is reached, at a speed -/
  | braking (sp : F32) (hphase : s.phase = .accelerating ∨ s.phase = .cruising) (hA : s.maxAcceleration ≠ 0)
      (hsp : sp.isFinite = true ∧ F32.zero.le sp = true) : MoveOutcome s t (enterDecel s sp t).servo
  /-- the phase goes on -/
  | moved (p sp : F32) (h : WithinMove s p sp) :
      MoveOutcome s t { s with current := p, speed := sp, pulse := p.trunc }
  /-- the speed bound is reached -/
  | atBound (p sp : F32) (hphase : s.phase = .accelerating) (h : WithinMove s p sp) :
      MoveOutcome s t { s with current := p, speed := sp, phase := .cruising, phaseStartedAt := t, pulse := p.trunc }

theorem ServoInv.after_finish (h : ServoInv c s) (hm : s.moving = true) (t : U32) : ServoInv c (finish s t).servo :=
  servoInv_of_at_rest ⟨h.target_low, h.target_high⟩ ⟨h.default_low, h.default_high⟩ rfl (h.attached_of_moving hm) rfl rfl

theorem ServoInv.after_enterDecel (h : ServoInv c s) (hphase : s.phase = .accelerating ∨ s.phase = .cruising)
    (hA : s.maxAcceleration ≠ 0) {sp : F32} (hsp : sp.isFinite = true ∧ F32.zero.le sp = true) (t : U32) :
    ServoInv c (enterDecel s sp t).servo := by
  obtain ⟨hahead, hgoal⟩ := h.decel_ahead hphase
  obtain ⟨hlow, hhigh⟩ := le_and_le_of_passed hahead hgoal h.current_range h.goal_range
  have hattached := h.attached_of_moving (moving_iff.2 (hphase.imp_right .inl))
  exact { h with
    idle_iff_detached := by simp [enterDecel, Acted.start, Acted.writePulse, hattached]
    current_low := hlow
    current_high := hhigh
    not_past_target := fun _ => hgoal
    at_rest := by simp [enterDecel, Acted.start, Acted.writePulse]
    speed_finite := hsp.1
    speed_nonneg := hsp.2
    decel_ahead := by simp [enterDecel, Acted.start, Acted.writePulse]
    decel_unbounded := by simp [enterDecel, Acted.start, Acted.writePulse]
    accel_bounded := fun _ => hA }

theorem ServoInv.after_move (h : ServoInv c s) (hm : s.moving = true) {p sp : F32} (hp : WithinMove s p sp) :
    ServoInv c { s with current := p, speed := sp, pulse := p.trunc } := by
  obtain ⟨hlow, hhigh⟩ := le_and_le_of_passed hp.onward hp.not_past_goal h.current_range h.goal_range
  exact { h with
    current_low := hlow
    current_high := hhigh
    not_past_target := fun _ => hp.not_past_goal
    at_rest := fun hrest => by rcases moving_iff.1 hm with h | h | h <;> simp_all
    speed_finite := hp.speed_finite
    speed_nonneg := hp.speed_nonneg
    decel_ahead := fun hphase => ⟨hp.not_past_decel hphase, (h.decel_ahead hphase).2⟩ }

/-- Each outcome of a tick of a moving servo keeps the invariant. -/
theorem MoveOutcome.servoInv {s' : Servo} {t : U32} (ho : MoveOutcome s t s') (h : ServoInv c s)
    (hm : s.moving = true) : ServoInv c s' := by
  cases ho with
  | finished => exact h.after_finish hm t
  | braking sp hphase hA hsp => exact h.after_enterDecel hphase hA hsp t
  | moved p sp hp => exact h.after_move hm hp
  | atBound p sp hphase hp =>
    have hmoved := h.after_move hm hp
    exact servoInv_of_setting_out (.inr ⟨rfl, fun hA => absurd hA (h.accel_bounded (.inl hphase))⟩)
      (h.attached_of_moving hm) hmoved.current_range ⟨h.target_low, h.target_high⟩ ⟨h.default_low, h.default_high⟩
      ⟨hp.speed_finite, hp.speed_nonneg⟩ (hmoved.decel_ahead (.inl hphase))

/-- Each outcome of a tick of a moving servo is onward, and not past the target (R233, R234). -/
theorem MoveOutcome.between {s' : Servo} {t : U32} (ho : MoveOutcome s t s') (h : ServoInv c s)
    (hm : s.moving = true) :
    passed s.direction s'.current s.current = true ∧ passed s.direction s.goal s'.current = true := by
  cases ho with
  | finished => exact ⟨h.not_past_target hm, passed_refl _ (isNaN_goal s)⟩
  | braking sp hphase hA hsp => exact h.decel_ahead hphase
  | moved p sp hp => exact ⟨hp.onward, hp.not_past_goal⟩
  | atBound p sp hphase hp => exact ⟨hp.onward, hp.not_past_goal⟩

/-! ### The arms of a tick -/

/-- A speed to step at: no NaN, not below zero, and infinite only where time passes. -/
def IsStepSpeed (v dt : F32) : Prop :=
  (v.isNaN = false ∧ 0 ≤ v.units) ∧ (v.isFinite = true ∨ dt.mag ≠ 0)

theorem isStepSpeed_ofNat_u16 (v : U16) (dt : F32) : IsStepSpeed (F32.ofNat v.toNat) dt :=
  ⟨⟨F32.isNaN_ofNat _, F32.units_ofNat_nonneg _⟩, .inl (isFinite_ofNat_u16 _)⟩

/-- A step that does not pass the target goes onward, and at a finite speed: an infinite one passes every point. -/
theorem ServoInv.step_short_of_goal (h : ServoInv c s) {v dt : F32} (hv : IsStepSpeed v dt)
    (hdt : dt.isFinite = true ∧ 0 ≤ dt.units)
    (hgoal : passed s.direction (advance s.direction s.current v dt) s.goal = false) :
    passed s.direction (advance s.direction s.current v dt) s.current = true ∧
      passed s.direction s.goal (advance s.direction s.current v dt) = true ∧
      v.isFinite = true ∧ F32.zero.le v = true := by
  obtain ⟨⟨hnan, hnonneg⟩, hfin⟩ := hv
  obtain ⟨hstep, hstep0⟩ := mul_dt_ok hnan hnonneg hdt.1 hdt.2 hfin
  have honward := advance_passed (d := s.direction) h.current_finite hstep hstep0
  refine ⟨honward, passed_of_not_passed (isNaN_of_passed honward).1 (isNaN_goal s) hgoal, ?_,
    zero_le_iff.2 ⟨hnan, hnonneg⟩⟩
  by_contra hinf
  have hpass := advance_passed_of_not_finite (d := s.direction) h.current_finite (isFinite_goal s) hnan
    (by simpa using hinf) hnonneg hdt.1 hdt.2 (hfin.resolve_left hinf)
  simp [hpass] at hgoal

/-- A step that passes neither the target nor the deceleration point stays within the move. -/
theorem ServoInv.withinMove (h : ServoInv c s) {v dt : F32} (hv : IsStepSpeed v dt)
    (hdt : dt.isFinite = true ∧ 0 ≤ dt.units)
    (hgoal : passed s.direction (advance s.direction s.current v dt) s.goal = false)
    (hphase : s.phase = .accelerating ∨ s.phase = .cruising)
    (hdecel : passed s.direction (advance s.direction s.current v dt) s.decelPoint = false) :
    WithinMove s (advance s.direction s.current v dt) v := by
  obtain ⟨honward, hshort, hfin, hnonneg⟩ := h.step_short_of_goal hv hdt hgoal
  have hdp := (isNaN_of_passed (h.decel_ahead hphase).1).1
  exact ⟨honward, hshort, fun _ => passed_of_not_passed (isNaN_of_passed honward).1 hdp hdecel, hfin, hnonneg⟩

/-- The speed of a tick in Accelerating (R227). -/
def acceleratedSpeed (s : Servo) (dt : F32) : F32 :=
  if overSpeed s (s.speed.add (s.accel.mul dt)) then s.speedBound else s.speed.add (s.accel.mul dt)

/-- Without time a servo does not get faster. -/
theorem accel_mul_units_of_no_time (s : Servo) {dt : F32} (hdt : dt.isFinite = true) (hmag : dt.mag = 0) :
    (s.accel.mul dt).isFinite = true ∧ (s.accel.mul dt).units = 0 := by
  have hzero : s.accel.mul dt = F32.pack (s.accel.isNeg != dt.isNeg) 0 := by
    rw [F32.mul_finite (x := s.accel) (isFinite_ofNat_u16 _) hdt, hmag, F32.magUnits_zero, Nat.mul_zero,
      F32.roundUnits_zero _ F32.one_pos']
  rw [hzero, F32.isFinite_iff, F32.mag_pack _ (by decide), F32.units_pack _ (by decide)]
  exact ⟨by decide, by simp⟩

theorem ServoInv.isStepSpeed_acceleratedSpeed (h : ServoInv c s) {dt : F32} (hdt : dt.isFinite = true ∧ 0 ≤ dt.units) :
    IsStepSpeed (acceleratedSpeed s dt) dt := by
  obtain ⟨hgain, hgain0⟩ := accel_mul_ok s hdt.1 hdt.2
  obtain ⟨-, hspeed0⟩ := zero_le_iff.1 h.speed_nonneg
  obtain ⟨-, hfree, hle⟩ := F32.le_iff.1 (F32.le_add_right h.speed_finite hgain hgain0)
  unfold acceleratedSpeed
  split
  · exact isStepSpeed_ofNat_u16 _ _
  · refine ⟨⟨hfree, hspeed0.trans hle⟩, ?_⟩
    by_cases hmag : dt.mag = 0
    · obtain ⟨hfin, hunits⟩ := accel_mul_units_of_no_time s hdt.1 hmag
      obtain ⟨-, -, hle'⟩ := F32.le_iff.1 (F32.add_le_of h.speed_finite hfin h.speed_finite (by omega))
      exact .inl (F32.isFinite_of_nonneg_le (hspeed0.trans hle) h.speed_finite hle')
    · exact .inr hmag

/-- The speed of a tick in Accelerating decides where it goes (R227, R232). -/
theorem tickAccelerating_eq (s : Servo) (t : U32) (dt : F32) :
    tickAccelerating s t dt =
      let p := advance s.direction s.current (acceleratedSpeed s dt) dt
      if passed s.direction p s.goal then finish s t
      else if passed s.direction p s.decelPoint then enterDecel s (acceleratedSpeed s dt) t
      else
        let moved : Servo := { s with current := p, speed := acceleratedSpeed s dt }
        (Acted.start (if overSpeed s (s.speed.add (s.accel.mul dt)) then
          { moved with phase := .cruising, phaseStartedAt := t } else moved)).writePulse p.trunc := rfl

theorem ServoInv.tickAccelerating_outcome (h : ServoInv c s) (hphase : s.phase = .accelerating) (t : U32) {dt : F32}
    (hdt : dt.isFinite = true ∧ 0 ≤ dt.units) : MoveOutcome s t (tickAccelerating s t dt).servo := by
  have hspeed := h.isStepSpeed_acceleratedSpeed hdt
  rw [tickAccelerating_eq]
  dsimp only
  split_ifs with hgoal hdecel hover
  · exact .finished
  · obtain ⟨-, -, hsp⟩ := h.step_short_of_goal hspeed hdt (by simpa using hgoal)
    exact .braking _ (.inl hphase) (h.accel_bounded (.inl hphase)) hsp
  · exact .atBound _ _ hphase (h.withinMove hspeed hdt (by simpa using hgoal) (.inl hphase) (by simpa using hdecel))
  · exact .moved _ _ (h.withinMove hspeed hdt (by simpa using hgoal) (.inl hphase) (by simpa using hdecel))

/-- With unbounded acceleration the deceleration point is the target, so it is never reached without finishing (R228). -/
theorem ServoInv.tickCruising_outcome (h : ServoInv c s) (hphase : s.phase = .cruising) (t : U32) {dt : F32}
    (hdt : dt.isFinite = true ∧ 0 ≤ dt.units) : MoveOutcome s t (tickCruising s t dt).servo := by
  have hspeed : IsStepSpeed s.speedBound dt := isStepSpeed_ofNat_u16 _ _
  unfold tickCruising
  dsimp only
  split_ifs with hV hgoal hdecel
  · exact .finished
  · exact .finished
  · obtain ⟨-, -, hsp⟩ := h.step_short_of_goal hspeed hdt (by simpa using hgoal)
    have hA : s.maxAcceleration ≠ 0 := fun hA => hgoal (h.decel_unbounded hphase hA ▸ hdecel)
    exact .braking _ (.inr hphase) hA hsp
  · have hwithin := h.withinMove hspeed hdt (by simpa using hgoal) (.inr hphase) (by simpa using hdecel)
    exact .moved _ _ { hwithin with speed_finite := h.speed_finite, speed_nonneg := h.speed_nonneg }

/-- A servo slows down to a speed that is not below zero, or finishes (R229). -/
theorem ServoInv.tickDecelerating_outcome (h : ServoInv c s) (hphase : s.phase = .decelerating) (t : U32) {dt : F32}
    (hdt : dt.isFinite = true ∧ 0 ≤ dt.units) : MoveOutcome s t (tickDecelerating s t dt).servo := by
  obtain ⟨hloss, hloss0⟩ := accel_mul_ok s hdt.1 hdt.2
  obtain ⟨hnan, -, hle⟩ := F32.le_iff.1 (F32.sub_le_left h.speed_finite hloss hloss0)
  unfold tickDecelerating
  dsimp only
  split_ifs with hA hneg hgoal
  · exact .finished
  · exact .finished
  · exact .finished
  · obtain ⟨-, hnonneg⟩ := zero_le_iff.1 (F32.le_of_not_lt hnan isNaN_zero (by simpa using hneg))
    have hspeed : IsStepSpeed (s.speed.sub (s.accel.mul dt)) dt :=
      ⟨⟨hnan, hnonneg⟩, .inl (F32.isFinite_of_nonneg_le hnonneg h.speed_finite hle)⟩
    obtain ⟨honward, hshort, hsp⟩ := h.step_short_of_goal hspeed hdt (by simpa using hgoal)
    exact .moved _ _ ⟨honward, hshort, by simp [hphase], hsp.1, hsp.2⟩

/-- Everything a tick of a moving servo can do (R227 to R229, R231, R232). -/
theorem ServoInv.tickServo_outcome (h : ServoInv c s) (hm : s.moving = true) (t : U32) :
    MoveOutcome { s with lastTick := t } t (tickServo c s t).servo := by
  have ht := h.with_lastTick t
  have hdt := timeStep_ok t s.lastTick
  rcases moving_iff.1 hm with hphase | hphase | hphase
  · rw [tickServo_of_accelerating hphase]; exact ht.tickAccelerating_outcome hphase t hdt
  · rw [tickServo_of_cruising hphase]; exact ht.tickCruising_outcome hphase t hdt
  · rw [tickServo_of_decelerating hphase]; exact ht.tickDecelerating_outcome hphase t hdt

/-- A tick in Settling waits, or detaches the servo and leaves it Idle (R230). -/
theorem ServoInv.after_tickSettling (h : ServoInv c s) (hphase : s.phase = .settling) (t : U32) :
    ServoInv c (tickSettling c s t).servo := by
  unfold tickSettling
  split
  · exact { h with
      idle_iff_detached := by simp [Acted.start, Acted.detach]
      not_past_target := by simp [Acted.start, Acted.detach, Servo.moving]
      at_rest := fun _ => h.at_rest (.inl hphase)
      decel_ahead := by simp
      decel_unbounded := by simp
      accel_bounded := by simp }
  · exact h

/-- Every tick keeps the invariant of its servo (R45). -/
theorem ServoInv.after_tick (h : ServoInv c s) (t : U32) : ServoInv c (tickServo c s t).servo := by
  have ht := h.with_lastTick t
  by_cases hm : s.moving = true
  · exact (h.tickServo_outcome hm t).servoInv ht hm
  · cases hphase : s.phase with
    | idle => rw [tickServo_of_idle hphase]; exact ht
    | settling => rw [tickServo_of_settling hphase]; exact ht.after_tickSettling hphase t
    | accelerating => simp [Servo.moving, hphase] at hm
    | cruising => simp [Servo.moving, hphase] at hm
    | decelerating => simp [Servo.moving, hphase] at hm

/-- No tick moves a servo against its direction or past its target (R45, R233, R234). -/
theorem ServoInv.tick_between (h : ServoInv c s) (hm : s.moving = true) (t : U32) :
    passed s.direction (tickServo c s t).servo.current s.current = true ∧
      passed s.direction s.goal (tickServo c s t).servo.current = true :=
  (h.tickServo_outcome hm t).between (h.with_lastTick t) hm

end

end Sys2Proof.Machine
end

section
/-!
PROOFS. What the execution of a message does to the state (10_state.md R38, R46; 41_commands.md): one slot of `REG` at most,
and what is left alone.
-/

namespace Sys2Proof.Machine

open Sys2Proof

/-! ### What a message does to `REG` -/

/-- What the work on one slot of `REG` can come to: nothing, an operation on the servo that is there, or a new entry of a
kind that `DEV` holds, just configured (R38, R180). -/
inductive SlotWork (c : Config) (dev : List Device) (id : U8) (r : List (U8 × Instance)) : List (U8 × Instance) → Prop
  | none : SlotWork c dev id r r
  | configure (inst : Instance) (hget : regGet r id = some inst) (cfg : ServoConfig) (t : U32) :
      SlotWork c dev id r (regPut r id { inst with servo := (configureServo c inst.servo cfg t).servo })
  | setTarget (inst : Instance) (hget : regGet r id = some inst) (angle : U16) (t : U32) :
      SlotWork c dev id r (regPut r id { inst with servo := (setTargetServo c inst.servo angle t).servo })
  | tick (inst : Instance) (hget : regGet r id = some inst) (t : U32) :
      SlotWork c dev id r (regPut r id { inst with servo := (tickServo c inst.servo t).servo })
  | create (d : Device) (hd : d ∈ dev) (hid : id ≠ 0) (hget : regGet r id = none) (old : Servo) (cfg : ServoConfig)
      (t : U32) : SlotWork c dev id r (regPut r id ⟨d.kind, id, (configureServo c old cfg t).servo⟩)

/-- An entry of `REG` keeps its id and its kind (R39). -/
def SameIdentity (a b : Instance) : Prop := b.id = a.id ∧ b.kind = a.kind

/-- Work on a slot leaves the registry, or puts an entry into that slot: one of the same identity where there was one,
and else a new one. -/
theorem SlotWork.cases_put {c : Config} {dev : List Device} {id : U8} {r r' : List (U8 × Instance)}
    (h : SlotWork c dev id r r') :
    r' = r ∨ ∃ v, r' = regPut r id v ∧ ∀ a, regGet r id = some a → SameIdentity a v := by
  cases h with
  | none => exact .inl rfl
  | configure inst hget | setTarget inst hget | tick inst hget =>
    refine .inr ⟨_, rfl, fun a ha => ?_⟩
    cases hget.symm.trans ha
    exact ⟨rfl, rfl⟩
  | create d hd hid hget => exact .inr ⟨_, rfl, fun a ha => by simp [hget] at ha⟩

theorem SlotWork.regGet_other {c : Config} {dev : List Device} {id other : U8} {r r' : List (U8 × Instance)}
    (h : SlotWork c dev id r r') (hne : other ≠ id) : regGet r' other = regGet r other := by
  rcases h.cases_put with rfl | ⟨v, rfl, -⟩
  · rfl
  · exact regGet_regPut_other r v hne

/-- Work on a slot empties none, and keeps the identity of each entry (R38, R39). -/
theorem SlotWork.keeps_identity {c : Config} {dev : List Device} {id k : U8} {r r' : List (U8 × Instance)}
    (h : SlotWork c dev id r r') {a : Instance} (ha : regGet r k = some a) :
    ∃ b, regGet r' k = some b ∧ SameIdentity a b := by
  rcases h.cases_put with rfl | ⟨v, rfl, hsame⟩
  · exact ⟨a, ha, rfl, rfl⟩
  · by_cases hk : k = id
    · subst hk; exact ⟨v, regGet_regPut_same _ _ _, hsame a ha⟩
    · exact ⟨a, by rw [regGet_regPut_other _ _ hk, ha], rfl, rfl⟩

/-- The part of the invariant that is about `REG`. -/
def RegInv (c : Config) (r : List (U8 × Instance)) : Prop :=
  RegWf r ∧ ∀ e ∈ r, e.2.kind = .servo ∧ ServoInv c e.2.servo

theorem RegInv.put {c : Config} {id : U8} {r : List (U8 × Instance)} {v : Instance} (h : RegInv c r) (hid : id ≠ 0)
    (hv : v.id = id) (hkind : v.kind = .servo) (hservo : ServoInv c v.servo) : RegInv c (regPut r id v) := by
  refine ⟨regPut_wf h.1 hid hv, fun e he => ?_⟩
  rcases mem_regPut he with rfl | he
  · exact ⟨hkind, hservo⟩
  · exact h.2 e he

/-- Work that keeps the invariant of the servo in a slot keeps that of the registry. -/
theorem RegInv.put_servo {c : Config} {id : U8} {r : List (U8 × Instance)} {inst : Instance} {sv : Servo}
    (h : RegInv c r) (hget : regGet r id = some inst) (hsv : ServoInv c inst.servo → ServoInv c sv) :
    RegInv c (regPut r id { inst with servo := sv }) := by
  obtain ⟨hid, hinst⟩ := regGet_wf h.1 hget
  obtain ⟨hkind, hservo⟩ := h.2 _ (mem_of_regGet hget)
  exact h.put hid hinst hkind (hsv hservo)

theorem SlotWork.keeps_regInv {c : Config} {dev : List Device} {id : U8} {r r' : List (U8 × Instance)}
    (h : SlotWork c dev id r r') (hc : c.wf) (hdev : ∀ d ∈ dev, d.kind = .servo) (hr : RegInv c r) : RegInv c r' := by
  cases h with
  | none => exact hr
  | configure inst hget cfg t => exact hr.put_servo hget fun _ => servoInv_configureServo hc _ cfg t
  | setTarget inst hget angle t => exact hr.put_servo hget fun hs => hs.after_setTarget hc angle t
  | tick inst hget t => exact hr.put_servo hget fun hs => hs.after_tick t
  | create d hd hid hget old cfg t => exact hr.put hid rfl (hdev d hd) (servoInv_configureServo hc old cfg t)

/-! ### What the execution of a message does -/

/-- An execution writes one slot of `REG` at most, and leaves the configuration, the handler registries and `RX`. -/
structure Worked (id : U8) (s t : State) : Prop where
  config : t.config = s.config
  cmd : t.cmd = s.cmd
  dev : t.dev = s.dev
  rx : t.rx = s.rx
  reg : SlotWork s.config s.dev id s.reg t.reg

theorem Worked.refl (id : U8) (s : State) : Worked id s s := ⟨rfl, rfl, rfl, rfl, .none⟩

theorem Worked.sampled (id : U8) (s : State) : Worked id s s.sampled where
  config := s.sampled_config
  cmd := s.sampled_cmd
  dev := s.sampled_dev
  rx := s.sampled_rx
  reg := by rw [State.sampled_reg]; exact .none

section

variable {id : U8} {s t : State}

theorem Worked.record (h : Worked id s t) (e : Event) : Worked id s (t.record e) := { h with }

theorem Worked.setSeq (h : Worked id s t) (q : Seq) : Worked id s (t.setSeq q) := { h with }

theorem Worked.txPush (h : Worked id s t) (b : U8) : Worked id s (t.txPush b) := { h with }

/-- Work on the slot after work that left `REG`. -/
theorem Worked.putActed (h : Worked id s t) (inst : Instance) (a : Acted)
    (hreg : SlotWork s.config s.dev id s.reg (regPut t.reg id { inst with servo := a.servo })) :
    Worked id s (t.putActed id inst a) := { h with reg := hreg }

/-- The end of an execution sends a byte at most and moves `SEQ` (R138, R152). -/
theorem Worked.complete {code : U8} {b : Bool} (h : Worked id s t) : Worked id s (complete code (b, t)) := by
  unfold Machine.complete
  split
  · exact (h.txPush _).setSeq _
  · exact h.setSeq _

theorem upsert_worked {d : Device} (hd : d ∈ s.dev) (hid : id ≠ 0) (cfg : ServoConfig) :
    Worked id s (upsert d id cfg s).2 := by
  have hsampled := Worked.sampled id s
  rcases upsert_cases d id cfg s with ⟨hget, he⟩ | ⟨inst, hget, ⟨-, he⟩ | ⟨-, -, he⟩ | ⟨-, -, he⟩⟩ <;> rw [he]
  · refine { hsampled with reg := ?_ }
    rw [createAt_reg, State.sampled_reg, State.sampled_config]
    exact .create d hd hid hget _ cfg s.now
  · exact hsampled.record _
  · refine hsampled.putActed _ _ ?_
    rw [State.sampled_reg, State.sampled_config]
    exact .configure inst hget cfg s.now
  · exact hsampled

/-- PATCH works on the slot of the id in its payload. -/
theorem runPatch_worked (payload : List U8) (s : State) : Worked (byteAt payload 1) s (runPatch payload s).2 := by
  have hrefl := Worked.refl (byteAt payload 1) s
  rcases runPatch_cases payload s with ⟨-, he⟩ | ⟨target, args, -, ⟨-, he⟩ | ⟨d, hd, hcase⟩⟩
  · rw [he]; exact hrefl.record _
  · rw [he]; exact hrefl.record _
  · rcases hcase with ⟨-, he⟩ | ⟨-, -, he⟩ | ⟨-, -, -, he⟩ | ⟨-, -, hid, he⟩ <;> rw [he]
    · exact hrefl
    · exact hrefl.record _
    · exact hrefl.record _
    · exact upsert_worked (List.mem_of_find?_eq_some hd) hid _

/-- ACTION works on the slot of its id. -/
theorem runAction_worked (id : U8) (angle : U16) (s : State) : Worked id s (runAction id angle s).2 := by
  rcases runAction_cases id angle s with ⟨-, he⟩ | ⟨inst, -, hget, ⟨-, he⟩ | ⟨-, he⟩⟩ <;> rw [he]
  · exact (Worked.refl id s).record _
  · exact (Worked.refl id s).record _
  · refine (Worked.sampled id s).putActed _ _ ?_
    rw [State.sampled_reg, State.sampled_config]
    exact .setTarget inst hget angle s.now

theorem tickAt_worked (s : State) (id : U8) (t : U32) : Worked id s (tickAt s id t) := by
  cases hget : regGet s.reg id with
  | none => rw [tickAt_none hget]; exact .refl id s
  | some inst => rw [tickAt_some hget]; exact (Worked.refl id s).putActed _ _ (.tick inst hget t)

theorem dropCode_worked (code : U8) (s : State) : Worked id s (dropCode code s) :=
  ((Worked.refl id s).record _).setSeq _

/-- A message or a dropped code works on one slot at most. -/
theorem exec_worked {i : Instr} (hi : i.onWire = true) (h : exec i s = .next t) : ∃ id, Worked id s t := by
  cases i with
  | handshake => cases h; exact ⟨0, ((Worked.refl 0 s).txPush _).complete⟩
  | ack => cases h; exact ⟨0, (Worked.refl 0 s).complete⟩
  | patch payload => cases h; exact ⟨_, (runPatch_worked payload s).complete⟩
  | action id angle => cases h; exact ⟨_, (runAction_worked id angle s).complete⟩
  | patchServo id cfg => cases h; exact ⟨_, (runPatch_worked (servoPayload s.config id cfg) s).complete⟩
  | reservedNul => cases h; exact ⟨0, dropCode_worked _ s⟩
  | reservedLf => cases h; exact ⟨0, dropCode_worked _ s⟩
  | reservedHash => cases h; exact ⟨0, dropCode_worked _ s⟩
  | unassigned code => cases h; exact ⟨0, dropCode_worked _ s⟩
  | configure => simp [Instr.onWire] at hi
  | setTarget => simp [Instr.onWire] at hi
  | tick => simp [Instr.onWire] at hi

/-- A message or a dropped code ends its step at the sweep (R132, R138). -/
theorem exec_seq {i : Instr} (hi : i.onWire = true) (h : exec i s = .next t) : t.seq = .sweep := by
  cases i with
  | configure => simp [Instr.onWire] at hi
  | setTarget => simp [Instr.onWire] at hi
  | tick => simp [Instr.onWire] at hi
  | _ => cases h; rfl

end

end Sys2Proof.Machine
end

section
/-!
PROOFS. What a step of the block does, and the statements that follow from it: the invariant and the reachable states
(10_state.md R22, R37 to R39, R45), `RX` as a stream (R25), the slots that an instruction does not address (R46).
-/

namespace Sys2Proof.Machine

open Sys2Proof

/-! ### What the sequencer's own steps do -/

/-- The steps of the sequencer that run no instruction (R131 to R137). -/
inductive SeqMove (s : State) : State → Prop
  | noByte (hq : s.seq = .poll) (hrx : s.rx = []) : SeqMove s (s.setSeq .sweep)
  | noPayload (hd : Command) (code : U8) (rest : List U8) (hq : s.seq = .poll) (hrx : s.rx = code :: rest)
      (hcmd : commandAt s.cmd code = some hd) (hsize : hd.size = .fixed 0) :
      SeqMove s (beginExec hd [] 0 false (s.setRx rest))
  | fixedPayload (hd : Command) (code : U8) (rest : List U8) (hq : s.seq = .poll) (hrx : s.rx = code :: rest)
      (hcmd : commandAt s.cmd code = some hd) (n : U8) (hsize : hd.size = .fixed n) (hn : n ≠ 0) :
      SeqMove s ((s.setRx rest).setSeq (.wait hd n))
  | variablePayload (hd : Command) (code : U8) (rest : List U8) (hq : s.seq = .poll) (hrx : s.rx = code :: rest)
      (hcmd : commandAt s.cmd code = some hd) (hsize : hd.size = .variable) :
      SeqMove s ((s.setRx rest).setSeq (.waitLen hd))
  | lengthTimeout (hd : Command) (hq : s.seq = .waitLen hd) (hrx : s.rx = []) :
      SeqMove s (beginExec hd [] 0 true (s.record (.readTimeout hd.code 1 0)))
  | lengthZero (hd : Command) (rest : List U8) (hq : s.seq = .waitLen hd) (hrx : s.rx = 0 :: rest) :
      SeqMove s (beginExec hd [] 0 false (s.setRx rest))
  | length (hd : Command) (len : U8) (rest : List U8) (hq : s.seq = .waitLen hd) (hrx : s.rx = len :: rest)
      (hlen : len ≠ 0) : SeqMove s ((s.setRx rest).setSeq (.wait hd len))
  | payloadTimeout (hd : Command) (n : U8) (hq : s.seq = .wait hd n) (hshort : s.rx.length < n.toNat) :
      SeqMove s (beginExec hd [] n true (s.record (.readTimeout hd.code n.toNat s.rx.length)))
  | payload (hd : Command) (n : U8) (hq : s.seq = .wait hd n) (hlong : n.toNat ≤ s.rx.length) :
      SeqMove s (beginExec hd (s.rx.take n.toNat) n false (s.setRx (s.rx.drop n.toNat)))
  | sweep (hq : s.seq = .sweep) : SeqMove s (sweep s)

theorem seqMove_of_fetchPoll {s t : State} (hq : s.seq = .poll) (h : fetchPoll s = .moved t) : SeqMove s t := by
  unfold fetchPoll at h
  cases hrx : s.rx with
  | nil =>
    rw [hrx] at h; cases h
    exact .noByte hq hrx
  | cons code rest =>
    simp only [hrx] at h
    cases hcmd : commandAt s.cmd code with
    | none => rw [hcmd] at h; cases h
    | some hd =>
      simp only [hcmd] at h
      cases hsize : hd.size with
      | fixed n =>
        simp only [hsize] at h
        split at h
        · next hn => subst hn; cases h; exact .noPayload hd code rest hq hrx hcmd hsize
        · next hn => cases h; exact .fixedPayload hd code rest hq hrx hcmd n hsize hn
      | _ =>
        rw [hsize] at h; cases h
        exact .variablePayload hd code rest hq hrx hcmd hsize

theorem seqMove_fetchLength {s : State} {hd : Command} (hq : s.seq = .waitLen hd) : SeqMove s (fetchLength hd s) := by
  unfold fetchLength
  cases hrx : s.rx with
  | nil => exact .lengthTimeout hd hq hrx
  | cons len rest =>
    dsimp only
    split
    · next hlen => subst hlen; exact .lengthZero hd rest hq hrx
    · next hlen => exact .length hd len rest hq hrx hlen

theorem seqMove_fetchPayload {s : State} {hd : Command} {n : U8} (hq : s.seq = .wait hd n) :
    SeqMove s (fetchPayload hd n s) := by
  unfold fetchPayload
  split
  · next hshort => exact .payloadTimeout hd n hq hshort
  · next hlong => exact .payload hd n hq (not_lt.1 hlong)

/-- The unit's step that runs no instruction is one of the sequencer's. -/
theorem seqMove_of_fetch {s t : State} (h : fetch s = .moved t) : SeqMove s t := by
  unfold fetch at h
  cases hq : s.seq with
  | poll => rw [hq] at h; exact seqMove_of_fetchPoll hq h
  | waitLen hd => rw [hq] at h; cases h; exact seqMove_fetchLength hq
  | wait hd n => rw [hq] at h; cases h; exact seqMove_fetchPayload hq
  | exec hd P len b => rw [hq] at h; cases h
  | sweep => rw [hq] at h; cases h; exact .sweep hq

/-- A dispatch on at most 255 payload bytes leaves a legal `SEQ` (R22, R24). -/
theorem seqInv_beginExec {cmd : List Command} {s : State} {hd : Command} {payload : List U8} {len : U8}
    (hwf : s.config.wf) (hcmd : commandAt cmd hd.code = some hd) (hlen : payload.length ≤ 255)
    (hsize : hd.size = .variable ∨ hd.size = .fixed len) (timedOut : Bool) :
    SeqInv cmd (beginExec hd payload len timedOut s).seq := by
  rw [beginExec_seq, maxPayload_of_wf hwf]
  refine ⟨hcmd, ?_, hsize⟩
  rw [List.length_append, State.draws_length]
  omega

/-- The handler that `CMD` gives for a code is the one it gives for the handler's own code. -/
theorem commandAt_own_code {r : List Command} {code : U8} {hd : Command} (h : commandAt r code = some hd) :
    commandAt r hd.code = some hd := by
  rw [commandAt_code h]; exact h

/-- The sequencer's own steps keep `SEQ` legal (R22). -/
theorem SeqMove.keeps_seqInv {s t : State} (hm : SeqMove s t) (hwf : s.config.wf) (h : SeqInv s.cmd s.seq) :
    SeqInv s.cmd t.seq := by
  cases hm with
  | noByte | sweep => trivial
  | noPayload hd code rest hq hrx hcmd hsize =>
    exact seqInv_beginExec hwf (commandAt_own_code hcmd) (Nat.zero_le _) (.inr hsize) _
  | fixedPayload hd code rest hq hrx hcmd n hsize hn => exact ⟨commandAt_own_code hcmd, hn, .inr hsize⟩
  | variablePayload hd code rest hq hrx hcmd hsize => exact ⟨commandAt_own_code hcmd, hsize⟩
  | lengthTimeout hd hq | lengthZero hd rest hq =>
    rw [hq] at h
    exact seqInv_beginExec hwf h.1 (Nat.zero_le _) (.inl h.2) _
  | length hd len rest hq hrx hlen =>
    rw [hq] at h
    exact ⟨h.1, hlen, .inl h.2⟩
  | payloadTimeout hd n hq =>
    rw [hq] at h
    obtain ⟨hcmd, -, hsize⟩ := h
    exact seqInv_beginExec hwf hcmd (Nat.zero_le _) hsize _
  | payload hd n hq =>
    rw [hq] at h
    obtain ⟨hcmd, -, hsize⟩ := h
    have hn := n.isLt
    exact seqInv_beginExec hwf hcmd (by rw [List.length_take]; omega) hsize _

/-! ### What a step of the unit does -/

/-- `REG` after work on its slots, one after the other. -/
abbrev RegWork (c : Config) (dev : List Device) : List (U8 × Instance) → List (U8 × Instance) → Prop :=
  Relation.ReflTransGen fun r r' => ∃ id, SlotWork c dev id r r'

/-- What a unit step leaves alone, and what it can do to `RX`, `SEQ` and `REG`. -/
structure UnitEffect (s t : State) : Prop where
  config : t.config = s.config
  cmd : t.cmd = s.cmd
  dev : t.dev = s.dev
  rx : ∃ n, t.rx = s.rx.drop n
  seq : s.config.wf → SeqInv s.cmd s.seq → SeqInv s.cmd t.seq
  reg : RegWork s.config s.dev s.reg t.reg

/-- The sweep ticks instances, one after the other, and leaves the rest (R137). -/
theorem sweep_effect (s : State) : (sweep s).config = s.config ∧ (sweep s).cmd = s.cmd ∧ (sweep s).dev = s.dev ∧
    (sweep s).rx = s.rx ∧ RegWork s.config s.dev s.reg (sweep s).reg := by
  refine sweep_induction (fun t => t.config = s.config ∧ t.cmd = s.cmd ∧ t.dev = s.dev ∧ t.rx = s.rx ∧
    RegWork s.config s.dev s.reg t.reg) s ?_ ?_ fun _ h => h
  · have h := Worked.sampled 0 s
    exact ⟨h.config, h.cmd, h.dev, h.rx, .single ⟨0, h.reg⟩⟩
  · rintro t id ⟨hconfig, hcmd, hdev, hrx, hreg⟩
    have h := tickAt_worked t id s.now
    refine ⟨h.config.trans hconfig, h.cmd.trans hcmd, h.dev.trans hdev, h.rx.trans hrx, hreg.tail ⟨id, ?_⟩⟩
    rw [← hconfig, ← hdev]; exact h.reg

theorem SeqMove.effect {s t : State} (hm : SeqMove s t) : UnitEffect s t := by
  have hseq := hm.keeps_seqInv
  cases hm with
  | noByte | lengthTimeout | payloadTimeout => exact ⟨rfl, rfl, rfl, ⟨0, rfl⟩, hseq, .refl⟩
  | noPayload hd code rest hq hrx | fixedPayload hd code rest hq hrx | variablePayload hd code rest hq hrx =>
    exact ⟨rfl, rfl, rfl, ⟨1, by rw [hrx]; rfl⟩, hseq, .refl⟩
  | lengthZero hd rest hq hrx => exact ⟨rfl, rfl, rfl, ⟨1, by rw [hrx]; rfl⟩, hseq, .refl⟩
  | length hd len rest hq hrx => exact ⟨rfl, rfl, rfl, ⟨1, by rw [hrx]; rfl⟩, hseq, .refl⟩
  | payload hd n => exact ⟨rfl, rfl, rfl, ⟨n.toNat, rfl⟩, hseq, .refl⟩
  | sweep =>
    obtain ⟨hconfig, hcmd, hdev, hrx, hreg⟩ := sweep_effect s
    exact ⟨hconfig, hcmd, hdev, ⟨0, hrx⟩, hseq, hreg⟩

theorem droppedInstr_onWire (code : U8) : (droppedInstr code).onWire = true := by
  unfold droppedInstr; split_ifs <;> rfl

theorem decodePayload_onWire (c : Config) (k : CommandKind) (P : List U8) (L : Nat) :
    (decodePayload c k P L).onWire = true := by
  cases k with
  | patch => unfold decodePayload; dsimp only; split_ifs <;> rfl
  | _ => rfl

/-- A unit step runs messages and dropped codes only, on a state that lost at most a code byte (R132, R138). -/
theorem fetch_run_onWire {s s' : State} {i : Instr} (h : fetch s = .run i s') :
    i.onWire = true ∧ ∃ n, s' = s.setRx (s.rx.drop n) := by
  rcases fetch_run_cases h with ⟨code, rest, -, hrx, -, rfl, rfl⟩ | ⟨hd, P, len, b, -, rfl, rfl⟩
  · exact ⟨droppedInstr_onWire code, 1, by rw [hrx]; rfl⟩
  · exact ⟨decodePayload_onWire _ _ _ _, 0, rfl⟩

theorem unitStep_effect {s t : State} (h : unitStep s = .next t) : UnitEffect s t := by
  rcases unitStep_cases h with hmoved | ⟨i, s', hrun, hexec⟩
  · exact (seqMove_of_fetch hmoved).effect
  · obtain ⟨hwire, n, rfl⟩ := fetch_run_onWire hrun
    obtain ⟨id, hw⟩ := exec_worked hwire hexec
    have hseq := exec_seq hwire hexec
    exact ⟨hw.config, hw.cmd, hw.dev, ⟨n, hw.rx⟩, fun _ _ => by rw [hseq]; trivial, .single ⟨id, hw.reg⟩⟩

/-- A step is a host append where the agenda begins with one, and a unit step otherwise. -/
theorem step_effect {s t : State} (h : step s = .next t) :
    (∃ b moves, s.agenda = .append b :: moves ∧ t = (s.setAgenda moves).hostAppend b) ∨
      (∀ b moves, s.agenda ≠ .append b :: moves) ∧ UnitEffect s t := by
  obtain ⟨-, happend | ⟨rest, hagenda, hunit⟩ | ⟨hagenda, hunit⟩⟩ := step_cases h
  · exact .inl happend
  · have he := unitStep_effect hunit
    exact .inr ⟨by simp [hagenda], { he with }⟩
  · exact .inr ⟨by simp [hagenda], unitStep_effect hunit⟩

/-! ### The invariant of the block -/

theorem RegWork.keeps_regInv {c : Config} {dev : List Device} {r r' : List (U8 × Instance)} (h : RegWork c dev r r')
    (hc : c.wf) (hdev : ∀ d ∈ dev, d.kind = .servo) (hr : RegInv c r) : RegInv c r' := by
  induction h with
  | refl => exact hr
  | tail _ hwork ih => obtain ⟨id, hwork⟩ := hwork; exact hwork.keeps_regInv hc hdev ih

theorem RegWork.keeps_identity {c : Config} {dev : List Device} {r r' : List (U8 × Instance)} (h : RegWork c dev r r')
    {id : U8} {a : Instance} (ha : regGet r id = some a) : ∃ b, regGet r' id = some b ∧ SameIdentity a b := by
  induction h with
  | refl => exact ⟨a, ha, rfl, rfl⟩
  | tail _ hwork ih =>
    obtain ⟨k, hwork⟩ := hwork
    obtain ⟨b, hb, hid, hkind⟩ := ih
    obtain ⟨b', hb', hid', hkind'⟩ := hwork.keeps_identity hb
    exact ⟨b', hb', hid'.trans hid, hkind'.trans hkind⟩

/-- The only device that the boot registers is the servo (R36, R310). -/
theorem Booted.device_kind {s : State} (h : Booted s) : ∀ d ∈ s.dev, d.kind = .servo := by
  simp [h.devices, bootDevices_eq, servoDevice]

theorem Booted.congr {s t : State} (h : Booted s) (hconfig : t.config = s.config) (hcmd : t.cmd = s.cmd)
    (hdev : t.dev = s.dev) : Booted t where
  config_wf := hconfig ▸ h.config_wf
  commands := by rw [hcmd, hconfig, h.commands]
  devices := by rw [hdev, hconfig, h.devices]

/-- A unit step keeps the invariant: it keeps each of its parts. -/
theorem UnitEffect.keeps_inv {s t : State} (he : UnitEffect s t) (h : Inv s) : Inv t := by
  obtain ⟨hregWf, hservo⟩ :=
    he.reg.keeps_regInv h.booted.config_wf h.booted.device_kind ⟨h.reg_ok, h.servo_ok⟩
  exact {
    booted := h.booted.congr he.config he.cmd he.dev
    seq_ok := by rw [he.cmd]; exact he.seq h.booted.config_wf h.seq_ok
    reg_ok := hregWf
    servo_ok := by rw [he.config]; exact hservo }

/-- Settles O59: a host append touches no part of the invariant, and a unit step keeps each. -/
theorem stepKeepsInvariant : Obligations.StepKeepsInvariant := by
  intro s t h hstep
  rcases step_effect hstep with ⟨b, moves, -, rfl⟩ | ⟨-, he⟩
  · exact ⟨h.booted.congr rfl rfl rfl, h.seq_ok, h.reg_ok, h.servo_ok⟩
  · exact he.keeps_inv h

/-- The invariant of the block holds after reset (R300). -/
theorem inv_resetWith {c : Config} (h : c.wf) (moves : List Move) (tape : List U32) :
    Inv { State.resetWith c with agenda := moves, clockTape := tape } where
  booted := ⟨h, rfl, rfl⟩
  seq_ok := trivial
  reg_ok := ⟨List.Pairwise.nil, by simp [State.resetWith]⟩
  servo_ok := by simp [State.resetWith]

theorem Reachable.inv {s : State} (h : Reachable s) : Inv s := by
  induction h with
  | reset c moves tape hc => exact inv_resetWith hc moves tape
  | step s t _ hstep ih => exact stepKeepsInvariant s t ih hstep

/-- Settles O60: R45 is part of the invariant, and a tick stays between the position and the target. -/
theorem reachableServosAreSound : Obligations.ReachableServosAreSound := by
  intro s hreach e he
  obtain ⟨-, h⟩ := hreach.inv.servo_ok e he
  exact ⟨h.idle_iff_detached, ⟨h.current_low, h.current_high, h.target_low, h.target_high⟩,
    fun hm => ⟨h.not_past_target hm, h.tick_between hm⟩, h.at_rest, h.speed_finite, h.speed_nonneg⟩

/-- Settles O19: the host appends to `RX`, and the unit drops bytes from its front. -/
theorem receiveStreamIsFifo : Obligations.ReceiveStreamIsFifo := by
  intro s t hstep
  rcases step_effect hstep with ⟨b, moves, hagenda, rfl⟩ | ⟨hagenda, he⟩
  · exact .inl ⟨b, moves, hagenda, rfl⟩
  · exact .inr ⟨hagenda, he.rx⟩

/-- Settles O50: neither agent writes the handler registries or the configuration. -/
theorem registriesAreReadOnly : Obligations.RegistriesAreReadOnly := by
  intro s t hstep
  rcases step_effect hstep with ⟨b, moves, -, rfl⟩ | ⟨-, he⟩
  · exact ⟨rfl, rfl, rfl⟩
  · exact ⟨he.cmd, he.dev, he.config⟩

/-- Settles O51: work on a slot keeps the identity of the entry in it. -/
theorem instancesKeepIdentity : Obligations.InstancesKeepIdentity := by
  intro s t id a hstep ha
  rcases step_effect hstep with ⟨b, moves, -, rfl⟩ | ⟨-, he⟩
  · exact ⟨a, ha, rfl, rfl⟩
  · exact he.reg.keeps_identity ha

/-! ### The slots that an instruction does not address -/

theorem execConfigure_regGet_other {s t : State} {id other : U8} {cfg : ServoConfig} {u : U32} (hne : other ≠ id)
    (h : execConfigure id cfg u s = .next t) : regGet t.reg other = regGet s.reg other := by
  unfold execConfigure at h
  cases hget : regGet s.reg id with
  | none => rw [hget] at h; cases h; exact regGet_regPut_other _ _ hne
  | some inst => rw [hget] at h; cases h; exact regGet_regPut_other _ _ hne

theorem execSetTarget_regGet_other {s t : State} {id other : U8} {angle : U16} {u : U32} (hne : other ≠ id)
    (h : execSetTarget id angle u s = .next t) : regGet t.reg other = regGet s.reg other := by
  unfold execSetTarget at h
  cases hget : regGet s.reg id with
  | none => rw [hget] at h; cases h; rfl
  | some inst => rw [hget] at h; cases h; exact regGet_regPut_other _ _ hne

/-- Settles O32: each of the six works on the slot of the id it addresses. -/
theorem otherInstancesUntouched : Obligations.OtherInstancesUntouched := by
  intro s t i id other hne hi h
  rcases hi with ⟨payload, rfl, rfl⟩ | ⟨cfg, rfl⟩ | ⟨angle, rfl⟩ | ⟨cfg, u, rfl⟩ | ⟨angle, u, rfl⟩ | ⟨u, rfl⟩
  · cases h; exact (runPatch_worked payload s).complete.reg.regGet_other hne
  · cases h; exact (runPatch_worked (servoPayload s.config id cfg) s).complete.reg.regGet_other hne
  · cases h; exact (runAction_worked id angle s).complete.reg.regGet_other hne
  · exact execConfigure_regGet_other hne h
  · exact execSetTarget_regGet_other hne h
  · cases h; exact (tickAt_worked s id u).reg.regGet_other hne

end Sys2Proof.Machine
end

section
/-!
PROOFS. Registration in the two handler registries (10_state.md R37), and that no step reads the event history (R48).
-/

namespace Sys2Proof.Machine

open Sys2Proof

/-! ### Registration -/

/-- `register` of either handler registry, over the code of an entry (R37). -/
def registerEntry {α : Type} (code : α → U8) (r : List α) (d : α) : Bool × List α :=
  if r.any (fun e => code e == code d) then (false, r) else (true, r ++ [d])

theorem registerCommand_eq (r : List Command) (d : Command) : registerCommand r d = registerEntry Command.code r d := rfl

theorem registerDevice_eq (r : List Device) (d : Device) : registerDevice r d = registerEntry Device.code r d := rfl

theorem registerEntry_taken {α : Type} (code : α → U8) {r : List α} {d : α} (h : ∃ e ∈ r, code e = code d) :
    registerEntry code r d = (false, r) :=
  if_pos (by simpa using h)

theorem registerEntry_free {α : Type} (code : α → U8) {r : List α} {d : α} (h : ∀ e ∈ r, code e ≠ code d) :
    registerEntry code r d = (true, r ++ [d]) :=
  if_neg (by simpa using h)

/-- A first registration is found under its code, and every other code is found as before. -/
theorem find?_append_entry {α : Type} (code : α → U8) {r : List α} {d : α} (h : ∀ e ∈ r, code e ≠ code d) :
    (r ++ [d]).find? (fun e => code e == code d) = some d ∧
      ∀ x, x ≠ code d → (r ++ [d]).find? (fun e => code e == x) = r.find? fun e => code e == x := by
  refine ⟨?_, fun x hx => ?_⟩
  · have hnone : r.find? (fun e => code e == code d) = none := by simpa using h
    simp [List.find?_append, hnone]
  · simp [List.find?_append, hx.symm]

/-- Settles O57: the two registries register in the same way, over the codes of their entries. -/
theorem firstRegistrationWins : Obligations.FirstRegistrationWins := by
  refine ⟨fun r d => ⟨registerEntry_taken Command.code, fun hfree => ?_⟩,
    fun r d => ⟨registerEntry_taken Device.code, fun hfree => ?_⟩⟩
  · rw [registerCommand_eq, registerEntry_free _ hfree]
    exact ⟨rfl, find?_append_entry Command.code hfree⟩
  · rw [registerDevice_eq, registerEntry_free _ hfree]
    exact ⟨rfl, find?_append_entry Device.code hfree⟩

/-! ### The event history is written only -/

/-- A state with other events before its history. -/
def State.withPast (s : State) (before : List Event) : State := { s with hist := before ++ s.hist }

section

variable (s : State) (before : List Event)

@[simp] theorem State.withPast_config : (s.withPast before).config = s.config := rfl
@[simp] theorem State.withPast_seq : (s.withPast before).seq = s.seq := rfl
@[simp] theorem State.withPast_rx : (s.withPast before).rx = s.rx := rfl
@[simp] theorem State.withPast_cmd : (s.withPast before).cmd = s.cmd := rfl
@[simp] theorem State.withPast_dev : (s.withPast before).dev = s.dev := rfl
@[simp] theorem State.withPast_reg : (s.withPast before).reg = s.reg := rfl
@[simp] theorem State.withPast_agenda : (s.withPast before).agenda = s.agenda := rfl
@[simp] theorem State.withPast_now : (s.withPast before).now = s.now := rfl

/-! Each named update does the same to a state with another past. -/

theorem State.setSeq_withPast (q : Seq) : (s.withPast before).setSeq q = (s.setSeq q).withPast before := rfl

theorem State.record_withPast (e : Event) : (s.withPast before).record e = (s.record e).withPast before := by
  simp [State.record, State.withPast]

theorem State.sampled_withPast : (s.withPast before).sampled = s.sampled.withPast before := by
  cases s with | mk _ _ _ _ _ _ _ _ _ _ tape => cases tape <;> rfl

theorem reject_withPast (e : Event) : reject e (s.withPast before) = (false, (s.record e).withPast before) := by
  rw [reject, State.record_withPast]

theorem complete_withPast (code : U8) (b : Bool) :
    complete code (b, s.withPast before) = (complete code (b, s)).withPast before := by
  unfold complete
  rw [acksOf_congr (s.withPast_cmd before)]
  split <;> rfl

theorem upsert_withPast (d : Device) (id : U8) (cfg : ServoConfig) :
    upsert d id cfg (s.withPast before) = ((upsert d id cfg s).1, (upsert d id cfg s).2.withPast before) := by
  simp only [upsert, State.sampled_withPast, State.withPast_reg, State.withPast_config, State.withPast_now]
  cases regGet s.sampled.reg id with
  | none => rfl
  | some inst =>
    dsimp only
    split_ifs
    · exact reject_withPast _ _ _
    · cases s.sampled.config.patchUpdateMode <;> rfl

theorem runPatch_withPast (payload : List U8) :
    runPatch payload (s.withPast before) = ((runPatch payload s).1, (runPatch payload s).2.withPast before) := by
  unfold runPatch
  cases payload with
  | nil => exact reject_withPast _ _ _
  | cons target args =>
    simp only [State.withPast_dev]
    cases deviceAt s.dev target with
    | none => exact reject_withPast _ _ _
    | some d =>
      dsimp only
      split_ifs
      · rfl
      · exact reject_withPast _ _ _
      · exact reject_withPast _ _ _
      · exact upsert_withPast _ _ _ _ _

theorem runAction_withPast (id : U8) (angle : U16) :
    runAction id angle (s.withPast before) = ((runAction id angle s).1, (runAction id angle s).2.withPast before) := by
  simp only [runAction, addressed, State.withPast_reg, State.sampled_withPast, State.withPast_now]
  cases if id = 0 then none else regGet s.reg id with
  | none => exact reject_withPast _ _ _
  | some inst =>
    dsimp only
    split_ifs
    · exact reject_withPast _ _ _
    · rfl

theorem tickAt_withPast (id : U8) (t : U32) :
    tickAt (s.withPast before) id t = (tickAt s id t).withPast before := by
  simp only [tickAt, State.withPast_reg]
  cases regGet s.reg id <;> rfl

theorem sweep_withPast : sweep (s.withPast before) = (sweep s).withPast before := by
  have hticks (t : U32) (ids : List U8) : ∀ s' : State,
      ids.foldl (fun s'' id => tickAt s'' id t) (s'.withPast before) =
        (ids.foldl (fun s'' id => tickAt s'' id t) s').withPast before := by
    induction ids with
    | nil => exact fun _ => rfl
    | cons id ids ih => intro s'; rw [List.foldl_cons, tickAt_withPast, ih, List.foldl_cons]
  simp only [sweep, State.sampled_withPast, State.withPast_now, State.withPast_config, hticks, State.setSeq_withPast]

/-- The next state of an outcome, with other events before its history. -/
def nextWithPast (before : List Event) : Host.Outcome State Fault Refusal → Host.Outcome State Fault Refusal
  | .next t => .next (t.withPast before)
  | o => o

theorem dropCode_withPast (code : U8) : dropCode code (s.withPast before) = (dropCode code s).withPast before := by
  rw [dropCode, State.record_withPast]; rfl

theorem execConfigure_withPast (id : U8) (cfg : ServoConfig) (t : U32) :
    execConfigure id cfg t (s.withPast before) = nextWithPast before (execConfigure id cfg t s) := by
  simp only [execConfigure, State.withPast_reg]
  cases regGet s.reg id <;> rfl

theorem execSetTarget_withPast (id : U8) (angle : U16) (t : U32) :
    execSetTarget id angle t (s.withPast before) = nextWithPast before (execSetTarget id angle t s) := by
  simp only [execSetTarget, State.withPast_reg]
  cases regGet s.reg id <;> rfl

/-- No instruction reads the history. -/
theorem exec_withPast (i : Instr) : exec i (s.withPast before) = nextWithPast before (exec i s) := by
  cases i with
  | handshake => exact congrArg _ (complete_withPast (s.txPush _) before _ _)
  | ack => exact congrArg _ (complete_withPast s before _ _)
  | patch payload => simp only [exec, execPatch, State.withPast_config, runPatch_withPast, complete_withPast, nextWithPast]
  | patchServo id cfg =>
    simp only [exec, execPatchServo, State.withPast_config, runPatch_withPast, complete_withPast, nextWithPast]
  | action id angle =>
    simp only [exec, execAction, State.withPast_config, runAction_withPast, complete_withPast, nextWithPast]
  | reservedNul => exact congrArg _ (dropCode_withPast s before 0)
  | reservedLf => exact congrArg _ (dropCode_withPast s before 10)
  | reservedHash => exact congrArg _ (dropCode_withPast s before 35)
  | unassigned code => exact congrArg _ (dropCode_withPast s before code)
  | configure id cfg t => exact execConfigure_withPast s before id cfg t
  | setTarget id angle t => exact execSetTarget_withPast s before id angle t
  | tick id t => exact congrArg _ (tickAt_withPast s before id t)

/-- What a unit step comes to, with other events before the history of its state. -/
def Fetched.withPast (before : List Event) : Fetched → Fetched
  | .run i s => .run i (s.withPast before)
  | .moved s => .moved (s.withPast before)

theorem fetchPoll_withPast : fetchPoll (s.withPast before) = (fetchPoll s).withPast before := by
  simp only [fetchPoll, State.withPast_rx, State.withPast_cmd]
  cases s.rx with
  | nil => rfl
  | cons code rest =>
    dsimp only
    cases commandAt s.cmd code with
    | none => rfl
    | some hd =>
      dsimp only
      cases hd.size with
      | fixed n => dsimp only; split_ifs <;> rfl
      | _ => rfl

theorem fetchLength_withPast (hd : Command) :
    fetchLength hd (s.withPast before) = (fetchLength hd s).withPast before := by
  simp only [fetchLength, State.withPast_rx, State.record_withPast]
  cases s.rx with
  | nil => rfl
  | cons len rest => dsimp only; split_ifs <;> rfl

theorem fetchPayload_withPast (hd : Command) (n : U8) :
    fetchPayload hd n (s.withPast before) = (fetchPayload hd n s).withPast before := by
  simp only [fetchPayload, State.withPast_rx, State.record_withPast]
  split_ifs <;> rfl

theorem fetch_withPast : fetch (s.withPast before) = (fetch s).withPast before := by
  simp only [fetch, State.withPast_seq]
  cases s.seq with
  | poll => exact fetchPoll_withPast s before
  | waitLen hd => exact congrArg _ (fetchLength_withPast s before hd)
  | wait hd n => exact congrArg _ (fetchPayload_withPast s before hd n)
  | exec hd P len timedOut => rfl
  | sweep => exact congrArg _ (sweep_withPast s before)

theorem unitStep_withPast : unitStep (s.withPast before) = nextWithPast before (unitStep s) := by
  rw [unitStep, unitStep, fetch_withPast]
  cases fetch s with
  | run i s' => exact exec_withPast s' before i
  | moved s' => rfl

/-- No step reads the history, whichever agent moves. -/
theorem step_withPast : step (s.withPast before) = nextWithPast before (step s) := by
  by_cases hwf : s.config.wf
  · rw [step_eq_of_wf hwf, step_eq_of_wf (s := s.withPast before) hwf, State.withPast_agenda]
    cases s.agenda with
    | nil => exact unitStep_withPast s before
    | cons m rest =>
      cases m with
      | append b => rfl
      | unit => exact unitStep_withPast (s.setAgenda rest) before
  · rw [step_of_not_wf hwf, step_of_not_wf (s := s.withPast before) hwf]
    rfl

end

/-- Settles O54: a step commutes with putting other events before the history. -/
theorem historyIsNeverRead : Obligations.HistoryIsNeverRead := by
  intro s t before hstep
  change step (s.withPast before) = _
  rw [step_withPast, hstep]
  rfl

end Sys2Proof.Machine
end

section
/-!
PROOFS. What a step sends (20_memory.md R63; 30_encoding.md R105): `TX` is written in `S_EXEC` only, by the reply of a
HANDSHAKE or by the ACK that ends an execution.
-/

namespace Sys2Proof.Machine

open Sys2Proof

/-! ### What sends nothing -/

@[simp] theorem tickAt_tx (s : State) (id : U8) (t : U32) : (tickAt s id t).tx = s.tx := by
  cases hget : regGet s.reg id with
  | none => rw [tickAt_none hget]
  | some inst => rw [tickAt_some hget, State.putActed_tx]

@[simp] theorem sweep_tx (s : State) : (sweep s).tx = s.tx :=
  sweep_induction (fun t => t.tx = s.tx) s s.sampled_tx (fun s' id h => (tickAt_tx s' id s.now).trans h) fun _ h => h

/-- The sequencer's own steps send nothing (R131 to R137). -/
theorem SeqMove.tx {s t : State} (hm : SeqMove s t) : t.tx = s.tx := by
  cases hm with
  | sweep => exact sweep_tx s
  | _ => rfl

/-- The update of `REG` sends nothing: the ACK is not its own (R152). -/
theorem upsert_tx (d : Device) (id : U8) (cfg : ServoConfig) (s : State) : (upsert d id cfg s).2.tx = s.tx := by
  rcases upsert_cases d id cfg s with ⟨-, he⟩ | ⟨inst, -, ⟨-, he⟩ | ⟨-, -, he⟩ | ⟨-, -, he⟩⟩ <;> rw [he] <;>
    exact s.sampled_tx

theorem runPatch_tx (payload : List U8) (s : State) : (runPatch payload s).2.tx = s.tx := by
  rcases runPatch_cases payload s with ⟨-, he⟩ | ⟨target, args, -, ⟨-, he⟩ | ⟨d, -, hcase⟩⟩
  · rw [he]; rfl
  · rw [he]; rfl
  · rcases hcase with ⟨-, he⟩ | ⟨-, -, he⟩ | ⟨-, -, -, he⟩ | ⟨-, -, -, he⟩ <;> rw [he]
    · rfl
    · rfl
    · exact upsert_tx d _ _ s

theorem runAction_tx (id : U8) (angle : U16) (s : State) : (runAction id angle s).2.tx = s.tx := by
  rcases runAction_cases id angle s with ⟨-, he⟩ | ⟨inst, -, -, ⟨-, he⟩ | ⟨-, he⟩⟩ <;> rw [he]
  · rfl
  · rfl
  · exact s.sampled_tx

/-- A dropped code, whichever it is, is recorded and nothing else (R132). -/
theorem exec_droppedInstr (code : U8) (s : State) : exec (droppedInstr code) s = .next (dropCode code s) := by
  unfold droppedInstr
  split_ifs with hnul hlf hhash
  · rw [hnul]; rfl
  · rw [hlf]; rfl
  · rw [hhash]; rfl
  · rfl

/-! ### What sends a byte -/

/-- The end of an execution sends the ACK code or nothing (R152). -/
theorem complete_tx (code : U8) (r : Bool × State) :
    (complete code r).tx = r.2.tx ∨ (complete code r).tx = r.2.tx ++ [r.2.config.codeAck] := by
  unfold complete
  split
  · exact .inr rfl
  · exact .inl rfl

/-- An execution that leaves `TX` and the configuration, ended: nothing is sent, or the ACK code. -/
theorem complete_tx_of_eq {s : State} (code : U8) {r : Bool × State} (htx : r.2.tx = s.tx)
    (hconfig : r.2.config = s.config) :
    (complete code r).tx = s.tx ∨ (complete code r).tx = s.tx ++ [s.config.codeAck] := by
  rw [← htx, ← hconfig]
  exact complete_tx code r

/-- After a HANDSHAKE the reply is the one byte sent: its descriptor asks for no ACK (R172). -/
theorem complete_handshake_tx {s : State} (h : Booted s) :
    (complete s.config.codeHandshake (true, s.txPush s.config.codeHandshake)).tx = s.tx ++ [s.config.codeHandshake] := by
  have hacks : (s.txPush s.config.codeHandshake).acksOf s.config.codeHandshake = false := h.acks_handshake
  rw [complete_of_applied, hacks]
  rfl

/-- A handler sends at most one byte: the ACK code or the HANDSHAKE code (R105). -/
theorem exec_decodePayload_tx {s t : State} (hb : Booted s) (k : CommandKind) (P : List U8) (L : Nat)
    (h : exec (decodePayload s.config k P L) s = .next t) :
    t.tx = s.tx ∨ t.tx = s.tx ++ [s.config.codeAck] ∨ t.tx = s.tx ++ [s.config.codeHandshake] := by
  have hpatch (payload : List U8) :=
    complete_tx_of_eq s.config.codePatch (runPatch_tx payload s) (runPatch_worked payload s).config
  cases k with
  | handshake => cases h; exact .inr (.inr (complete_handshake_tx hb))
  | ack => cases h; exact (complete_tx _ _).imp_right .inl
  | patch =>
    simp only [decodePayload] at h
    split at h <;> cases h <;> exact (hpatch _).imp_right .inl
  | action =>
    cases h
    exact (complete_tx_of_eq _ (runAction_tx _ _ s) (runAction_worked _ _ s).config).imp_right .inl

theorem unitStep_tx {s t : State} (hb : Booted s) (h : unitStep s = .next t) :
    t.tx = s.tx ∨ (∃ hd P len b, s.seq = .exec hd P len b) ∧
      (t.tx = s.tx ++ [s.config.codeAck] ∨ t.tx = s.tx ++ [s.config.codeHandshake]) := by
  rcases unitStep_cases h with hmoved | ⟨i, s', hrun, hexec⟩
  · exact .inl (seqMove_of_fetch hmoved).tx
  · rcases fetch_run_cases hrun with ⟨code, rest, -, -, -, rfl, rfl⟩ | ⟨hd, P, len, b, hseq, rfl, rfl⟩
    · rw [exec_droppedInstr] at hexec
      cases hexec
      exact .inl rfl
    · exact (exec_decodePayload_tx hb hd.kind P len.toNat hexec).imp_right fun hsent => ⟨⟨hd, P, len, b, hseq⟩, hsent⟩

/-- Settles O53: the host does not write `TX`, and a unit step writes it in `S_EXEC` only. -/
theorem transmitsOnlyAckAndHandshake : Obligations.TransmitsOnlyAckAndHandshake := by
  intro s t hinv hstep
  obtain ⟨-, ⟨b, rest, -, rfl⟩ | ⟨rest, -, hunit⟩ | ⟨-, hunit⟩⟩ := step_cases hstep
  · exact .inl rfl
  · exact unitStep_tx (s := s.setAgenda rest) (hinv.booted.congr rfl rfl rfl) hunit
  · exact unitStep_tx hinv.booted hunit

end Sys2Proof.Machine
end

section
/-!
PROOFS. The statements of 30_encoding.md on the fields of a payload (R95) and on the codes that are dropped (R110, R111).
-/

namespace Sys2Proof

/-! ### A big-endian pair -/

/-- The value of a pair: the byte that arrives first counts 256 times (R62, R95). -/
theorem toNat_bytePair (b1 b2 : U8) : (b1 ++ b2 : U16).toNat = b1.toNat * 256 + b2.toNat := by
  rw [BitVec.toNat_append, ← Nat.shiftLeft_add_eq_or_of_lt b2.isLt, Nat.shiftLeft_eq]

/-- A pair goes out as it came in (R95). -/
theorem be16Bytes_bytePair (b1 b2 : U8) : be16Bytes (b1 ++ b2) = [b1, b2] := by
  rw [be16Bytes, BitVec.extractLsb'_append_eq_left, BitVec.extractLsb'_append_eq_right]

/-- A u16 field is the pair of the two bytes at its offset. -/
theorem be16_eq {P : List U8} {i : Nat} (h : i + 1 < P.length) : be16 P i = P[i] ++ P[i + 1] := by
  rw [be16, byteAt_eq (Nat.lt_of_succ_lt h), byteAt_eq h]

end Sys2Proof

namespace Sys2Proof.Machine

open Sys2Proof

@[simp] theorem memRead_one (P : List U8) (i : Nat) : memRead P i 1 = (byteAt P i).toNat := rfl

@[simp] theorem memRead_two (P : List U8) (i : Nat) : memRead P i 2 = (be16 P i).toNat := rfl

/-- Settles O4: the bytes below the payload's end are its own, and a pair loses nothing. -/
theorem bytePairsAreBigEndian : Obligations.BytePairsAreBigEndian := by
  intro P i
  refine ⟨fun h => by rw [memRead_one, byteAt_eq h], fun h => ?_⟩
  have hvalue : (be16 P i).toNat = P[i].toNat * 256 + P[i + 1].toNat := by rw [be16_eq h, toNat_bytePair]
  have hwire : be16Bytes (be16 P i) = [P[i], P[i + 1]] := by rw [be16_eq h, be16Bytes_bytePair]
  exact ⟨hvalue, (memRead_two P i).trans hvalue, hwire⟩

/-! ### Codes that are dropped -/

/-- What dropping a code writes: its event and `SEQ`, and nothing else (R110, R111). -/
theorem dropCode_eq (code : U8) (s : State) :
    dropCode code s = { s with hist := s.hist ++ [.unknownCode (some code)], seq := .sweep } := rfl

/-- The arm of an unassigned code drops the code it is given, whichever that is. -/
theorem exec_unassigned (code : U8) (s : State) : exec (.unassigned code) s = .next (dropCode code s) := rfl

/-- Settles O23: the reserved codes are the dropped instructions of 0, 10 and 35, and each code is dropped alike. -/
theorem droppedCodesAreRecorded : Obligations.DroppedCodesAreRecorded := by
  intro s
  simp only [← dropCode_eq]
  exact ⟨exec_droppedInstr 0 s, exec_droppedInstr 10 s, exec_droppedInstr 35 s, fun code => exec_unassigned code s⟩

end Sys2Proof.Machine
end

section
/-!
PROOFS. The steps of the sequencer (40_dispatch.md R130 to R136): what each state of `SEQ` comes to, and that every step
answers (R154).
-/

namespace Sys2Proof.Machine

open Sys2Proof

/-! ### What a step with no host move comes to -/

theorem step_of_no_agenda {s : State} (hwf : s.config.wf) (hagenda : s.agenda = []) : step s = unitStep s := by
  rw [step_eq_of_wf hwf, hagenda]

theorem step_of_moved {s t : State} (hwf : s.config.wf) (hagenda : s.agenda = []) (h : fetch s = .moved t) :
    step s = .next t := by
  rw [step_of_no_agenda hwf hagenda, unitStep, h]

theorem step_of_run {s s' : State} {i : Instr} (hwf : s.config.wf) (hagenda : s.agenda = []) (h : fetch s = .run i s') :
    step s = exec i s' := by
  rw [step_of_no_agenda hwf hagenda, unitStep, h]

theorem fetch_of_poll {s : State} (h : s.seq = .poll) : fetch s = fetchPoll s := by rw [fetch, h]

theorem fetch_of_waitLen {s : State} {hd : Command} (h : s.seq = .waitLen hd) :
    fetch s = .moved (fetchLength hd s) := by
  rw [fetch, h]

theorem fetch_of_wait {s : State} {hd : Command} {n : U8} (h : s.seq = .wait hd n) :
    fetch s = .moved (fetchPayload hd n s) := by
  rw [fetch, h]

theorem fetch_of_exec {s : State} {hd : Command} {P : List U8} {len : U8} {timedOut : Bool}
    (h : s.seq = .exec hd P len timedOut) : fetch s = .run (decodePayload s.config hd.kind P len.toNat) s := by
  rw [fetch, h]

theorem fetch_of_sweep {s : State} (h : s.seq = .sweep) : fetch s = .moved (sweep s) := by rw [fetch, h]

/-! ### Polling and framing (R131 to R136) -/

theorem fetchPoll_of_empty {s : State} (hrx : s.rx = []) : fetchPoll s = .moved (s.setSeq .sweep) := by
  rw [fetchPoll, hrx]

/-- Settles O8: the empty `RX` sends the poll on to the sweep. -/
theorem pollWithoutByte : Obligations.PollWithoutByte := by
  intro s hwf hagenda hseq hrx
  exact step_of_moved hwf hagenda ((fetch_of_poll hseq).trans (fetchPoll_of_empty hrx))

/-- A dispatch of at most 255 payload bytes puts them at the front of a buffer of 255 bytes (R24). -/
theorem beginExec_buffer {s : State} (hwf : s.config.wf) (hd : Command) {payload : List U8}
    (hlen : payload.length ≤ 255) (len : U8) (timedOut : Bool) :
    ∃ P, P.length = 255 ∧ P.take payload.length = payload ∧
      beginExec hd payload len timedOut s =
        { s with seq := .exec hd P len timedOut, drawCount := s.drawCount + (255 - payload.length) } := by
  refine ⟨_, ?_, List.take_left' rfl, beginExec_of_wf hd payload len timedOut hwf⟩
  rw [List.length_append, State.draws_length]
  omega

theorem fetchPoll_of_unassigned {s : State} {code : U8} {rest : List U8} (hrx : s.rx = code :: rest)
    (hcmd : commandAt s.cmd code = none) : fetchPoll s = .run (droppedInstr code) (s.setRx rest) := by
  simp only [fetchPoll, hrx, hcmd]

theorem fetchPoll_of_noPayload {s : State} {code : U8} {rest : List U8} {hd : Command} (hrx : s.rx = code :: rest)
    (hcmd : commandAt s.cmd code = some hd) (hsize : hd.size = .fixed 0) :
    fetchPoll s = .moved (beginExec hd [] 0 false (s.setRx rest)) := by
  simp only [fetchPoll, hrx, hcmd, hsize, if_true]

theorem fetchPoll_of_fixed {s : State} {code n : U8} {rest : List U8} {hd : Command} (hrx : s.rx = code :: rest)
    (hcmd : commandAt s.cmd code = some hd) (hsize : hd.size = .fixed n) (hn : n ≠ 0) :
    fetchPoll s = .moved ((s.setRx rest).setSeq (.wait hd n)) := by
  simp only [fetchPoll, hrx, hcmd, hsize, if_neg hn]

theorem fetchPoll_of_variable {s : State} {code : U8} {rest : List U8} {hd : Command} (hrx : s.rx = code :: rest)
    (hcmd : commandAt s.cmd code = some hd) (hsize : hd.size = .variable) :
    fetchPoll s = .moved ((s.setRx rest).setSeq (.waitLen hd)) := by
  simp only [fetchPoll, hrx, hcmd, hsize]

/-- Settles O9: what `CMD` gives for the code, and the framing class of its handler, say what the poll does. -/
theorem pollTakesOneCode : Obligations.PollTakesOneCode := by
  intro s code rest hwf hagenda hseq hrx
  have hfetch := fetch_of_poll hseq
  refine ⟨fun hcmd => ?_, fun hd hcmd hsize => ?_, fun hd n hcmd hsize hn => ?_, fun hd hcmd hsize => ?_⟩
  · rw [step_of_run hwf hagenda (hfetch.trans (fetchPoll_of_unassigned hrx hcmd)), exec_droppedInstr]
    rfl
  · obtain ⟨P, hlen, -, hbegin⟩ := beginExec_buffer (s := s.setRx rest) hwf hd (payload := []) (Nat.zero_le _) 0 false
    refine ⟨P, hlen, ?_⟩
    rw [step_of_moved hwf hagenda (hfetch.trans (fetchPoll_of_noPayload hrx hcmd hsize)), hbegin]
    rfl
  · exact step_of_moved hwf hagenda (hfetch.trans (fetchPoll_of_fixed hrx hcmd hsize hn))
  · exact step_of_moved hwf hagenda (hfetch.trans (fetchPoll_of_variable hrx hcmd hsize))

theorem fetchLength_of_zero {s : State} {hd : Command} {rest : List U8} (hrx : s.rx = 0 :: rest) :
    fetchLength hd s = beginExec hd [] 0 false (s.setRx rest) := by
  simp only [fetchLength, hrx, if_true]

theorem fetchLength_of_ne_zero {s : State} {hd : Command} {len : U8} {rest : List U8} (hrx : s.rx = len :: rest)
    (hlen : len ≠ 0) : fetchLength hd s = (s.setRx rest).setSeq (.wait hd len) := by
  simp only [fetchLength, hrx, if_neg hlen]

theorem fetchLength_of_empty {s : State} {hd : Command} (hrx : s.rx = []) :
    fetchLength hd s = beginExec hd [] 0 true (s.record (.readTimeout hd.code 1 0)) := by
  simp only [fetchLength, hrx]

/-- Settles O10: the front of `RX` is the length byte, and an empty `RX` is the timeout. -/
theorem lengthByteArrivesOrTimesOut : Obligations.LengthByteArrivesOrTimesOut := by
  intro s hd hwf hagenda hseq
  rw [step_of_moved hwf hagenda (fetch_of_waitLen hseq)]
  refine ⟨fun rest hrx => ?_, fun len rest hlen hrx => by rw [fetchLength_of_ne_zero hrx hlen]; rfl, fun hrx => ?_⟩
  · obtain ⟨P, hlen, -, hbegin⟩ := beginExec_buffer (s := s.setRx rest) hwf hd (payload := []) (Nat.zero_le _) 0 false
    exact ⟨P, hlen, by rw [fetchLength_of_zero hrx, hbegin]; rfl⟩
  · obtain ⟨P, hlen, -, hbegin⟩ := beginExec_buffer (s := s.record (.readTimeout hd.code 1 0)) hwf hd (payload := [])
      (Nat.zero_le _) 0 true
    exact ⟨P, hlen, by rw [fetchLength_of_empty hrx, hbegin]; rfl⟩

/-- Settles O11: the payload is there when `RX` holds `n` bytes, and else the wait times out. -/
theorem payloadArrivesOrTimesOut : Obligations.PayloadArrivesOrTimesOut := by
  intro s hd n hwf hagenda hseq
  rw [step_of_moved hwf hagenda (fetch_of_wait hseq), fetchPayload]
  refine ⟨fun hlong => ?_, fun hshort => ?_⟩
  · have hn : (s.rx.take n.toNat).length = n.toNat := List.length_take_of_le hlong
    obtain ⟨P, hlen, htake, hbegin⟩ := beginExec_buffer (s := s.setRx (s.rx.drop n.toNat)) hwf hd
      (payload := s.rx.take n.toNat) (by have := n.isLt; omega) n false
    rw [hn] at htake hbegin
    exact ⟨P, hlen, htake, by rw [if_neg (not_lt.2 hlong), hbegin]; rfl⟩
  · obtain ⟨P, hlen, -, hbegin⟩ := beginExec_buffer (s := s.record (.readTimeout hd.code n.toNat s.rx.length)) hwf hd
      (payload := []) (Nat.zero_le _) n true
    exact ⟨P, hlen, by rw [if_pos hshort, hbegin]; rfl⟩

/-! ### Every step goes on, in the order of `SEQ` -/

/-- No instruction faults or is refused (R154, R274). -/
theorem exec_answers (i : Instr) (s : State) : ∃ t, exec i s = .next t := by
  cases i with
  | configure id cfg t => simp only [exec, execConfigure]; split <;> exact ⟨_, rfl⟩
  | setTarget id angle t => simp only [exec, execSetTarget]; split <;> exact ⟨_, rfl⟩
  | _ => exact ⟨_, rfl⟩

theorem unitStep_answers (s : State) : ∃ t, unitStep s = .next t := by
  unfold unitStep
  cases fetch s with
  | run i s' => exact exec_answers i s'
  | moved t => exact ⟨t, rfl⟩

/-- Settles O15: an append answers, and so does a unit step, whether the agenda names it or not. -/
theorem everyStepAnswersNext : Obligations.EveryStepAnswersNext := by
  intro s hwf
  rw [step_eq_of_wf hwf]
  cases s.agenda with
  | nil => exact unitStep_answers s
  | cons m rest =>
    cases m with
    | append b => exact ⟨_, rfl⟩
    | unit => exact unitStep_answers _

/-- The sequencer's own steps move `SEQ` on in its order (R23). -/
theorem SeqMove.follows {s t : State} (hm : SeqMove s t) : s.seq.follows t.seq = true := by
  cases hm with
  | noByte hq | noPayload _ _ _ hq | fixedPayload _ _ _ hq | variablePayload _ _ _ hq | lengthTimeout _ hq
  | lengthZero _ _ hq | length _ _ _ hq | payloadTimeout _ _ hq | payload _ _ hq | sweep hq => rw [hq]; rfl

theorem unitStep_follows {s t : State} (h : unitStep s = .next t) : s.seq.follows t.seq = true := by
  rcases unitStep_cases h with hmoved | ⟨i, s', hrun, hexec⟩
  · exact (seqMove_of_fetch hmoved).follows
  · rw [exec_seq (fetch_run_onWire hrun).1 hexec]
    rcases fetch_run_cases hrun with ⟨code, rest, hq, -⟩ | ⟨hd, P, len, b, hq, -⟩ <;> rw [hq] <;> rfl

/-- Settles O17: an append leaves `SEQ`, and a unit step moves it on. -/
theorem sequencerKeepsOrder : Obligations.SequencerKeepsOrder := by
  intro s t hstep
  obtain ⟨-, ⟨b, rest, hagenda, rfl⟩ | ⟨rest, -, hunit⟩ | ⟨-, hunit⟩⟩ := step_cases hstep
  · exact .inl ⟨b, rest, hagenda, rfl⟩
  · exact .inr (unitStep_follows (s := s.setAgenda rest) hunit)
  · exact .inr (unitStep_follows hunit)

end Sys2Proof.Machine
end

section
/-!
PROOFS. The tick sweep (40_dispatch.md R137) and the iteration from a quiescent state (R156).
-/

namespace Sys2Proof.Machine

open Sys2Proof

/-! ### The tick sweep -/

/-- What the tick at a clock sample makes of an entry of `REG` (R225). -/
def tickInstance (c : Config) (t : U32) (inst : Instance) : Instance :=
  { inst with servo := (tickServo c inst.servo t).servo }

/-- The requests of the tick of an entry of `REG`, each with the entry's id (R290). -/
def tickRequests (c : Config) (t : U32) (e : U8 × Instance) : List (U8 × Request) :=
  (tickServo c e.2.servo t).out.map fun r => (e.1, r)

theorem regGet_eq_none {r : List (U8 × Instance)} {id : U8} (h : ∀ e ∈ r, e.1 ≠ id) : regGet r id = none := by
  cases hget : regGet r id with
  | none => rfl
  | some v => exact absurd rfl (h _ (mem_of_regGet hget))

theorem regGet_append_of_lt {r r' : List (U8 × Instance)} {id : U8} (h : ∀ e ∈ r, e.1 < id) :
    regGet (r ++ r') id = regGet r' id := by
  induction r with
  | nil => rfl
  | cons e r ih =>
    rw [List.forall_mem_cons] at h
    rw [List.cons_append, regGet_cons, if_neg (BitVec.ne_of_lt h.1), ih h.2]

theorem regPut_append_of_lt {r r' : List (U8 × Instance)} {id : U8} (h : ∀ e ∈ r, e.1 < id) (v : Instance) :
    regPut (r ++ r') id v = r ++ regPut r' id v := by
  induction r with
  | nil => rfl
  | cons e r ih =>
    rw [List.forall_mem_cons] at h
    rw [List.cons_append, regPut, if_neg (BitVec.not_lt.2 (BitVec.le_of_lt h.1)), if_neg (BitVec.ne_of_lt h.1).symm,
      ih h.2, List.cons_append]

theorem regGet_map (f : Instance → Instance) (r : List (U8 × Instance)) (id : U8) :
    regGet (r.map fun e => (e.1, f e.2)) id = (regGet r id).map f := by
  induction r with
  | nil => rfl
  | cons e r ih =>
    rw [List.map_cons, regGet_cons, regGet_cons, ih]
    split <;> rfl

/-- In a registry of rising ids, the entry of the least one comes first. -/
theorem exists_eq_cons_of_least {r : List (U8 × Instance)} {id : U8} {v : Instance}
    (hsorted : (r.map Prod.fst).Pairwise (· < ·)) (hleast : ∀ e ∈ r, id ≤ e.1) (hmem : (id, v) ∈ r) :
    ∃ rest, r = (id, v) :: rest := by
  cases r with
  | nil => cases hmem
  | cons first rest =>
    rcases List.mem_cons.1 hmem with rfl | hmem
    · exact ⟨rest, rfl⟩
    · have hlt : first.1 < id := (List.pairwise_cons.1 hsorted).1 _ (List.mem_map_of_mem hmem)
      exact absurd hlt (BitVec.not_lt.2 (hleast first List.mem_cons_self))

/-- A tick at the first entry behind smaller ids: that entry is ticked where it stands. -/
theorem tickAt_append_cons {s : State} {before rest : List (U8 × Instance)} {e : U8 × Instance} (t : U32)
    (hreg : s.reg = before ++ e :: rest) (hbefore : ∀ b ∈ before, b.1 < e.1) :
    tickAt s e.1 t =
      { s with reg := before ++ (e.1, tickInstance s.config t e.2) :: rest
               requests := s.requests ++ tickRequests s.config t e } := by
  have hget : regGet s.reg e.1 = some e.2 := by
    rw [hreg, regGet_append_of_lt hbefore, regGet_cons, if_pos rfl]
  have hput (v : Instance) : regPut s.reg e.1 v = before ++ (e.1, v) :: rest := by
    rw [hreg, regPut_append_of_lt hbefore, regPut, if_neg (BitVec.lt_irrefl _), if_pos rfl]
  rw [tickAt_some hget, State.putActed, hput]
  rfl

/-- Ticks at rising ids that cover the entries of `todo`, behind entries of smaller ids: each entry of `todo` is ticked
once, in their order, and the rest of the state stays. -/
theorem foldl_tickAt (t : U32) {ids : List U8} (hids : ids.Pairwise (· < ·)) {s : State}
    {before todo : List (U8 × Instance)} (hreg : s.reg = before ++ todo) (hbefore : ∀ e ∈ before, ∀ id ∈ ids, e.1 < id)
    (htodo : (todo.map Prod.fst).Pairwise (· < ·)) (hcover : ∀ e ∈ todo, e.1 ∈ ids) :
    ids.foldl (fun s' id => tickAt s' id t) s =
      { s with reg := before ++ todo.map fun e => (e.1, tickInstance s.config t e.2)
               requests := s.requests ++ todo.flatMap (tickRequests s.config t) } := by
  induction ids generalizing s before todo with
  | nil =>
    have hempty : todo = [] := List.eq_nil_iff_forall_not_mem.2 fun e he => by simpa using hcover e he
    subst hempty
    rw [List.foldl_nil, List.map_nil, List.flatMap_nil, ← hreg, List.append_nil]
  | cons id ids ih =>
    obtain ⟨hlt, hids⟩ := List.pairwise_cons.1 hids
    have hid : ∀ e ∈ before, e.1 < id := fun e he => hbefore e he id List.mem_cons_self
    have hbefore' : ∀ e ∈ before, ∀ k ∈ ids, e.1 < k := fun e he k hk => hbefore e he k (List.mem_cons_of_mem _ hk)
    rw [List.foldl_cons]
    by_cases hfound : ∃ inst, (id, inst) ∈ todo
    · obtain ⟨inst, hmem⟩ := hfound
      have hleast : ∀ e ∈ todo, id ≤ e.1 := fun e he =>
        (List.mem_cons.1 (hcover e he)).elim (fun h => h ▸ BitVec.le_refl _) fun h => BitVec.le_of_lt (hlt _ h)
      obtain ⟨rest, rfl⟩ := exists_eq_cons_of_least htodo hleast hmem
      obtain ⟨hgt, hrest⟩ := List.pairwise_cons.1 htodo
      have hcover' : ∀ e ∈ rest, e.1 ∈ ids := fun e he =>
        (List.mem_cons.1 (hcover e (List.mem_cons_of_mem _ he))).resolve_left
          (BitVec.ne_of_lt (hgt _ (List.mem_map_of_mem he))).symm
      have hdone : ∀ e ∈ before ++ [(id, tickInstance s.config t inst)], ∀ k ∈ ids, e.1 < k := by
        intro e he k hk
        rcases List.mem_append.1 he with he | he
        · exact hbefore' e he k hk
        · rw [List.mem_singleton.1 he]; exact hlt k hk
      rw [tickAt_append_cons t hreg hid, ih hids (List.append_cons _ _ _) hdone hrest hcover']
      simp
    · have hne : ∀ e ∈ todo, e.1 ≠ id := by
        rintro ⟨k, inst⟩ he rfl
        exact hfound ⟨inst, he⟩
      have hnone : regGet s.reg id = none := by rw [hreg, regGet_append_of_lt hid, regGet_eq_none hne]
      have hcover' : ∀ e ∈ todo, e.1 ∈ ids := fun e he => (List.mem_cons.1 (hcover e he)).resolve_left (hne e he)
      rw [tickAt_none hnone, ih hids hreg hbefore' htodo hcover']

/-- What the sweep leaves: each entry ticked at one clock sample, the requests in the order of `REG`, `S_POLL`, and
nothing else changed (R137). -/
theorem sweep_eq {s : State} (hwf : s.config.wf) (hreg : RegWf s.reg) :
    sweep s =
      { s.sampled with
        seq := .poll
        reg := s.reg.map fun e => (e.1, tickInstance s.config s.now e.2)
        requests := s.requests ++ s.reg.flatMap (tickRequests s.config s.now) } := by
  obtain ⟨hsorted, hnonzero⟩ := hreg
  have hcover : ∀ e ∈ s.reg, e.1 ∈ sweepIds s.config := fun e he => (mem_sweepIds hwf e.1).2 (hnonzero e he).1
  rw [sweep, foldl_tickAt (before := []) s.now (sweepIds_sorted s.config) s.sampled_reg (by simp) hsorted hcover]
  simp [State.setSeq]

/-- Settles O16: the sweep is the tick of every entry of `REG` at one sample. -/
theorem sweepTicksEveryInstanceOnce : Obligations.SweepTicksEveryInstanceOnce := by
  intro s hwf hagenda hseq hreg
  refine ⟨sweep s, step_of_moved hwf hagenda (fetch_of_sweep hseq), ?_⟩
  rw [sweep_eq hwf hreg]
  exact ⟨rfl, regGet_map (tickInstance s.config s.now) s.reg, rfl⟩

/-! ### A quiescent iteration -/

theorem State.sampled_setSeq (s : State) (q : Seq) : (s.setSeq q).sampled = s.sampled.setSeq q := by
  unfold State.sampled; rw [State.setSeq_clockTape]; split <;> rfl

/-- The tick of a servo at rest writes `last_tick` (R226). -/
theorem tickInstance_of_idle {c : Config} {inst : Instance} (t : U32) (h : inst.servo.phase = .idle) :
    tickInstance c t inst = { inst with servo := { inst.servo with lastTick := t } } := by
  rw [tickInstance, tickServo_of_idle h, Acted.start]

theorem tickRequests_of_idle {c : Config} {e : U8 × Instance} (t : U32) (h : e.2.servo.phase = .idle) :
    tickRequests c t e = [] := by
  rw [tickRequests, tickServo_of_idle h, Acted.start, List.map_nil]

/-- The sweep of instances at rest: `last_tick` of each is the sample, and no request is made (R137, R226). -/
theorem sweep_of_idle {s : State} (hwf : s.config.wf) (hreg : RegWf s.reg)
    (hidle : ∀ e ∈ s.reg, e.2.servo.phase = .idle) :
    sweep s =
      { s.sampled with
        seq := .poll
        reg := s.reg.map fun e => (e.1, { e.2 with servo := { e.2.servo with lastTick := s.now } }) } := by
  have hticked : (s.reg.map fun e => (e.1, tickInstance s.config s.now e.2)) =
      s.reg.map fun e => (e.1, { e.2 with servo := { e.2.servo with lastTick := s.now } }) :=
    List.map_congr_left fun e he => by rw [tickInstance_of_idle s.now (hidle e he)]
  have hsilent : s.reg.flatMap (tickRequests s.config s.now) = [] :=
    List.flatMap_eq_nil_iff.2 fun e he => tickRequests_of_idle s.now (hidle e he)
  rw [sweep_eq hwf hreg, hticked, hsilent, List.append_nil, ← State.sampled_requests]

/-- Settles O20: the first step finds no byte, and the second sweeps instances at rest. -/
theorem quiescentIterationOnlyTicks : Obligations.QuiescentIterationOnlyTicks := by
  rintro s hwf hagenda hreg ⟨hseq, hrx, hidle⟩
  have hpoll : step s = .next (s.setSeq .sweep) := pollWithoutByte s hwf hagenda hseq hrx
  have hsweep : step (s.setSeq .sweep) = .next (sweep (s.setSeq .sweep)) :=
    step_of_moved hwf hagenda (fetch_of_sweep rfl)
  have hrun : Host.Core.run Sys2Proof.core 2 s = .next (sweep (s.setSeq .sweep)) :=
    (run_succ_of_next 1 hpoll).trans ((run_one _).trans hsweep)
  refine ⟨_, hrun, ?_⟩
  rw [sweep_of_idle (s := s.setSeq .sweep) hwf hreg hidle, State.sampled_setSeq]
  refine ⟨?_, ⟨rfl, ?_, ?_⟩, ?_⟩
  · rw [← hseq, ← State.sampled_seq]; rfl
  · exact (State.sampled_rx s).trans hrx
  · exact List.forall_mem_map.2 hidle
  · exact regGet_map (fun inst => { inst with servo := { inst.servo with lastTick := s.now } }) s.reg

end Sys2Proof.Machine
end

section
/-!
PROOFS. The end of an execution (40_dispatch.md): it does not depend on `SEQ` (R138), and the ACK goes with
what was applied (R152; 60_exceptions.md R275).
-/

namespace Sys2Proof.Machine

open Sys2Proof

/-! ### An execution does not read `SEQ` -/

theorem upsert_setSeq (d : Device) (id : U8) (cfg : ServoConfig) (s : State) (q : Seq) :
    upsert d id cfg (s.setSeq q) = ((upsert d id cfg s).1, (upsert d id cfg s).2.setSeq q) := by
  simp only [upsert, State.sampled_setSeq, State.setSeq_reg, State.setSeq_config]
  cases regGet s.sampled.reg id with
  | none => rfl
  | some inst =>
    dsimp only
    split_ifs
    · rfl
    · cases s.sampled.config.patchUpdateMode <;> rfl

theorem runPatch_setSeq (payload : List U8) (s : State) (q : Seq) :
    runPatch payload (s.setSeq q) = ((runPatch payload s).1, (runPatch payload s).2.setSeq q) := by
  cases payload with
  | nil => rfl
  | cons target args =>
    simp only [runPatch, State.setSeq_dev]
    cases deviceAt s.dev target with
    | none => rfl
    | some d =>
      dsimp only
      split_ifs
      · rfl
      · rfl
      · rfl
      · exact upsert_setSeq _ _ _ s q

theorem runAction_setSeq (id : U8) (angle : U16) (s : State) (q : Seq) :
    runAction id angle (s.setSeq q) = ((runAction id angle s).1, (runAction id angle s).2.setSeq q) := by
  simp only [runAction, addressed, State.setSeq_reg, State.sampled_setSeq]
  cases if id = 0 then none else regGet s.reg id with
  | none => rfl
  | some inst => dsimp only; split_ifs <;> rfl

/-- The end of an execution writes `SEQ` over (R138). -/
theorem complete_setSeq (code : U8) (b : Bool) (s : State) (q : Seq) :
    complete code (b, s.setSeq q) = complete code (b, s) := by
  unfold complete
  rw [acksOf_congr (s.setSeq_cmd q)]
  split <;> rfl

theorem exec_setSeq {i : Instr} (hi : i.onWire = true) (s : State) (q : Seq) : exec i (s.setSeq q) = exec i s := by
  cases i with
  | handshake => exact congrArg Host.Outcome.next (complete_setSeq _ _ (s.txPush _) q)
  | ack => exact congrArg Host.Outcome.next (complete_setSeq _ _ s q)
  | patch payload => simp only [exec, execPatch, State.setSeq_config, runPatch_setSeq, complete_setSeq]
  | patchServo id cfg => simp only [exec, execPatchServo, State.setSeq_config, runPatch_setSeq, complete_setSeq]
  | action id angle => simp only [exec, execAction, State.setSeq_config, runAction_setSeq, complete_setSeq]
  | reservedNul => rfl
  | reservedLf => rfl
  | reservedHash => rfl
  | unassigned code => rfl
  | configure => simp [Instr.onWire] at hi
  | setTarget => simp [Instr.onWire] at hi
  | tick => simp [Instr.onWire] at hi

/-- The step from `S_EXEC` runs the handler's instruction as from any other `SEQ`, the timeout flag left out (R138). -/
theorem step_of_exec (s : State) (hd : Command) (P : List U8) (len : U8) (timedOut : Bool) (hwf : s.config.wf)
    (hagenda : s.agenda = []) :
    step (s.setSeq (.exec hd P len timedOut)) = exec (decodePayload s.config hd.kind P len.toNat) s := by
  rw [step_of_run (s := s.setSeq (.exec hd P len timedOut)) hwf hagenda (fetch_of_exec rfl), State.setSeq_config,
    exec_setSeq (decodePayload_onWire _ _ _ _)]

/-- Settles O18: both steps are the execution of one instruction. -/
theorem timedOutFlagIsIgnored : Obligations.TimedOutFlagIsIgnored := by
  intro s hd P len hwf hagenda
  exact (step_of_exec s hd P len true hwf hagenda).trans (step_of_exec s hd P len false hwf hagenda).symm

/-! ### The ACK (R152, R275) -/

/-- The result of a handler that applied and recorded no event, or rejected with one event and left `REG` and the
requests (R275). -/
def AppliedOrRejected (s : State) (r : Bool × State) : Prop :=
  r.1 = true ∧ r.2.hist = s.hist ∨
    r.1 = false ∧ r.2.reg = s.reg ∧ r.2.requests = s.requests ∧ ∃ e, r.2.hist = s.hist ++ [e]

theorem appliedOrRejected_reject (e : Event) (s : State) : AppliedOrRejected s (reject e s) :=
  .inr ⟨rfl, rfl, rfl, e, rfl⟩

theorem upsert_appliedOrRejected (d : Device) (id : U8) (cfg : ServoConfig) (s : State) :
    AppliedOrRejected s (upsert d id cfg s) := by
  rcases upsert_cases d id cfg s with ⟨-, he⟩ | ⟨inst, -, ⟨-, he⟩ | ⟨-, -, he⟩ | ⟨-, -, he⟩⟩ <;> rw [he]
  · exact .inl ⟨rfl, s.sampled_hist⟩
  · exact .inr ⟨rfl, s.sampled_reg, s.sampled_requests, _, congrArg (· ++ _) s.sampled_hist⟩
  · exact .inl ⟨rfl, s.sampled_hist⟩
  · exact .inl ⟨rfl, s.sampled_hist⟩

/-- The boot registers runnable devices only, so PATCH of another kind of target does not arise (R36, R179). -/
theorem Booted.device_runnable {s : State} (h : Booted s) {d : Device} (hd : d ∈ s.dev) : d.runnable = true := by
  rw [h.devices, bootDevices_eq, List.mem_singleton] at hd
  rw [hd, servoDevice]

theorem runPatch_appliedOrRejected {s : State} (hb : Booted s) (payload : List U8) :
    AppliedOrRejected s (runPatch payload s) := by
  rcases runPatch_cases payload s with ⟨-, he⟩ | ⟨target, args, -, ⟨-, he⟩ | ⟨d, hd, hcase⟩⟩
  · rw [he]; exact appliedOrRejected_reject _ s
  · rw [he]; exact appliedOrRejected_reject _ s
  · have hrunnable := hb.device_runnable (List.mem_of_find?_eq_some hd)
    rcases hcase with ⟨hnot, -⟩ | ⟨-, -, he⟩ | ⟨-, -, -, he⟩ | ⟨-, -, -, he⟩
    · rw [hrunnable] at hnot; cases hnot
    · rw [he]; exact appliedOrRejected_reject _ s
    · rw [he]; exact appliedOrRejected_reject _ s
    · rw [he]; exact upsert_appliedOrRejected d _ _ s

theorem runAction_appliedOrRejected (id : U8) (angle : U16) (s : State) :
    AppliedOrRejected s (runAction id angle s) := by
  rcases runAction_cases id angle s with ⟨-, he⟩ | ⟨inst, -, -, ⟨-, he⟩ | ⟨-, he⟩⟩ <;> rw [he]
  · exact appliedOrRejected_reject _ s
  · exact appliedOrRejected_reject _ s
  · exact .inl ⟨rfl, s.sampled_hist⟩

/-- The end of an acknowledged command, whose work left `TX`: the ACK where it applied, and none where it rejected. -/
theorem AppliedOrRejected.complete {s : State} {code : U8} {r : Bool × State} (h : AppliedOrRejected s r) {id : U8}
    (hacks : s.acksOf code = true) (hw : Worked id s r.2) (htx : r.2.tx = s.tx) :
    ((complete code r).tx = s.tx ++ [s.config.codeAck] ∧ (complete code r).hist = s.hist) ∨
      ((complete code r).tx = s.tx ∧ (complete code r).reg = s.reg ∧ (complete code r).requests = s.requests ∧
        ∃ e, (complete code r).hist = s.hist ++ [e]) := by
  obtain ⟨applied, u⟩ := r
  rcases h with ⟨happlied, hhist⟩ | ⟨hrejected, hreg, hrequests, hhist⟩
  · cases happlied
    rw [complete_of_applied, acksOf_congr hw.cmd, hacks, if_pos rfl, hw.config]
    exact .inl ⟨congrArg (· ++ _) htx, hhist⟩
  · cases hrejected
    exact .inr ⟨htx, hreg, hrequests, hhist⟩

/-- Settles O31: PATCH, in either form, and ACTION are acknowledged commands that apply or reject. -/
theorem ackExactlyWhenApplied : Obligations.AckExactlyWhenApplied := by
  intro s t i hb hi h
  have hpatch (payload : List U8) :=
    (runPatch_appliedOrRejected hb payload).complete hb.acks_patch (runPatch_worked payload s) (runPatch_tx payload s)
  rcases hi with ⟨payload, rfl⟩ | ⟨id, cfg, rfl⟩ | ⟨id, angle, rfl⟩
  · cases h; exact hpatch payload
  · cases h; exact hpatch (servoPayload s.config id cfg)
  · cases h
    exact (runAction_appliedOrRejected id angle s).complete hb.acks_action (runAction_worked id angle s)
      (runAction_tx id angle s)

end Sys2Proof.Machine
end

section
/-!
PROOFS. What each message does (41_commands.md), with its whole next state: HANDSHAKE and ACK (R170, R172), the outcomes
of PATCH (R176 to R183) and of ACTION (R190, R191).
-/

namespace Sys2Proof.Machine

open Sys2Proof

/-! ### The end of an execution, as a whole state (R138, R152) -/

/-- An acknowledged command sends the ACK where it applied, and moves `SEQ`; its flag is read in `CMD`, which the work
of the command leaves as it was in `s` (R152). -/
theorem complete_of_acks {s u : State} {code : U8} (hacks : s.acksOf code = true) (hcmd : u.cmd = s.cmd)
    (applied : Bool) :
    complete code (applied, u) =
      { u with seq := .sweep, tx := u.tx ++ if applied then [u.config.codeAck] else [] } := by
  cases applied with
  | true => rw [complete_of_applied, acksOf_congr hcmd, if_pos hacks]; rfl
  | false => rw [complete_of_not_applied, if_neg Bool.false_ne_true, List.append_nil]; rfl

/-- A command that asks for no ACK only moves `SEQ`. -/
theorem complete_of_no_acks {s : State} {code : U8} (hacks : s.acksOf code = false) :
    complete code (true, s) = { s with seq := .sweep } := by
  rw [complete_of_applied, hacks]
  rfl

/-- A rejection ends with its event and no ACK (R275). -/
theorem complete_reject (code : U8) (e : Event) (s : State) :
    complete code (reject e s) = { s with hist := s.hist ++ [e], seq := .sweep } := rfl

/-- The end of an execution leaves `REG` as the work left it. -/
@[simp] theorem complete_reg (code : U8) (r : Bool × State) : (complete code r).reg = r.2.reg := by
  unfold complete
  split <;> rfl

/-- Settles O21: the reply is HANDSHAKE's own, and its descriptor asks for no ACK. -/
theorem handshakeRepliesWithItsCode : Obligations.HandshakeRepliesWithItsCode := by
  intro s hb
  have hacks : (s.txPush s.config.codeHandshake).acksOf s.config.codeHandshake = false := hb.acks_handshake
  exact congrArg Host.Outcome.next (complete_of_no_acks hacks)

/-- Settles O22: the descriptor of ACK asks for no ACK. -/
theorem ackIsNotAnswered : Obligations.AckIsNotAnswered :=
  fun _ hb => congrArg Host.Outcome.next (complete_of_no_acks hb.acks_ack)

/-! ### `configure` and `set_target`, as whole servos (R220, R222, R223) -/

/-- `configure` writes every register and makes two requests, whatever the servo was (R220). -/
theorem configureServo_eq {c : Config} (hc : c.wf) (s : Servo) (cfg : ServoConfig) (t : U32) :
    configureServo c s cfg t = ⟨configuredServo c cfg t, [.attach cfg.pin, .writePulse (defaultPulse c cfg)]⟩ := by
  simp only [configureServo, toPulse_eq hc]
  rfl

theorem configureAt_eq {s : State} (hc : s.config.wf) (id : U8) (inst : Instance) (cfg : ServoConfig) (t : U32) :
    configureAt s id inst cfg t =
      s.withServo id inst (configuredServo s.config cfg t) (configureRequests s.config id cfg) := by
  rw [configureAt, configureServo_eq hc]
  rfl

/-- A new instance is configured like one that exists, and its free registers are one draw (R180, R301). -/
theorem createAt_eq {s : State} (hc : s.config.wf) (kind : DeviceKind) (id : U8) (cfg : ServoConfig) (t : U32) :
    createAt s kind id cfg t =
      (s.drawn 1).withServo id (newInstance kind id s) (configuredServo s.config cfg t)
        (configureRequests s.config id cfg) :=
  configureAt_eq (s := s.drawn 1) hc id (newInstance kind id s) cfg t

/-- `set_target` makes no request but the attach of a detached actuator (R222, D25). -/
theorem setTargetServo_out (c : Config) (s : Servo) (angle : U16) (t : U32) :
    (setTargetServo c s angle t).out = if s.attached then [] else [.attach s.pin] := by
  simp only [setTargetServo, start_reattach_eq]
  split <;> rfl

/-- The deceleration point of a servo that is turned to its goal, by where the goal lies (R223). -/
theorem decelPointOf_of_directed {s : Servo} (h : s.direction = directionTo s.goal s.current) :
    decelPointOf s =
      if s.goal.lt s.current then s.goal.add (brakingOffset s) else s.goal.sub (brakingOffset s) := by
  rw [decelPointOf_eq, h, directionTo]
  split_ifs <;> rfl

/-- The servo that `set_target` leaves is the one that R222 and R223 write out: its target is the formula of R213 at the
clamped angle, and with bounded acceleration its deceleration point is the one of its new direction. -/
theorem setTargetServo_servo_eq {c : Config} (hc : c.wf) (s : Servo) (angle : U16) (t : U32) :
    (setTargetServo c s angle t).servo = aimedServo c s angle t := by
  have htarget : targetOf c s angle =
      BitVec.ofNat 16 (pulseNat c s.tmin s.tmax (clampNat angle.toNat s.userMin.toNat s.userMax.toNat)) := by
    rw [targetOf_eq, toPulse_eq hc]
  rw [setTargetServo_servo, aimedServo]
  split
  · simp only [turnedServo, htarget]
    rfl
  · rw [decelPointOf_of_directed (s := turnedServo c s angle t) rfl]
    simp only [turnedServo, htarget]
    rfl

theorem setTargetAt_eq {s : State} (hc : s.config.wf) (id : U8) (inst : Instance) (angle : U16) (t : U32) :
    setTargetAt s id inst angle t =
      s.withServo id inst (aimedServo s.config inst.servo angle t) (aimRequests id inst.servo) := by
  rw [setTargetAt, State.putActed, setTargetServo_servo_eq hc, setTargetServo_out, State.withServo, aimRequests]
  cases inst.servo.attached <;> rfl

/-! ### PATCH, check by check (R176 to R179) -/

theorem runPatch_of_no_device {s : State} {target : U8} (args : List U8) (h : deviceAt s.dev target = none) :
    runPatch (target :: args) s = reject (.unknownCode (some target)) s := by
  simp only [runPatch, h]

/-- The model's choice of log 12 for a target that is not runnable (R179). -/
theorem runPatch_of_not_runnable {s : State} {target : U8} {d : Device} (args : List U8)
    (hd : deviceAt s.dev target = some d) (hrunnable : d.runnable = false) :
    runPatch (target :: args) s = (Config.transientApplied target args, s) := by
  simp only [runPatch, hd, hrunnable, Bool.not_false, if_true]

theorem Booted.deviceAt_servo {s : State} (hb : Booted s) :
    deviceAt s.dev s.config.codeServo = some (servoDevice s.config) := by
  rw [hb.devices, deviceAt_boot, if_pos rfl]

theorem Booted.deviceAt_other {s : State} (hb : Booted s) {code : U8} (h : code ≠ s.config.codeServo) :
    deviceAt s.dev code = none := by
  rw [hb.devices, deviceAt_boot, if_neg h]

/-- PATCH to the servo on booted registries: the length check, the id check, then the update of `REG`, from the sixteen
bytes after the id (R177, R178, R181). -/
theorem Booted.runPatch_servo {s : State} (hb : Booted s) (args : List U8) :
    runPatch (s.config.codeServo :: args) s =
      if args.length < 17 then reject (.shortPayload s.config.codeServo (BitVec.ofNat 8 (args.length + 1))) s
      else if byteAt (s.config.codeServo :: args) 1 = 0 then reject (.badId 0) s
      else
        upsert (servoDevice s.config) (byteAt (s.config.codeServo :: args) 1)
          (ServoConfig.ofBytes ((args.drop 1).take 16)) s := by
  have hlen : (s.config.codeServo :: args).length < 2 + (16 : U8).toNat ↔ args.length < 17 := by
    simp
    omega
  simp only [runPatch, hb.deviceAt_servo, servoDevice_eq hb.config_wf, hlen]
  rfl

/-- A servo payload of an id other than 0 passes the checks and is read back whole; the bytes after it are not read
(R178, R181). -/
theorem Booted.runPatch_servoPayload {s : State} (hb : Booted s) {id : U8} (hid : id ≠ 0) (cfg : ServoConfig)
    (extra : List U8) :
    runPatch (servoPayload s.config id cfg ++ extra) s = upsert (servoDevice s.config) id cfg s := by
  have hlen : ¬ (id :: cfg.toBytes ++ extra).length < 17 := by simp
  have hcfg : ServoConfig.ofBytes (((id :: cfg.toBytes ++ extra).drop 1).take 16) = cfg := by
    have htake : ((id :: cfg.toBytes ++ extra).drop 1).take 16 = cfg.toBytes ++ [] :=
      (List.take_left' (toBytes_length cfg)).trans (List.append_nil _).symm
    rw [htake, ofBytes_toBytes]
  have hrun := hb.runPatch_servo (id :: cfg.toBytes ++ extra)
  rw [if_neg hlen, hcfg] at hrun
  exact hrun.trans (if_neg hid)

/-- A servo payload of id 0 fails the id check, once it is long enough (R178). -/
theorem Booted.runPatch_badId {s : State} (hb : Booted s) {args : List U8} (hargs : 16 ≤ args.length) :
    runPatch (s.config.codeServo :: 0 :: args) s = reject (.badId 0) s := by
  rw [hb.runPatch_servo, if_neg (by rw [List.length_cons]; omega)]
  exact if_pos rfl

/-- Settles O24: each of the checks of PATCH, in their order, ends in a rejection. -/
theorem patchRejectionsChangeNothing : Obligations.PatchRejectionsChangeNothing := by
  intro s hb
  refine ⟨rfl, fun target args htarget => ?_, fun args hargs => ?_, fun args hargs => ?_, fun cfg => ?_⟩
  · rw [exec, execPatch, runPatch_of_no_device args (hb.deviceAt_other htarget), complete_reject]
  · rw [exec, execPatch, hb.runPatch_servo, if_pos hargs, complete_reject]
  · rw [exec, execPatch, hb.runPatch_badId hargs, complete_reject]
  · rw [exec, execPatchServo, servoPayload, hb.runPatch_badId (toBytes_length cfg).ge, complete_reject]

/-- The ACK flag of PATCH is in the booted `CMD`, whatever `DEV` holds (R36). -/
theorem acks_patch_of_commands {s : State} (hwf : s.config.wf) (hcmd : s.cmd = bootCommands s.config) :
    s.acksOf s.config.codePatch = true :=
  (acksOf_congr rfl _).trans (Booted.acks_patch (s := { s with dev := bootDevices s.config }) ⟨hwf, hcmd, rfl⟩)

/-- Settles O28: the result of the target is all that PATCH takes from it, and the ACK goes with it. -/
theorem patchRunsTransientTargetOnce : Obligations.PatchRunsTransientTargetOnce := by
  intro s target args d hwf hcmd hd hrunnable
  rw [exec, execPatch, runPatch_of_not_runnable args hd hrunnable,
    complete_of_acks (acks_patch_of_commands hwf hcmd) rfl]

/-! ### A servo PATCH, by what is in the slot (R180 to R183) -/

/-- Both forms of a servo PATCH, with extra bytes and without, run the update of `REG`. -/
theorem Booted.exec_servoPatch {s : State} (hb : Booted s) {i : Instr} {id : U8} {cfg : ServoConfig} (hid : id ≠ 0)
    (hi : i = .patchServo id cfg ∨ ∃ extra, i = .patch (servoPayload s.config id cfg ++ extra)) :
    exec i s = .next (complete s.config.codePatch (upsert (servoDevice s.config) id cfg s)) := by
  rcases hi with rfl | ⟨extra, rfl⟩
  · rw [exec, execPatchServo, ← hb.runPatch_servoPayload hid cfg [], List.append_nil]
  · rw [exec, execPatch, hb.runPatch_servoPayload hid]

section

variable {s : State} {id : U8} {inst : Instance} {d : Device}

theorem upsert_of_empty (hget : regGet s.reg id = none) (d : Device) (cfg : ServoConfig) :
    upsert d id cfg s = (true, createAt s.sampled d.kind id cfg s.now) := by
  simp only [upsert, State.sampled_reg, hget]

theorem upsert_of_other_kind (hget : regGet s.reg id = some inst) (hkind : inst.kind ≠ d.kind) (cfg : ServoConfig) :
    upsert d id cfg s = reject (.unrunnableTarget id) s.sampled := by
  simp only [upsert, State.sampled_reg, hget, if_pos hkind]

theorem upsert_of_replace (hget : regGet s.reg id = some inst) (hkind : inst.kind = d.kind)
    (hmode : s.config.patchUpdateMode = .replace) (cfg : ServoConfig) :
    upsert d id cfg s = (true, configureAt s.sampled id inst cfg s.now) := by
  simp only [upsert, State.sampled_reg, State.sampled_config, hget, if_neg (not_not.2 hkind), hmode]

theorem upsert_of_ignore (hget : regGet s.reg id = some inst) (hkind : inst.kind = d.kind)
    (hmode : s.config.patchUpdateMode = .ignore) (cfg : ServoConfig) : upsert d id cfg s = (true, s.sampled) := by
  simp only [upsert, State.sampled_reg, State.sampled_config, hget, if_neg (not_not.2 hkind), hmode]

end

theorem Booted.sampled {s : State} (hb : Booted s) : Booted s.sampled :=
  hb.congr s.sampled_config s.sampled_cmd s.sampled_dev

/-- Settles O25: the servo is made in the empty slot and configured, and PATCH is acknowledged. -/
theorem patchCreatesConfiguredInstance : Obligations.PatchCreatesConfiguredInstance := by
  intro s i id cfg hb hid hempty hi
  rw [hb.exec_servoPatch hid hi, upsert_of_empty hempty, createAt_eq hb.sampled.config_wf,
    complete_of_acks hb.acks_patch]
  · simp [State.withServo, State.drawn, newInstance, servoDevice]
  · exact s.sampled_cmd

/-- Settles O27: the kind of the instance is not that of the servo device. -/
theorem patchOfAnotherKindIsRejected : Obligations.PatchOfAnotherKindIsRejected := by
  intro s i id cfg inst hb hid hget hkind hi
  rw [hb.exec_servoPatch hid hi, upsert_of_other_kind hget hkind, complete_reject, State.sampled_hist]

/-! ### The number of instances (R182) -/

/-- A write to an empty slot adds one entry. -/
theorem regPut_length_of_none (r : List (U8 × Instance)) (id : U8) (v : Instance) (h : regGet r id = none) :
    (regPut r id v).length = r.length + 1 := by
  induction r with
  | nil => rfl
  | cons e r ih =>
    obtain ⟨k, w⟩ := e
    rw [regGet_cons] at h
    split at h
    · cases h
    · next hk =>
      unfold regPut
      split_ifs with hlt heq
      · rfl
      · exact absurd heq.symm hk
      · exact congrArg (· + 1) (ih h)

/-- The update of `REG` adds an entry in an empty slot only. -/
theorem upsert_length {s : State} (hreg : RegWf s.reg) (d : Device) (id : U8) (cfg : ServoConfig) :
    (upsert d id cfg s).2.reg.length = s.reg.length + if regGet s.reg id = none then 1 else 0 := by
  obtain ⟨hsorted, -⟩ := hreg
  rcases upsert_cases d id cfg s with ⟨hget, he⟩ | ⟨inst, hget, ⟨-, he⟩ | ⟨-, -, he⟩ | ⟨-, -, he⟩⟩ <;> rw [he, hget]
  · simp [createAt_reg, regPut_length_of_none _ _ _ hget]
  · simp
  · simp [configureAt, regPut_length_of_some _ _ _ _ hsorted hget]
  · simp

/-- Settles O26: the mode says whether the servo is configured anew; PATCH is acknowledged in both. -/
theorem patchUpdatesByMode : Obligations.PatchUpdatesByMode := by
  intro s i id cfg inst hb hid hget hkind hi
  rw [hb.exec_servoPatch hid hi]
  refine ⟨fun hmode => ?_, fun hmode => ?_, fun hreg t h => ?_⟩
  · rw [upsert_of_replace hget hkind hmode, configureAt_eq hb.sampled.config_wf, complete_of_acks hb.acks_patch]
    · simp [State.withServo]
    · exact s.sampled_cmd
  · rw [upsert_of_ignore hget hkind hmode, complete_of_acks hb.acks_patch s.sampled_cmd]
    simp
  · cases h
    simp [upsert_length hreg, hget]

/-- Settles O33: the ACK leaves `REG` as the update left it. -/
theorem patchTwiceKeepsRegistrySize : Obligations.PatchTwiceKeepsRegistrySize := by
  intro s t id cfg hb hreg hid h
  rw [hb.exec_servoPatch hid (.inl rfl)] at h
  cases h
  rw [complete_reg, upsert_length hreg]

/-! ### ACTION, by what is in the slot (R190, R191) -/

section

variable {s : State} {id : U8} {inst : Instance}

theorem runAction_of_no_instance (h : id = 0 ∨ regGet s.reg id = none) (angle : U16) :
    runAction id angle s = reject (.noInstance id) s := by
  have haddressed : addressed s id = none := by
    unfold addressed
    split
    · rfl
    · next hid => exact h.resolve_left hid
  simp only [runAction, haddressed]

theorem addressed_of_some (hid : id ≠ 0) (hget : regGet s.reg id = some inst) : addressed s id = some inst := by
  rw [addressed, if_neg hid, hget]

theorem runAction_of_other_kind (hid : id ≠ 0) (hget : regGet s.reg id = some inst) (hkind : inst.kind ≠ .servo)
    (angle : U16) : runAction id angle s = reject (.unrunnableTarget id) s := by
  simp only [runAction, addressed_of_some hid hget, if_pos hkind]

theorem runAction_of_servo (hid : id ≠ 0) (hget : regGet s.reg id = some inst) (hkind : inst.kind = .servo)
    (angle : U16) : runAction id angle s = (true, setTargetAt s.sampled id inst angle s.now) := by
  simp only [runAction, addressed_of_some hid hget, if_neg (not_not.2 hkind)]

end

/-- Settles O29: no instance is addressed, or one that is no servo. -/
theorem actionRejectionsChangeNothing : Obligations.ActionRejectionsChangeNothing := by
  intro s id angle
  refine ⟨fun hnone => ?_, fun inst hid hget hkind => ?_⟩
  · rw [exec, execAction, runAction_of_no_instance hnone, complete_reject]
  · rw [exec, execAction, runAction_of_other_kind hid hget hkind, complete_reject]

/-- Settles O30: the servo in the slot is aimed at the angle, and ACTION is acknowledged. -/
theorem actionStartsMove : Obligations.ActionStartsMove := by
  intro s id angle inst hb hid hget hkind
  rw [exec, execAction, runAction_of_servo hid hget hkind, setTargetAt_eq hb.sampled.config_wf,
    complete_of_acks hb.acks_action]
  · simp [State.withServo]
  · exact s.sampled_cmd

end Sys2Proof.Machine
end

section
/-!
PROOFS. Which steps fill a slot of `REG` (41_commands.md R178, R180): the execution of a PATCH, and no other.
-/

namespace Sys2Proof.Machine

open Sys2Proof

/-! ### What fills no slot -/

/-- Every slot that is empty in `r` is empty in `r'`. -/
abbrev EmptySlotsStay (r r' : List (U8 × Instance)) : Prop := ∀ id, regGet r id = none → regGet r' id = none

theorem emptySlotsStay_of_eq {r r' : List (U8 × Instance)} (h : r' = r) : EmptySlotsStay r r' := h ▸ fun _ hid => hid

/-- An empty slot that stays so is not filled afterwards. -/
theorem EmptySlotsStay.not_filled {r r' : List (U8 × Instance)} (h : EmptySlotsStay r r') {id : U8} {b : Instance}
    (hnone : regGet r id = none) (hb : regGet r' id = some b) : False := by
  rw [h id hnone] at hb
  cases hb

/-- A write to a slot that is filled fills none. -/
theorem emptySlotsStay_put {r : List (U8 × Instance)} {k : U8} {inst : Instance} (hget : regGet r k = some inst)
    (v : Instance) : EmptySlotsStay r (regPut r k v) := by
  intro id hid
  have hne : id ≠ k := by
    rintro rfl
    rw [hget] at hid
    cases hid
  rw [regGet_regPut_other _ _ hne, hid]

theorem tickAt_emptySlotsStay (s : State) (id : U8) (t : U32) : EmptySlotsStay s.reg (tickAt s id t).reg := by
  cases hget : regGet s.reg id with
  | none => rw [tickAt_none hget]; exact emptySlotsStay_of_eq rfl
  | some inst => rw [tickAt_some hget]; exact emptySlotsStay_put hget _

/-- The sequencer's own steps leave `REG`, but for the sweep, which ticks the instances that are there (R137). -/
theorem SeqMove.emptySlotsStay {s t : State} (hm : SeqMove s t) : EmptySlotsStay s.reg t.reg := by
  cases hm with
  | sweep =>
    exact sweep_induction (fun u => EmptySlotsStay s.reg u.reg) s (emptySlotsStay_of_eq s.sampled_reg)
      (fun u id hu k hk => tickAt_emptySlotsStay u id s.now k (hu k hk)) fun _ hu => hu
  | _ => exact emptySlotsStay_of_eq rfl

theorem runAction_emptySlotsStay (id : U8) (angle : U16) (s : State) :
    EmptySlotsStay s.reg (runAction id angle s).2.reg := by
  rcases runAction_cases id angle s with ⟨-, he⟩ | ⟨inst, -, hget, ⟨-, he⟩ | ⟨-, he⟩⟩ <;> rw [he]
  · exact emptySlotsStay_of_eq rfl
  · exact emptySlotsStay_of_eq rfl
  · rw [setTargetAt, State.putActed_reg, State.sampled_reg]
    exact emptySlotsStay_put hget _

/-! ### What PATCH fills -/

/-- An instance of a kind as PATCH makes it for an id: attached, and settling at its default position (R180, R220). -/
structure NewlyMade (kind : DeviceKind) (id : U8) (b : Instance) : Prop where
  id_eq : b.id = id
  kind_eq : b.kind = kind
  settling : b.servo.phase = .settling
  attached : b.servo.attached = true

/-- The update of `REG` fills no slot but that of its id, with a newly made instance of the device's kind (R180). -/
theorem upsert_fills {d : Device} {k id : U8} {cfg : ServoConfig} {s : State} {b : Instance}
    (hnone : regGet s.reg id = none) (hb : regGet (upsert d k cfg s).2.reg id = some b) :
    id = k ∧ NewlyMade d.kind id b := by
  rcases upsert_cases d k cfg s with ⟨-, he⟩ | ⟨inst, hget, ⟨-, he⟩ | ⟨-, -, he⟩ | ⟨-, -, he⟩⟩ <;> rw [he] at hb
  · rw [createAt_reg, State.sampled_reg, regGet_regPut] at hb
    split at hb
    · next hk => cases hb; exact ⟨hk, hk.symm, rfl, rfl, rfl⟩
    · rw [hnone] at hb; cases hb
  · exact ((emptySlotsStay_of_eq s.sampled_reg).not_filled hnone hb).elim
  · rw [configureAt, State.putActed_reg, State.sampled_reg] at hb
    exact ((emptySlotsStay_put hget _).not_filled hnone hb).elim
  · exact ((emptySlotsStay_of_eq s.sampled_reg).not_filled hnone hb).elim

/-- PATCH fills no slot but that of the id in a payload that is long enough for a servo, and no slot 0 (R177, R178). -/
theorem Booted.runPatch_fills {s : State} (hb : Booted s) {payload : List U8} {id : U8} {b : Instance}
    (hnone : regGet s.reg id = none) (hget : regGet (runPatch payload s).2.reg id = some b) :
    18 ≤ payload.length ∧ byteAt payload 1 = id ∧ id ≠ 0 ∧ NewlyMade .servo id b := by
  have hstay (hreg : (runPatch payload s).2.reg = s.reg) : False :=
    (emptySlotsStay_of_eq hreg).not_filled hnone hget
  rcases runPatch_cases payload s with ⟨-, he⟩ | ⟨target, args, -, ⟨-, he⟩ | ⟨d, hd, hcase⟩⟩
  · exact (hstay (by rw [he]; rfl)).elim
  · exact (hstay (by rw [he]; rfl)).elim
  · rcases hcase with ⟨-, he⟩ | ⟨-, -, he⟩ | ⟨-, -, -, he⟩ | ⟨-, hlen, hid, he⟩
    · exact (hstay (by rw [he])).elim
    · exact (hstay (by rw [he]; rfl)).elim
    · exact (hstay (by rw [he]; rfl)).elim
    · have hservo := List.mem_of_find?_eq_some hd
      rw [hb.devices, bootDevices_eq, servoDevice_eq hb.config_wf, List.mem_singleton] at hservo
      subst hservo
      rw [he] at hget
      obtain ⟨hk, hmade⟩ := upsert_fills hnone hget
      exact ⟨hlen, hk.symm, hk ▸ hid, hmade⟩

/-! ### What the steps fill -/

/-- The handler of PATCH runs on a payload no longer than its effective size; where that is long enough for a servo, its
id byte is the buffer's (R103, R144). -/
theorem exec_decodePayload_patch (s : State) (P : List U8) (L : Nat) :
    ∃ payload, exec (decodePayload s.config .patch P L) s = .next (complete s.config.codePatch (runPatch payload s)) ∧
      (18 ≤ payload.length → 18 ≤ L ∧ byteAt payload 1 = byteAt P 1) := by
  by_cases hservo : s.config.isServoPatch (P.take L) = true
  · refine ⟨servoPayload s.config (byteAt P 1) (ServoConfig.ofBytes (P.drop 2)), ?_, fun _ => ⟨?_, rfl⟩⟩
    · simp only [decodePayload, hservo, if_true]
      rfl
    · simp only [Config.isServoPatch, Bool.and_eq_true, beq_iff_eq, List.length_take] at hservo
      omega
  · refine ⟨P.take L, ?_, fun hlen => ⟨hlen.trans (List.length_take_le L P), ?_⟩⟩
    · simp only [decodePayload, hservo]
      rfl
    · conv_rhs => rw [← List.take_append_drop L P]
      rw [byteAt_append_left (by omega)]

/-- A handler fills a slot by PATCH only. -/
theorem Booted.exec_decodePayload_fills {s t : State} (hb : Booted s) {k : CommandKind} {P : List U8} {L : Nat}
    {id : U8} {b : Instance} (h : exec (decodePayload s.config k P L) s = .next t) (hnone : regGet s.reg id = none)
    (hget : regGet t.reg id = some b) :
    k = .patch ∧ 18 ≤ L ∧ byteAt P 1 = id ∧ id ≠ 0 ∧ NewlyMade .servo id b := by
  cases k with
  | handshake | ack =>
    cases h
    rw [complete_reg] at hget
    exact ((emptySlotsStay_of_eq rfl).not_filled hnone hget).elim
  | action =>
    cases h
    rw [complete_reg] at hget
    exact ((runAction_emptySlotsStay _ _ s).not_filled hnone hget).elim
  | patch =>
    obtain ⟨payload, hexec, hpayload⟩ := exec_decodePayload_patch s P L
    cases hexec.symm.trans h
    rw [complete_reg] at hget
    obtain ⟨hlen, hid, hid0, hmade⟩ := hb.runPatch_fills hnone hget
    obtain ⟨hL, hbyte⟩ := hpayload hlen
    exact ⟨rfl, hL, hbyte ▸ hid, hid0, hmade⟩

/-- `SEQ` stands at the execution of a PATCH whose payload is long enough for a servo and names `id`, not 0. -/
def Seq.ExecutesPatchOf (q : Seq) (id : U8) : Prop :=
  ∃ hd P len timedOut, q = .exec hd P len timedOut ∧ hd.kind = .patch ∧ id ≠ 0 ∧ byteAt P 1 = id ∧ 18 ≤ len.toNat

theorem Booted.unitStep_fills {s t : State} (hb : Booted s) {id : U8} {b : Instance} (h : unitStep s = .next t)
    (hnone : regGet s.reg id = none) (hget : regGet t.reg id = some b) :
    s.seq.ExecutesPatchOf id ∧ NewlyMade .servo id b := by
  rcases unitStep_cases h with hmoved | ⟨i, s', hrun, hexec⟩
  · exact ((seqMove_of_fetch hmoved).emptySlotsStay.not_filled hnone hget).elim
  · rcases fetch_run_cases hrun with ⟨code, rest, -, -, -, rfl, rfl⟩ | ⟨hd, P, len, timedOut, hseq, rfl, rfl⟩
    · rw [exec_droppedInstr] at hexec
      cases hexec
      exact ((emptySlotsStay_of_eq rfl).not_filled hnone hget).elim
    · obtain ⟨hkind, hlen, hbyte, hid, hmade⟩ := hb.exec_decodePayload_fills hexec hnone hget
      exact ⟨⟨hd, P, len, timedOut, hseq, hkind, hid, hbyte, hlen⟩, hmade⟩

theorem Booted.step_fills {s t : State} (hb : Booted s) {id : U8} {b : Instance} (h : step s = .next t)
    (hnone : regGet s.reg id = none) (hget : regGet t.reg id = some b) :
    s.seq.ExecutesPatchOf id ∧ NewlyMade .servo id b := by
  obtain ⟨-, ⟨c, rest, -, rfl⟩ | ⟨rest, -, hunit⟩ | ⟨-, hunit⟩⟩ := step_cases h
  · exact ((emptySlotsStay_of_eq rfl).not_filled hnone hget).elim
  · exact Booted.unitStep_fills (s := s.setAgenda rest) (hb.congr rfl rfl rfl) hunit hnone hget
  · exact hb.unitStep_fills hunit hnone hget

/-- Settles O52: the host fills no slot, and the unit fills one in `S_EXEC` of PATCH only. -/
theorem onlyPatchCreatesInstances : Obligations.OnlyPatchCreatesInstances := by
  intro s t id b hinv hstep hnone hget
  obtain ⟨⟨hd, P, len, timedOut, hseq, hkind, hid, hbyte, hlen⟩, hmade⟩ := hinv.booted.step_fills hstep hnone hget
  exact ⟨hd, P, len, timedOut, hseq, hkind, hid, hbyte, hlen, hmade.id_eq, hmade.kind_eq, hmade.settling,
    hmade.attached⟩

end Sys2Proof.Machine
end

section
/-!
PROOFS. `configure` and `set_target` on the instance of an id (42_motion.md R220 to R223), the bounded map they use (R213),
and what follows for a target (R236) and a deceleration point (R233).
-/

namespace Sys2Proof.Machine

open Sys2Proof

/-! ### The bounded map (R213) -/

theorem boundedMap_of_not_ascending {x inLo inHi outLo outHi : Int} (h : inHi ≤ inLo) :
    boundedMap x inLo inHi outLo outHi = outLo := if_pos h

/-- On ascending ranges the map is its formula on naturals, where rounding toward zero is rounding down. -/
theorem boundedMap_natCast {x inLo inHi outLo outHi : Nat} (hin : inLo < inHi) (hout : outLo ≤ outHi) :
    boundedMap x inLo inHi outLo outHi =
      ((clampNat x inLo inHi - inLo) * (outHi - outLo) / (inHi - inLo) + outLo : Nat) := by
  obtain ⟨hclamp, -⟩ := clampNat_of_le (x := x) hin.le
  have hascending : ¬ (inHi : Int) ≤ inLo := by omega
  rw [boundedMap, if_neg hascending, clamp_natCast, ← Nat.cast_sub hclamp, ← Nat.cast_sub hout, ← Nat.cast_sub hin.le,
    ← Nat.cast_mul, ← Int.ofNat_tdiv, ← Nat.cast_add]

/-- A part of the input range, scaled to the output range, is no longer than that. -/
theorem scaled_le {x inLo inHi : Nat} (hin : inLo < inHi) (width : Nat) :
    (clampNat x inLo inHi - inLo) * width / (inHi - inLo) ≤ width := by
  obtain ⟨-, hclamp⟩ := clampNat_of_le (x := x) hin.le
  exact Nat.div_le_of_le_mul (Nat.mul_le_mul_right _ (Nat.sub_le_sub_right hclamp _))

theorem clampNat_of_le_low {x lo : Nat} (h : x ≤ lo) (hi : Nat) : clampNat x lo hi = lo := by
  unfold clampNat; omega

theorem clampNat_of_high_le {x lo hi : Nat} (h : hi ≤ x) (hle : lo ≤ hi) : clampNat x lo hi = hi := by
  unfold clampNat; omega

/-- Settles O45: on naturals the quotient is at most the width of the output range, 0 at the low end and all of it at the
high end. -/
theorem boundedMapStaysInRange : Obligations.BoundedMapStaysInRange := by
  intro x inLo inHi outLo outHi
  refine ⟨fun hin => boundedMap_of_not_ascending (by exact_mod_cast hin), fun hin hout => ?_⟩
  have hscaled := scaled_le (x := x) hin (outHi - outLo)
  rw [boundedMap_natCast hin hout, boundedMap_natCast hin hout, boundedMap_natCast hin hout,
    clampNat_of_le_low le_rfl, clampNat_of_high_le le_rfl hin.le, Nat.sub_self, Nat.zero_mul, Nat.zero_div,
    Nat.mul_div_cancel_left _ (Nat.sub_pos_of_lt hin)]
  refine ⟨rfl, ?_⟩
  generalize (clampNat x inLo inHi - inLo) * (outHi - outLo) / (inHi - inLo) = scaled at hscaled ⊢
  omega

/-! ### The two operations as instructions -/

section

variable {s s' : State} {id : U8} {a b : Instance}

theorem exec_configure_of_some (hwf : s.config.wf) (hget : regGet s.reg id = some a) (cfg : ServoConfig) (t : U32) :
    exec (.configure id cfg t) s =
      .next (s.withServo id a (configuredServo s.config cfg t) (configureRequests s.config id cfg)) := by
  simp only [exec, execConfigure, hget, configureAt_eq hwf]

/-- The model's choice of log 7: on an empty slot the instance is made first. -/
theorem exec_configure_of_none (hwf : s.config.wf) (hget : regGet s.reg id = none) (cfg : ServoConfig) (t : U32) :
    exec (.configure id cfg t) s =
      .next ((s.drawn 1).withServo id (newInstance .servo id s) (configuredServo s.config cfg t)
        (configureRequests s.config id cfg)) := by
  simp only [exec, execConfigure, hget, createAt_eq hwf]

theorem exec_setTarget_of_some (hget : regGet s.reg id = some a) (angle : U16) (t : U32) :
    exec (.setTarget id angle t) s = .next (setTargetAt s id a angle t) := by
  simp only [exec, execSetTarget, hget]

theorem exec_setTarget_of_none (hget : regGet s.reg id = none) (angle : U16) (t : U32) :
    exec (.setTarget id angle t) s = .next s := by
  simp only [exec, execSetTarget, hget]

theorem exec_tick_of_none (hget : regGet s.reg id = none) (t : U32) : exec (.tick id t) s = .next s :=
  congrArg Host.Outcome.next (tickAt_none hget t)

/-- The instance that `set_target` leaves in its slot. -/
theorem instance_of_exec_setTarget {angle : U16} {t : U32} (hget : regGet s.reg id = some a)
    (h : exec (.setTarget id angle t) s = .next s') (hget' : regGet s'.reg id = some b) :
    b = { a with servo := (setTargetServo s.config a.servo angle t).servo } := by
  rw [exec_setTarget_of_some hget] at h
  cases h
  rw [setTargetAt, State.putActed_reg, regGet_regPut_same] at hget'
  exact (Option.some.inj hget').symm

end

/-- Settles O34: an instance that is new is configured like one that exists. -/
theorem configureWritesEveryRegister : Obligations.ConfigureWritesEveryRegister := by
  intro s id cfg t hwf
  refine ⟨fun inst hget => exec_configure_of_some hwf hget cfg t, fun _ hget => ?_⟩
  exact ⟨newInstance .servo id s, rfl, rfl, exec_configure_of_none hwf hget cfg t⟩

/-- Settles O35: the servo of an instance is aimed, and an empty slot has none. -/
theorem setTargetStartsMove : Obligations.SetTargetStartsMove := by
  intro s id angle t hwf
  refine ⟨fun inst hget => ?_, fun hget => ⟨exec_setTarget_of_none hget angle t, exec_tick_of_none hget t⟩⟩
  rw [exec_setTarget_of_some hget, setTargetAt_eq hwf]

/-- The target of an angle is the pulse of the clamped angle (R211, R214, R222). -/
theorem toNat_targetOf {c : Config} (hwf : c.wf) (s : Servo) (angle : U16) :
    (targetOf c s angle).toNat =
      pulseNat c s.tmin s.tmax (clampNat angle.toNat s.userMin.toNat s.userMax.toNat) := by
  rw [targetOf_eq, toNat_toPulse hwf]

theorem setTargetServo_target (c : Config) (s : Servo) (angle : U16) (t : U32) :
    (setTargetServo c s angle t).servo.target = targetOf c s angle := by
  rw [setTargetServo_servo]
  split <;> rfl

/-- `set_target` does not move the servo (R222). -/
theorem setTargetServo_current (c : Config) (s : Servo) (angle : U16) (t : U32) :
    (setTargetServo c s angle t).servo.current = s.current := by
  rw [setTargetServo_servo]
  split <;> rfl

/-- A bounded acceleration sets out from rest (R222). -/
theorem setTargetServo_phase_of_bounded {s : Servo} (hA : s.maxAcceleration ≠ 0) (c : Config) (angle : U16) (t : U32) :
    (setTargetServo c s angle t).servo.phase = .accelerating := by
  rw [setTargetServo_servo, if_neg hA]

/-- Settles O44: the clamp takes an angle outside the user range to the end it is beyond. -/
theorem targetIsClampedToBoundary : Obligations.TargetIsClampedToBoundary := by
  intro s s' id angle t a b hwf hget hrange hexec hget'
  obtain rfl := instance_of_exec_setTarget hget hexec hget'
  have hrange := BitVec.le_def.1 hrange
  dsimp only
  rw [setTargetServo_target, toNat_targetOf hwf]
  refine ⟨fun hbelow => ?_, fun habove => ?_⟩
  · rw [clampNat_of_le_low (BitVec.lt_def.1 hbelow).le]
  · rw [clampNat_of_high_le (BitVec.lt_def.1 habove).le hrange]

/-- Settles O46: `set_target` keeps the invariant of the servo, and that holds this of a servo in Accelerating. -/
theorem decelPointLiesAhead : Obligations.DecelPointLiesAhead := by
  intro s s' id angle t a b hwf hget hinv hA hexec hget'
  obtain rfl := instance_of_exec_setTarget hget hexec hget'
  have haimed := hinv.after_setTarget hwf angle t
  exact ⟨setTargetServo_current _ _ _ _, haimed.decel_ahead (.inl (setTargetServo_phase_of_bounded hA _ _ _))⟩

end Sys2Proof.Machine
end

section
/-!
PROOFS. The tick of an instance (42_motion.md R225 to R230), each phase's arm with its whole outcomes, and what follows for
the phases (R231), the position of a move (R233, R234) and a servo that has settled (R235).
-/

namespace Sys2Proof.Machine

open Sys2Proof

/-! ### The tick as an instruction -/

section

variable {s s' : State} {id : U8} {a b : Instance} {t : U32}

/-- What a tick makes of the servo is what the instruction puts into the slot, and its requests go out. -/
theorem exec_tick_of_tickServo {sv : Servo} {out : List Request} (hget : regGet s.reg id = some a)
    (htick : tickServo s.config a.servo t = ⟨sv, out⟩) :
    exec (.tick id t) s = .next (s.withServo id a sv (out.map fun r => (id, r))) := by
  have h := execTick_some hget t
  rw [htick] at h
  exact h

/-- The instance that a tick leaves in its slot. -/
theorem instance_of_exec_tick (hget : regGet s.reg id = some a) (h : exec (.tick id t) s = .next s')
    (hget' : regGet s'.reg id = some b) : b = { a with servo := (tickServo s.config a.servo t).servo } := by
  rw [exec_tick_of_tickServo hget rfl] at h
  cases h
  rw [State.withServo, regGet_regPut_same] at hget'
  exact (Option.some.inj hget').symm

end

/-! ### The arms of a tick, as whole servos -/

/-- What a finished move leaves: the servo of R218, and its pulse at the target. -/
def finished (s : Servo) (t : U32) : Acted := ⟨finishedServo s t, [.writePulse s.target]⟩

/-- What a move stopped at its deceleration point leaves (R227, R228). -/
def braking (s : Servo) (speed : F32) (t : U32) : Acted :=
  ⟨brakingServo s speed t, [.writePulse s.decelPoint.trunc]⟩

theorem overSpeed_iff {s : Servo} {v : F32} :
    overSpeed s v = true ↔ s.maxSpeed ≠ 0 ∧ (F32.ofNat s.maxSpeed.toNat).lt v = true := by
  simp [overSpeed, Servo.speedBound]

section

variable {s : Servo} {t : U32} {dt p : F32}

theorem start_ite_writePulse (b : Bool) (x y : Servo) (v : U16) :
    (Acted.start (if b then x else y)).writePulse v =
      ⟨if b then { x with pulse := v } else { y with pulse := v }, [.writePulse v]⟩ := by
  cases b <;> rfl

/-- A tick in Accelerating (R227): the target wins over the deceleration point, which wins over the speed bound (R232). -/
theorem tickServo_eq_of_accelerating {free sp : F32} (c : Config) (hphase : s.phase = .accelerating)
    (hdt : dt = timeStep t s.lastTick) (hfree : free = s.speed.add (s.accel.mul dt))
    (hsp : sp = if overSpeed s free then s.speedBound else free) (hp : p = advance s.direction s.current sp dt) :
    tickServo c s t =
      if passed s.direction p s.goal then finished s t
      else if passed s.direction p s.decelPoint then braking s sp t
      else
        ⟨if overSpeed s free then { movedServo s p sp t with phase := .cruising, phaseStartedAt := t }
          else movedServo s p sp t, [.writePulse p.trunc]⟩ := by
  subst hdt hfree hsp hp
  rw [tickServo_of_accelerating hphase, tickAccelerating_eq]
  simp only [start_ite_writePulse]
  rfl

/-- A tick in Cruising (R228): an unbounded speed reaches the target at once. -/
theorem tickServo_eq_of_cruising (c : Config) (hphase : s.phase = .cruising) (hdt : dt = timeStep t s.lastTick)
    (hp : p = advance s.direction s.current s.speedBound dt) :
    tickServo c s t =
      if s.maxSpeed = 0 ∨ passed s.direction p s.goal = true then finished s t
      else if passed s.direction p s.decelPoint then braking s s.speedBound t
      else ⟨movedServo s p s.speed t, [.writePulse p.trunc]⟩ := by
  subst hdt hp
  rw [tickServo_of_cruising hphase, ite_or]
  rfl

/-- A tick in Decelerating (R229): a speed below 0 and an unbounded acceleration finish the move too. -/
theorem tickServo_eq_of_decelerating {sp : F32} (c : Config) (hphase : s.phase = .decelerating)
    (hdt : dt = timeStep t s.lastTick) (hsp : sp = s.speed.sub (s.accel.mul dt))
    (hp : p = advance s.direction s.current sp dt) :
    tickServo c s t =
      if s.maxAcceleration = 0 ∨ sp.lt F32.zero = true ∨ passed s.direction p s.goal = true then finished s t
      else ⟨movedServo s p sp t, [.writePulse p.trunc]⟩ := by
  subst hdt hsp hp
  rw [tickServo_of_decelerating hphase, ite_or, ite_or]
  rfl

/-- A tick in Settling (R230): the delay is over, or the servo waits. -/
theorem tickServo_eq_of_settling (c : Config) (hphase : s.phase = .settling) :
    tickServo c s t =
      if settled c s t then
        ⟨{ s with attached := false, phase := .idle, phaseStartedAt := t, lastTick := t }, [.detach]⟩
      else ⟨{ s with lastTick := t }, []⟩ := by
  rw [tickServo_of_settling hphase]
  rfl

/-- The settle delay on naturals: the time since the phase began, on a clock that wraps (R212, R230). -/
theorem settled_iff {c : Config} :
    settled c s t = true ↔ c.settleDelayMs.toNat ≤ (t.toNat + 2 ^ 32 - s.phaseStartedAt.toNat) % 2 ^ 32 := by
  have ht := t.isLt
  have h0 := s.phaseStartedAt.isLt
  rw [settled, elapsed, decide_eq_true_iff, BitVec.le_def, BitVec.toNat_sub]
  have hcomm : 2 ^ 32 - s.phaseStartedAt.toNat + t.toNat = t.toNat + 2 ^ 32 - s.phaseStartedAt.toNat := by omega
  rw [hcomm]

end

/-- Settles O36: the arm of Idle is the write of `last_tick` alone. -/
theorem idleTickWritesLastTickOnly : Obligations.IdleTickWritesLastTickOnly := by
  intro s id t inst hget hphase
  exact exec_tick_of_tickServo hget (tickServo_of_idle hphase)

/-- Settles O37: the comparison of the delay decides which of the two outcomes of R230 the tick has. -/
theorem settlingTickDetachesAfterDelay : Obligations.SettlingTickDetachesAfterDelay := by
  intro s id t inst hget hphase
  have htick := tickServo_eq_of_settling (t := t) s.config hphase
  refine ⟨fun hover => ?_, fun hwait => ?_⟩
  · exact exec_tick_of_tickServo hget (htick.trans (if_pos (settled_iff.2 hover)))
  · exact exec_tick_of_tickServo hget (htick.trans (if_neg fun h => not_le.2 hwait (settled_iff.1 h)))

/-- Settles O38: the outcomes of R227, in the order of R232. -/
theorem acceleratingTick : Obligations.AcceleratingTick := by
  intro s id t inst dt free sp p hget hphase _ hdt hfree hsp hp
  simp only [← overSpeed_iff] at hsp ⊢
  have htick := tickServo_eq_of_accelerating s.config hphase hdt hfree hsp hp
  refine ⟨fun hgoal => ?_, fun hgoal hdecel => ?_, fun hgoal hdecel => ?_⟩
  · exact exec_tick_of_tickServo hget (htick.trans (if_pos hgoal))
  · have hshort := htick.trans (if_neg (ne_true_of_eq_false hgoal))
    exact exec_tick_of_tickServo hget (hshort.trans (if_pos hdecel))
  · have hshort := htick.trans (if_neg (ne_true_of_eq_false hgoal))
    exact exec_tick_of_tickServo hget (hshort.trans (if_neg (ne_true_of_eq_false hdecel)))

/-- Settles O39: the outcomes of R228. -/
theorem cruisingTick : Obligations.CruisingTick := by
  intro s id t inst dt p hget hphase hdt hp
  have htick := tickServo_eq_of_cruising s.config hphase hdt hp
  refine ⟨fun hfinish => ?_, fun hV hgoal hdecel => ?_, fun hV hgoal hdecel => ?_⟩
  · exact exec_tick_of_tickServo hget (htick.trans (if_pos hfinish))
  · have hshort := htick.trans (if_neg (not_or.2 ⟨hV, ne_true_of_eq_false hgoal⟩))
    exact exec_tick_of_tickServo hget (hshort.trans (if_pos hdecel))
  · have hshort := htick.trans (if_neg (not_or.2 ⟨hV, ne_true_of_eq_false hgoal⟩))
    exact exec_tick_of_tickServo hget (hshort.trans (if_neg (ne_true_of_eq_false hdecel)))

/-- Settles O40: the outcomes of R229. -/
theorem deceleratingTick : Obligations.DeceleratingTick := by
  intro s id t inst dt sp p hget hphase hdt hsp hp
  have htick := tickServo_eq_of_decelerating s.config hphase hdt hsp hp
  refine ⟨fun hfinish => ?_, fun hA hspeed hgoal => ?_⟩
  · exact exec_tick_of_tickServo hget (htick.trans (if_pos hfinish))
  · have hgoesOn := not_or.2 ⟨hA, not_or.2 ⟨ne_true_of_eq_false hspeed, ne_true_of_eq_false hgoal⟩⟩
    exact exec_tick_of_tickServo hget (htick.trans (if_neg hgoesOn))

/-! ### Phases and positions -/

/-- Every outcome of every arm stays in its phase or takes one row of the table (R231). -/
theorem tickServo_phase (c : Config) (s : Servo) (t : U32) :
    s.phase = (tickServo c s t).servo.phase ∨ s.phase.tickTo (tickServo c s t).servo.phase = true := by
  cases hphase : s.phase with
  | idle => rw [tickServo_of_idle hphase]; exact .inl hphase.symm
  | accelerating =>
    rw [tickServo_eq_of_accelerating (sp := acceleratedSpeed s _) c hphase rfl rfl rfl rfl]
    split_ifs
    · exact .inr rfl
    · exact .inr rfl
    · exact .inr rfl
    · exact .inl hphase.symm
  | cruising =>
    rw [tickServo_eq_of_cruising c hphase rfl rfl]
    split_ifs
    · exact .inr rfl
    · exact .inr rfl
    · exact .inl hphase.symm
  | decelerating =>
    rw [tickServo_eq_of_decelerating c hphase rfl rfl rfl]
    split_ifs
    · exact .inr rfl
    · exact .inl hphase.symm
  | settling =>
    rw [tickServo_eq_of_settling c hphase]
    split_ifs
    · exact .inr rfl
    · exact .inl hphase.symm

/-- Settles O41: the instance after the tick holds the servo of its arm. -/
theorem tickPhaseTransitions : Obligations.TickPhaseTransitions := by
  intro s s' id t a b hget hexec hget'
  obtain rfl := instance_of_exec_tick hget hexec hget'
  exact tickServo_phase s.config a.servo t

/-- Settles O42: every outcome of a tick of a sound moving servo lies between its position and its target. -/
theorem tickNeverOvershoots : Obligations.TickNeverOvershoots := by
  intro s s' id t a b hget hinv hmoving hexec hget'
  obtain rfl := instance_of_exec_tick hget hexec hget'
  exact hinv.tick_between hmoving t

/-! ### A servo at rest -/

/-- A servo rests at its target, with the target and the pulse of `s`. -/
structure RestsLike (s sv : Servo) : Prop where
  at_goal : sv.current = sv.goal
  target : sv.target = s.target
  pulse : sv.pulse = s.pulse
  phase : sv.phase = .settling ∨ sv.phase = .idle

/-- A tick of a servo in Settling or Idle at most detaches it: it writes neither position, target nor pulse. -/
theorem RestsLike.tick {s sv : Servo} (h : RestsLike s sv) (c : Config) (t : U32) :
    RestsLike s (tickServo c sv t).servo ∧ ∀ v, .writePulse v ∉ (tickServo c sv t).out := by
  rcases h.phase with hphase | hphase
  · rw [tickServo_eq_of_settling c hphase]
    split_ifs
    · exact ⟨⟨h.at_goal, h.target, h.pulse, .inr rfl⟩, by simp⟩
    · exact ⟨{ h with }, by simp⟩
  · rw [tickServo_of_idle hphase]
    exact ⟨{ h with }, by simp [Acted.start]⟩

theorem RestsLike.foldl_tick {s sv : Servo} (h : RestsLike s sv) (c : Config) (ts : List U32) :
    RestsLike s (ts.foldl (fun sv u => (tickServo c sv u).servo) sv) := by
  induction ts generalizing sv with
  | nil => exact h
  | cons u ts ih => exact ih (h.tick c u).1

/-- Settles O43: each tick leaves the servo at rest, so any number does, and one more writes no pulse. -/
theorem settledServoStaysAtTarget : Obligations.SettledServoStaysAtTarget := by
  intro c s ts t hphase hgoal after
  have hrests : RestsLike s after := RestsLike.foldl_tick ⟨hgoal, rfl, rfl, hphase⟩ c ts
  refine ⟨?_, hrests.target, hrests.pulse, hrests.phase, (hrests.tick c t).2, tickServo_of_idle⟩
  rw [hrests.at_goal, goal_congr hrests.target]

end Sys2Proof.Machine
end

section
/-!
PROOFS. The actuator channels (60_exceptions.md R290): what the requests of a step are, for each id, and what they leave in
the `attached` register.
-/

namespace Sys2Proof.Machine

open Sys2Proof

/-! ### The requests of one channel -/

/-- Whether a channel is attached after a request (R290), from whether it was before. -/
def attachedAfter (on : Bool) : Request → Bool
  | .attach _ => true
  | .detach => false
  | .writePulse _ => on

/-- The requests to the channel of an id, in the order they went out. -/
def requestsOf (id : U8) (sent : List (U8 × Request)) : List Request :=
  sent.filterMap fun r => if r.1 = id then some r.2 else none

@[simp] theorem requestsOf_nil (id : U8) : requestsOf id [] = [] := rfl

@[simp] theorem requestsOf_append (id : U8) (sent sent' : List (U8 × Request)) :
    requestsOf id (sent ++ sent') = requestsOf id sent ++ requestsOf id sent' := List.filterMap_append

@[simp] theorem requestsOf_cons_same (id : U8) (r : Request) (sent : List (U8 × Request)) :
    requestsOf id ((id, r) :: sent) = r :: requestsOf id sent := List.filterMap_cons_some (if_pos rfl)

theorem requestsOf_cons_other {id k : U8} (h : k ≠ id) (r : Request) (sent : List (U8 × Request)) :
    requestsOf id ((k, r) :: sent) = requestsOf id sent := List.filterMap_cons_none (if_neg h)

/-- Requests that all go to one id. -/
theorem requestsOf_map (id k : U8) (out : List Request) :
    requestsOf id (out.map fun r => (k, r)) = if k = id then out else [] := by
  induction out with
  | nil => rw [List.map_nil, requestsOf_nil, ite_self]
  | cons r out ih =>
    rw [List.map_cons]
    by_cases hk : k = id
    · subst hk; rw [requestsOf_cons_same, ih, if_pos rfl, if_pos rfl]
    · rw [requestsOf_cons_other hk, ih, if_neg hk, if_neg hk]

/-- A channel is attached or detached by its own requests, one after the other. -/
theorem attachedBy_eq_foldl (id : U8) (was : Bool) (sent : List (U8 × Request)) :
    attachedBy id was sent = (requestsOf id sent).foldl attachedAfter was := by
  induction sent generalizing was with
  | nil => rfl
  | cons e sent ih =>
    obtain ⟨k, r⟩ := e
    have hhead : attachedBy id was ((k, r) :: sent) =
        attachedBy id (if k = id then attachedAfter was r else was) sent := by cases r <;> rfl
    rw [hhead, ih]
    by_cases hk : k = id
    · subst hk; rw [if_pos rfl, requestsOf_cons_same, List.foldl_cons]
    · rw [if_neg hk, requestsOf_cons_other hk]

/-! ### What one operation requests -/

/-- Everything an operation on a servo can do to its channel: whether it was attached, the requests of the operation, and
whether it is attached then (R220, R222, R225 to R230). A pulse on its own needs the channel attached. -/
inductive ChannelWork : Bool → List Request → Bool → Prop
  | silent (on : Bool) : ChannelWork on [] on
  | attach (was : Bool) (pin : U16) : ChannelWork was [.attach pin] true
  | attachAndPulse (was : Bool) (pin v : U16) : ChannelWork was [.attach pin, .writePulse v] true
  | pulse (v : U16) : ChannelWork true [.writePulse v] true
  | detach (was : Bool) : ChannelWork was [.detach] false

section

variable {was now : Bool} {out : List Request}

theorem ChannelWork.now_eq (h : ChannelWork was out now) : now = out.foldl attachedAfter was := by
  cases h <;> rfl

/-- The channel is attached where an operation writes a pulse, and stays so (R290). -/
theorem ChannelWork.attached_at_pulse (h : ChannelWork was out now) {before after : List Request} {v : U16}
    (hout : out = before ++ .writePulse v :: after) : before.foldl attachedAfter was = true ∧ now = true := by
  cases h with
  | silent | attach | detach => simp [List.cons_eq_append_iff] at hout
  | attachAndPulse was pin w =>
    obtain rfl : before = [.attach pin] := by simp_all [List.cons_eq_append_iff]
    exact ⟨rfl, rfl⟩
  | pulse w =>
    obtain rfl : before = [] := by simp_all [List.cons_eq_append_iff]
    exact ⟨rfl, rfl⟩

end

/-- `configure` attaches before it writes its pulse, whatever the channel was (R220, D38). -/
theorem channelWork_configureServo (c : Config) (s : Servo) (cfg : ServoConfig) (t : U32) (was : Bool) :
    ChannelWork was (configureServo c s cfg t).out (configureServo c s cfg t).servo.attached :=
  .attachAndPulse was _ _

/-- `set_target` attaches a detached channel and writes no pulse (R222, D25). -/
theorem channelWork_setTargetServo (c : Config) (s : Servo) (angle : U16) (t : U32) :
    ChannelWork s.attached (setTargetServo c s angle t).out (setTargetServo c s angle t).servo.attached := by
  have hon : (setTargetServo c s angle t).servo.attached = true := by
    rw [setTargetServo_servo]
    split <;> rfl
  have hout : (setTargetServo c s angle t).out = if s.attached then [] else [.attach s.pin] := by
    simp only [setTargetServo, start_reattach_eq]
    split <;> rfl
  rw [hon, hout]
  cases s.attached with
  | true => exact .silent true
  | false => exact .attach false s.pin

/-- A tick of a moving servo writes one pulse, and neither attaches nor detaches (R227 to R229). -/
theorem tickServo_pulses_of_moving (c : Config) {s : Servo} (hm : s.moving = true) (t : U32) :
    ∃ v, (tickServo c s t).out = [.writePulse v] ∧ (tickServo c s t).servo.attached = s.attached := by
  rcases moving_iff.1 hm with hphase | hphase | hphase
  · rw [tickServo_eq_of_accelerating (sp := acceleratedSpeed s _) c hphase rfl rfl rfl rfl]
    split_ifs <;> exact ⟨_, rfl, rfl⟩
  · rw [tickServo_eq_of_cruising c hphase rfl rfl]
    split_ifs <;> exact ⟨_, rfl, rfl⟩
  · rw [tickServo_eq_of_decelerating c hphase rfl rfl rfl]
    split_ifs <;> exact ⟨_, rfl, rfl⟩

/-- A tick writes a pulse in a moving phase only, where the invariant has the servo attached (R45(a), R225). -/
theorem ServoInv.channelWork_tickServo {c : Config} {s : Servo} (h : ServoInv c s) (t : U32) :
    ChannelWork s.attached (tickServo c s t).out (tickServo c s t).servo.attached := by
  by_cases hm : s.moving = true
  · obtain ⟨v, hout, hattached⟩ := tickServo_pulses_of_moving c hm t
    rw [hout, hattached, h.attached_of_moving hm]
    exact .pulse v
  · cases hphase : s.phase with
    | idle => rw [tickServo_of_idle hphase]; exact .silent _
    | settling =>
      rw [tickServo_eq_of_settling c hphase]
      split_ifs
      · exact .detach _
      · exact .silent _
    | accelerating | cruising | decelerating => simp [Servo.moving, hphase] at hm

/-! ### What a step requests -/

/-- Between two states each channel has the work of one operation at most, and the requests that went out are those of
these operations. -/
def ChannelsWorked (s t : State) : Prop :=
  ∃ sent, t.requests = s.requests ++ sent ∧
    ∀ id, ChannelWork (isAttached s.reg id) (requestsOf id sent) (isAttached t.reg id)

theorem channelsWorked_of_eq {s t : State} (hreg : t.reg = s.reg) (hreq : t.requests = s.requests) :
    ChannelsWorked s t := by
  refine ⟨[], hreq.trans (List.append_nil _).symm, fun id => ?_⟩
  rw [hreg]
  exact .silent _

/-- Nothing but `REG` and the requests of the later state counts. -/
theorem ChannelsWorked.congr {s t u : State} (h : ChannelsWorked s t) (hreg : u.reg = t.reg)
    (hreq : u.requests = t.requests) : ChannelsWorked s u := by
  unfold ChannelsWorked
  rw [hreg, hreq]
  exact h

theorem isAttached_of_none {r : List (U8 × Instance)} {id : U8} (h : regGet r id = none) :
    isAttached r id = false := by rw [isAttached, h]; rfl

theorem isAttached_of_some {r : List (U8 × Instance)} {id : U8} {inst : Instance} (h : regGet r id = some inst) :
    isAttached r id = inst.servo.attached := by rw [isAttached, h]; rfl

theorem isAttached_regPut_other (r : List (U8 × Instance)) {id k : U8} (v : Instance) (h : k ≠ id) :
    isAttached (regPut r id v) k = isAttached r k := by rw [isAttached, regGet_regPut_other r v h, isAttached]

/-- An operation on the servo of one id is work on that id's channel alone. -/
theorem channelsWorked_putActed {s u : State} (hreg : u.reg = s.reg) (hreq : u.requests = s.requests) (id : U8)
    (inst : Instance) {a : Acted} (h : ChannelWork (isAttached s.reg id) a.out a.servo.attached) :
    ChannelsWorked s (u.putActed id inst a) := by
  refine ⟨a.out.map fun r => (id, r), by rw [State.putActed_requests, hreq], fun k => ?_⟩
  rw [requestsOf_map, State.putActed_reg, hreg]
  by_cases hk : id = k
  · subst hk
    rw [if_pos rfl, isAttached_of_some (regGet_regPut_same _ _ _)]
    exact h
  · rw [if_neg hk, isAttached_regPut_other _ _ (Ne.symm hk)]
    exact .silent _

/-- PATCH configures one instance at most, which it may have made (R176, R180, R182). -/
theorem upsert_channelsWorked (d : Device) (id : U8) (cfg : ServoConfig) (s : State) :
    ChannelsWorked s (upsert d id cfg s).2 := by
  rcases upsert_cases d id cfg s with ⟨-, he⟩ | ⟨inst, -, ⟨-, he⟩ | ⟨-, -, he⟩ | ⟨-, -, he⟩⟩ <;> rw [he]
  · exact channelsWorked_putActed (u := s.sampled.drawn 1) s.sampled_reg s.sampled_requests id _
      (channelWork_configureServo ..)
  · exact channelsWorked_of_eq s.sampled_reg s.sampled_requests
  · exact channelsWorked_putActed s.sampled_reg s.sampled_requests id inst (channelWork_configureServo ..)
  · exact channelsWorked_of_eq s.sampled_reg s.sampled_requests

theorem runPatch_channelsWorked (payload : List U8) (s : State) : ChannelsWorked s (runPatch payload s).2 := by
  rcases runPatch_cases payload s with ⟨-, he⟩ | ⟨target, args, -, ⟨-, he⟩ | ⟨d, -, hcase⟩⟩
  · rw [he]; exact channelsWorked_of_eq rfl rfl
  · rw [he]; exact channelsWorked_of_eq rfl rfl
  · rcases hcase with ⟨-, he⟩ | ⟨-, -, he⟩ | ⟨-, -, -, he⟩ | ⟨-, -, -, he⟩ <;> rw [he]
    · exact channelsWorked_of_eq rfl rfl
    · exact channelsWorked_of_eq rfl rfl
    · exact channelsWorked_of_eq rfl rfl
    · exact upsert_channelsWorked d _ _ s

/-- ACTION gives one instance a target, or is rejected (R190, R191). -/
theorem runAction_channelsWorked (id : U8) (angle : U16) (s : State) : ChannelsWorked s (runAction id angle s).2 := by
  rcases runAction_cases id angle s with ⟨-, he⟩ | ⟨inst, -, hget, ⟨-, he⟩ | ⟨-, he⟩⟩ <;> rw [he]
  · exact channelsWorked_of_eq rfl rfl
  · exact channelsWorked_of_eq rfl rfl
  · refine channelsWorked_putActed s.sampled_reg s.sampled_requests id inst ?_
    rw [isAttached_of_some hget]
    exact channelWork_setTargetServo ..

/-- The end of an execution makes no request. -/
@[simp] theorem complete_requests (code : U8) (r : Bool × State) : (complete code r).requests = r.2.requests := by
  unfold complete
  split <;> rfl

theorem ChannelsWorked.complete {s : State} {r : Bool × State} (h : ChannelsWorked s r.2) (code : U8) :
    ChannelsWorked s (complete code r) := h.congr (complete_reg code r) (complete_requests code r)

theorem exec_channelsWorked {s t : State} {i : Instr} (hi : i.onWire = true) (h : exec i s = .next t) :
    ChannelsWorked s t := by
  cases i with
  | handshake | ack => cases h; exact (channelsWorked_of_eq rfl rfl).complete _
  | patch payload => cases h; exact (runPatch_channelsWorked payload s).complete _
  | patchServo id cfg => cases h; exact (runPatch_channelsWorked _ s).complete _
  | action id angle => cases h; exact (runAction_channelsWorked id angle s).complete _
  | reservedNul | reservedLf | reservedHash | unassigned => cases h; exact channelsWorked_of_eq rfl rfl
  | configure | setTarget | tick => simp [Instr.onWire] at hi

/-- In a registry of distinct ids, the ticks of all entries request of a channel what the tick of its entry does. -/
theorem requestsOf_flatMap_tickRequests {c : Config} {t : U32} {r : List (U8 × Instance)}
    (hsorted : (r.map Prod.fst).Pairwise (· < ·)) (id : U8) :
    requestsOf id (r.flatMap (tickRequests c t)) =
      ((regGet r id).map fun inst => (tickServo c inst.servo t).out).getD [] := by
  induction r with
  | nil => rfl
  | cons e r ih =>
    obtain ⟨hlt, hsorted⟩ := List.pairwise_cons.1 hsorted
    rw [List.flatMap_cons, requestsOf_append, tickRequests, requestsOf_map, ih hsorted, regGet_cons]
    by_cases hk : e.1 = id
    · have hrest : regGet r id = none := regGet_eq_none fun e' he' heq =>
        BitVec.ne_of_lt (hlt _ (List.mem_map_of_mem he')) (hk.trans heq.symm)
      rw [if_pos hk, if_pos hk, hrest]
      exact List.append_nil _
    · rw [if_neg hk, if_neg hk, List.nil_append]

/-- The sweep ticks each instance once, so each channel has the work of one tick at most (R137). -/
theorem Inv.sweep_channelsWorked {s : State} (h : Inv s) : ChannelsWorked s (sweep s) := by
  rw [sweep_eq h.booted.config_wf h.reg_ok]
  refine ⟨_, rfl, fun id => ?_⟩
  have hafter := regGet_map (tickInstance s.config s.now) s.reg id
  rw [requestsOf_flatMap_tickRequests h.reg_ok.1]
  cases hget : regGet s.reg id with
  | none =>
    rw [hget] at hafter
    rw [isAttached_of_none hget, isAttached_of_none hafter]
    exact .silent false
  | some inst =>
    rw [hget] at hafter
    rw [isAttached_of_some hget, isAttached_of_some hafter]
    obtain ⟨-, hservo⟩ := h.servo_ok _ (mem_of_regGet hget)
    exact hservo.channelWork_tickServo s.now

theorem Inv.unitStep_channelsWorked {s t : State} (hinv : Inv s) (h : unitStep s = .next t) : ChannelsWorked s t := by
  rcases unitStep_cases h with hmoved | ⟨i, s', hrun, hexec⟩
  · cases seqMove_of_fetch hmoved with
    | sweep => exact hinv.sweep_channelsWorked
    | _ => exact channelsWorked_of_eq rfl rfl
  · obtain ⟨hwire, n, rfl⟩ := fetch_run_onWire hrun
    exact exec_channelsWorked (s := s.setRx (s.rx.drop n)) hwire hexec

theorem Inv.step_channelsWorked {s t : State} (hinv : Inv s) (h : step s = .next t) : ChannelsWorked s t := by
  obtain ⟨-, ⟨b, rest, -, rfl⟩ | ⟨rest, -, hunit⟩ | ⟨-, hunit⟩⟩ := step_cases h
  · exact channelsWorked_of_eq rfl rfl
  · exact Inv.unitStep_channelsWorked (s := s.setAgenda rest)
      ⟨hinv.booted.congr rfl rfl rfl, hinv.seq_ok, hinv.reg_ok, hinv.servo_ok⟩ hunit
  · exact hinv.unitStep_channelsWorked hunit

/-- Settles O55: a step works each channel by one operation at most, and each operation pulses an attached channel. -/
theorem pulsesOnlyWhenAttached : Obligations.PulsesOnlyWhenAttached := by
  intro s t sent hinv hstep hsent id
  obtain ⟨sent', hsent', hwork⟩ := hinv.step_channelsWorked hstep
  obtain rfl : sent' = sent := List.append_cancel_left (hsent'.symm.trans hsent)
  simp only [attachedBy_eq_foldl]
  refine ⟨fun before v after hsplit => ?_, (hwork id).now_eq⟩
  refine (hwork id).attached_at_pulse (v := v) (after := requestsOf id after) ?_
  rw [hsplit, requestsOf_append, requestsOf_cons_same]

end Sys2Proof.Machine
end

section
/-!
PROOFS. The state after reset and boot (70_reset_and_hazards.md R300, R310): what the registries hold, and the invariant.
-/

namespace Sys2Proof.Machine

open Sys2Proof

/-- The values of R8 meet R9, whatever the settle delay that R8 leaves open is. -/
theorem standard_wf : Config.standard.wf := by decide

/-- Settles O56: the boot turns no registration away, so the registries hold the descriptors of R36. -/
theorem resetState : Obligations.ResetState := by
  refine ⟨rfl, standard_wf, fun c hwf => ?_⟩
  have hcmd : (State.resetWith c).cmd = inScopeCommands c := bootCommands_eq hwf
  have hdev : (State.resetWith c).dev = [servoDevice c] := bootDevices_eq c
  rw [inScopeCommands_eq hwf] at hcmd
  rw [servoDevice_eq hwf] at hdev
  exact ⟨rfl, rfl, rfl, rfl, rfl, rfl, hcmd, hdev⟩

/-- Settles O58: the boot registers the descriptors, `S_POLL` asks nothing of a payload, and there is no instance yet. -/
theorem invariantHoldsAtReset : Obligations.InvariantHoldsAtReset :=
  fun _ moves tape hwf => inv_resetWith hwf moves tape

end Sys2Proof.Machine
end

section
/-!
PROOFS. Messages (30_encoding.md R90 to R94, R100 to R111): one relation says which bytes are the message of which
instruction; the decoder reads it, the encoder writes it, and the sequencer frames it.
-/

namespace Sys2Proof

/-! ### Codes and the commands they name -/

/-- The code of a command (R92). -/
def Config.codeOf (c : Config) : CommandKind → U8
  | .handshake => c.codeHandshake
  | .ack => c.codeAck
  | .patch => c.codePatch
  | .action => c.codeAction

theorem commandOf_codeOf {c : Config} (hwf : c.wf) (k : CommandKind) : c.commandOf (c.codeOf k) = some k := by
  obtain ⟨hHA, hHP, hHT, hAP, hAT, hPT⟩ := Machine.commands_distinct hwf
  cases k with
  | handshake => exact if_pos rfl
  | ack => simp [Config.commandOf, Config.codeOf, hHA.symm]
  | patch => simp [Config.commandOf, Config.codeOf, hHP.symm, hAP.symm]
  | action => simp [Config.commandOf, Config.codeOf, hHT.symm, hAT.symm, hPT.symm]

theorem eq_codeOf_of_commandOf {c : Config} {code : U8} {k : CommandKind} (h : c.commandOf code = some k) :
    code = c.codeOf k := by
  unfold Config.commandOf at h
  split_ifs at h <;> cases h <;> assumption

theorem commandOf_eq_none_iff {c : Config} {code : U8} : c.commandOf code = none ↔ code ∉ c.commandCodes := by
  unfold Config.commandOf
  split_ifs <;> simp_all [Config.commandCodes]

theorem not_contains_commandCodes {c : Config} {code : U8} :
    (!c.commandCodes.contains code) = true ↔ c.commandOf code = none := by
  rw [commandOf_eq_none_iff, Bool.not_eq_true', ← Bool.not_eq_true, List.contains_iff_mem]

theorem wf_unassigned_iff {c : Config} {code : U8} :
    (Instr.unassigned code).wf c = true ↔ c.commandOf code = none ∧ code ≠ 0 ∧ code ≠ 10 ∧ code ≠ 35 := by
  simp only [Instr.wf, Bool.and_eq_true, not_contains_commandCodes, bne_iff_ne, and_assoc]

/-! ### What a payload spells -/

/-- Two bytes of a payload, with those behind them (R62). -/
theorem be16Bytes_be16_append_drop {P : List U8} {i : Nat} (h : i + 1 < P.length) :
    be16Bytes (be16 P i) ++ P.drop (i + 2) = P.drop i := by
  rw [be16_eq h, be16Bytes_bytePair, List.drop_eq_getElem_cons (Nat.lt_of_succ_lt h), List.drop_eq_getElem_cons h]
  rfl

/-- Sixteen configuration bytes go out as they came in (R103). -/
theorem toBytes_ofBytes {bytes : List U8} (h : bytes.length = 16) : (ServoConfig.ofBytes bytes).toBytes = bytes := by
  have hpair (i : Nat) (hi : i < 15) : be16Bytes (be16 bytes i) ++ bytes.drop (i + 2) = bytes.drop i :=
    be16Bytes_be16_append_drop (by omega)
  have hlast : be16Bytes (be16 bytes 14) = bytes.drop 14 := by
    rw [← hpair 14 (by omega), List.drop_of_length_le h.le, List.append_nil]
  simp only [ServoConfig.toBytes, ServoConfig.ofBytes, List.append_assoc, hlast]
  rw [hpair 12 (by omega), hpair 10 (by omega), hpair 8 (by omega), hpair 6 (by omega), hpair 4 (by omega),
    hpair 2 (by omega), hpair 0 (by omega), List.drop_zero]

/-- The servo form of PATCH is the payload of some id and configuration (R103, R121). -/
theorem isServoPatch_iff {c : Config} {payload : List U8} :
    c.isServoPatch payload = true ↔ ∃ id cfg, payload = servoPayload c id cfg := by
  constructor
  · intro h
    simp only [Config.isServoPatch, Bool.and_eq_true, beq_iff_eq] at h
    obtain ⟨hlen, hhead⟩ := h
    match payload, hlen, hhead with
    | target :: id :: cfg, hlen, hhead =>
      refine ⟨id, ServoConfig.ofBytes cfg, ?_⟩
      rw [servoPayload, toBytes_ofBytes (by simpa using hlen), Option.some.inj hhead]
  · rintro ⟨id, cfg, rfl⟩
    simp [Config.isServoPatch, servoPayload]

/-- The servo form is read back, whatever stands behind it in the buffer. -/
theorem decodePayload_servoPayload (c : Config) (id : U8) (cfg : ServoConfig) (tail : List U8) :
    decodePayload c .patch (servoPayload c id cfg ++ tail) 18 = .patchServo id cfg := by
  have htake : (servoPayload c id cfg ++ tail).take 18 = servoPayload c id cfg := List.take_left' rfl
  have hservo : c.isServoPatch (servoPayload c id cfg) = true := isServoPatch_iff.2 ⟨id, cfg, rfl⟩
  simp only [decodePayload, htake, hservo, if_true]
  exact congrArg (Instr.patchServo id) (ofBytes_toBytes cfg tail)

theorem decodePayload_patch {c : Config} {payload : List U8} (h : c.isServoPatch payload = false) :
    decodePayload c .patch payload payload.length = .patch payload := by
  simp [decodePayload, h]

/-- The two bytes of an angle are its field (R104). -/
theorem decodePayload_action (c : Config) (id hi lo : U8) (tail : List U8) (L : Nat) :
    decodePayload c .action (id :: hi :: lo :: tail) L = .action id (hi ++ lo) := rfl

/-- A payload of the length that its frame declares (R91, R94): any for a variable frame, and else the fixed one. -/
structure FitsFrame (c : Config) (k : CommandKind) (payload : List U8) (len : U8) : Prop where
  size : k.size c = .variable ∨ k.size c = .fixed len
  length : payload.length = len.toNat

/-- The payload of an ACTION is an id and the two bytes of an angle (R104). -/
theorem FitsFrame.payload_of_action {c : Config} (hwf : c.wf) {payload : List U8} {len : U8}
    (h : FitsFrame c .action payload len) : ∃ id hi lo, payload = [id, hi, lo] := by
  obtain ⟨hvariable | hfixed, hlen⟩ := h
  · cases hvariable
  · cases hfixed
    rw [Machine.actionPayloadSize_of_wf hwf] at hlen
    exact List.length_eq_three.1 hlen

/-- A handler reads no byte behind its payload (R24, R144). -/
theorem FitsFrame.decodePayload_append {c : Config} (hwf : c.wf) {k : CommandKind} {payload : List U8} {len : U8}
    (h : FitsFrame c k payload len) (tail : List U8) :
    decodePayload c k (payload ++ tail) len.toNat = decodePayload c k payload len.toNat := by
  obtain ⟨hsize, hlen⟩ := h
  cases k with
  | handshake | ack => rfl
  | patch =>
    rw [← hlen]
    cases hservo : c.isServoPatch payload with
    | true =>
      obtain ⟨id, cfg, rfl⟩ := isServoPatch_iff.1 hservo
      exact (decodePayload_servoPayload c id cfg tail).trans (decodePayload_servoPayload c id cfg []).symm
    | false => simp [decodePayload, hservo]
  | action =>
    obtain ⟨id, hi, lo, rfl⟩ := FitsFrame.payload_of_action hwf ⟨hsize, hlen⟩
    rfl

/-! ### Messages -/

/-- The bytes of one message and the instruction they spell (R91 to R94): a code that `CMD` does not assign, alone, or a
command's code, its length byte where its frame is variable, and its payload. -/
inductive Message (c : Config) (i : Instr) : List U8 → Prop
  | dropped {code : U8} (hcode : c.commandOf code = none) (hi : droppedInstr code = i) : Message c i [code]
  | fixedFrame {code len : U8} {k : CommandKind} {payload : List U8} (hcode : c.commandOf code = some k)
      (hsize : k.size c = .fixed len) (hlen : payload.length = len.toNat)
      (hi : decodePayload c k payload len.toNat = i) : Message c i (code :: payload)
  | variableFrame {code len : U8} {k : CommandKind} {payload : List U8} (hcode : c.commandOf code = some k)
      (hsize : k.size c = .variable) (hlen : payload.length = len.toNat)
      (hi : decodePayload c k payload len.toNat = i) : Message c i (code :: len :: payload)

/-! ### The decoder reads messages -/

section

variable {c : Config} {code len : U8} {k : CommandKind} {rest : List U8}

theorem decodeBody_of_short {n : Nat} {bytes : List U8} (h : bytes.length < n) :
    decodeBody c k n bytes = .error (.shortFrame n bytes.length) := if_pos h

theorem decodeBody_of_enough {n : Nat} {bytes : List U8} (h : n ≤ bytes.length) :
    decodeBody c k n bytes = .ok (decodePayload c k (bytes.take n) n, bytes.drop n) := if_neg h.not_gt

theorem decode_of_dropped (hcode : c.commandOf code = none) :
    decode c (code :: rest) = .ok (droppedInstr code, rest) := by
  simp only [decode, hcode]

theorem decode_of_fixed (hcode : c.commandOf code = some k) (hsize : k.size c = .fixed len) :
    decode c (code :: rest) = decodeBody c k len.toNat rest := by
  simp only [decode, hcode, hsize]

theorem decode_of_no_length (hcode : c.commandOf code = some k) (hsize : k.size c = .variable) :
    decode c [code] = .error .noLength := by
  simp only [decode, hcode, hsize]

theorem decode_of_variable (hcode : c.commandOf code = some k) (hsize : k.size c = .variable) :
    decode c (code :: len :: rest) = decodeBody c k len.toNat rest := by
  simp only [decode, hcode, hsize]

end

theorem decodeBody_append (c : Config) (k : CommandKind) {payload : List U8} {n : Nat} (hlen : payload.length = n)
    (rest : List U8) : decodeBody c k n (payload ++ rest) = .ok (decodePayload c k payload n, rest) := by
  rw [decodeBody_of_enough (by simp [← hlen]), List.take_left' hlen, List.drop_left' hlen]

/-- A message is read as its instruction, whatever bytes follow it. -/
theorem Message.decode_append {c : Config} {i : Instr} {bytes : List U8} (h : Message c i bytes) (rest : List U8) :
    decode c (bytes ++ rest) = .ok (i, rest) := by
  cases h with
  | dropped hcode hi => rw [← hi]; exact decode_of_dropped hcode
  | fixedFrame hcode hsize hlen hi =>
    rw [← hi]; exact (decode_of_fixed hcode hsize).trans (decodeBody_append c _ hlen rest)
  | variableFrame hcode hsize hlen hi =>
    rw [← hi]; exact (decode_of_variable hcode hsize).trans (decodeBody_append c _ hlen rest)

/-- A body that is read is a payload of the declared length and the rest. -/
theorem decodeBody_eq_ok {c : Config} {k : CommandKind} {n : Nat} {bytes rest : List U8} {i : Instr}
    (h : decodeBody c k n bytes = .ok (i, rest)) :
    ∃ payload, payload.length = n ∧ bytes = payload ++ rest ∧ decodePayload c k payload n = i := by
  rcases Nat.lt_or_ge bytes.length n with hshort | henough
  · rw [decodeBody_of_short hshort] at h; cases h
  · rw [decodeBody_of_enough henough] at h; cases h
    exact ⟨_, List.length_take_of_le henough, (List.take_append_drop n bytes).symm, rfl⟩

/-- What is read is a message, and the rest follows it. -/
theorem message_of_decode {c : Config} {i : Instr} {bytes rest : List U8} (h : decode c bytes = .ok (i, rest)) :
    ∃ taken, bytes = taken ++ rest ∧ Message c i taken := by
  match bytes with
  | [] => cases h
  | code :: tail =>
    cases hcode : c.commandOf code with
    | none =>
      rw [decode_of_dropped hcode] at h; cases h
      exact ⟨[code], rfl, .dropped hcode rfl⟩
    | some k =>
      cases hsize : k.size c with
      | fixed len =>
        rw [decode_of_fixed hcode hsize] at h
        obtain ⟨payload, hlen, rfl, hi⟩ := decodeBody_eq_ok h
        exact ⟨code :: payload, rfl, .fixedFrame hcode hsize hlen hi⟩
      | _ =>
        match tail with
        | [] => rw [decode_of_no_length hcode hsize] at h; cases h
        | len :: body =>
          rw [decode_of_variable hcode hsize] at h
          obtain ⟨payload, hlen, rfl, hi⟩ := decodeBody_eq_ok h
          exact ⟨code :: len :: payload, rfl, .variableFrame hcode hsize hlen hi⟩

/-! ### The encoder writes messages -/

/-- The encoding of a well-formed instruction with a wire form is its message. -/
theorem message_encode {c : Config} (hwf : c.wf) {i : Instr} (hwire : i.onWire = true) (hi : i.wf c = true) :
    Message c i (encode c i) := by
  cases i with
  | handshake => exact .fixedFrame (len := 0) (commandOf_codeOf hwf .handshake) rfl rfl rfl
  | ack => exact .fixedFrame (len := 0) (commandOf_codeOf hwf .ack) rfl rfl rfl
  | patch payload =>
    simp only [Instr.wf, Bool.and_eq_true, decide_eq_true_eq, Bool.not_eq_true'] at hi
    obtain ⟨hshort, hservo⟩ := hi
    have hlen : payload.length = (BitVec.ofNat 8 payload.length).toNat := by
      rw [BitVec.toNat_ofNat, Nat.mod_eq_of_lt (by omega)]
    exact .variableFrame (commandOf_codeOf hwf .patch) rfl hlen (hlen ▸ decodePayload_patch hservo)
  | patchServo id cfg =>
    exact .variableFrame (commandOf_codeOf hwf .patch) rfl rfl (decodePayload_servoPayload c id cfg [])
  | action id angle =>
    refine .fixedFrame (len := c.actionPayloadSize) (commandOf_codeOf hwf .action) rfl ?_ ?_
    · rw [Machine.actionPayloadSize_of_wf hwf]; rfl
    · exact congrArg (Instr.action id) (halves_append angle)
  | reservedNul => exact .dropped (not_contains_commandCodes.1 hi) rfl
  | reservedLf => exact .dropped (not_contains_commandCodes.1 hi) rfl
  | reservedHash => exact .dropped (not_contains_commandCodes.1 hi) rfl
  | unassigned code =>
    obtain ⟨hcode, hnul, hlf, hhash⟩ := wf_unassigned_iff.1 hi
    exact .dropped hcode (by rw [droppedInstr, if_neg hnul, if_neg hlf, if_neg hhash])
  | configure | setTarget | tick => cases hwire

/-- An instruction whose bytes are `bytes`, with a wire form and well formed (R3, R91). -/
structure WrittenAs (c : Config) (i : Instr) (bytes : List U8) : Prop where
  bytes_eq : bytes = encode c i
  onWire : i.onWire = true
  wf : i.wf c = true

theorem writtenAs_dropped {c : Config} {code : U8} (hcode : c.commandOf code = none) :
    WrittenAs c (droppedInstr code) [code] := by
  unfold droppedInstr
  split_ifs with hnul hlf hhash
  · subst hnul; exact ⟨rfl, rfl, not_contains_commandCodes.2 hcode⟩
  · subst hlf; exact ⟨rfl, rfl, not_contains_commandCodes.2 hcode⟩
  · subst hhash; exact ⟨rfl, rfl, not_contains_commandCodes.2 hcode⟩
  · exact ⟨rfl, rfl, wf_unassigned_iff.2 ⟨hcode, hnul, hlf, hhash⟩⟩

theorem writtenAs_patch (c : Config) {payload : List U8} {len : U8} (hlen : payload.length = len.toNat) :
    WrittenAs c (decodePayload c .patch payload len.toNat) (c.codePatch :: len :: payload) := by
  cases hservo : c.isServoPatch payload with
  | true =>
    obtain ⟨id, cfg, rfl⟩ := isServoPatch_iff.1 hservo
    have h18 : len = 18 := BitVec.eq_of_toNat_eq hlen.symm
    subst h18
    have hi : decodePayload c .patch (servoPayload c id cfg) 18 = .patchServo id cfg :=
      decodePayload_servoPayload c id cfg []
    exact hi ▸ ⟨rfl, rfl, rfl⟩
  | false =>
    have hi := decodePayload_patch hservo
    have hshort : payload.length ≤ 255 := by omega
    rw [← hlen, hi]
    refine ⟨?_, rfl, by simp [Instr.wf, hservo, hshort]⟩
    rw [encode, hlen, BitVec.ofNat_toNat, BitVec.setWidth_eq]

theorem writtenAs_fixed {c : Config} (hwf : c.wf) {k : CommandKind} {payload : List U8} {len : U8}
    (hsize : k.size c = .fixed len) (hlen : payload.length = len.toNat) :
    WrittenAs c (decodePayload c k payload len.toNat) (c.codeOf k :: payload) := by
  cases k with
  | handshake | ack =>
    cases hsize
    rw [List.length_eq_zero_iff.1 hlen]
    exact ⟨rfl, rfl, rfl⟩
  | patch => cases hsize
  | action =>
    obtain ⟨id, hi, lo, rfl⟩ := FitsFrame.payload_of_action hwf ⟨.inr hsize, hlen⟩
    rw [decodePayload_action]
    exact ⟨by rw [encode, be16Bytes_bytePair]; rfl, rfl, rfl⟩

/-- PATCH alone has a variable frame (R36). -/
theorem eq_patch_of_size {c : Config} {k : CommandKind} (h : k.size c = .variable) : k = .patch := by
  cases k with
  | patch => rfl
  | _ => cases h

/-- A message is well formed and its bytes are its encoding. -/
theorem Message.writtenAs {c : Config} (hwf : c.wf) {i : Instr} {bytes : List U8} (h : Message c i bytes) :
    WrittenAs c i bytes := by
  cases h with
  | dropped hcode hi => exact hi ▸ writtenAs_dropped hcode
  | fixedFrame hcode hsize hlen hi =>
    rw [← hi, eq_codeOf_of_commandOf hcode]
    exact writtenAs_fixed hwf hsize hlen
  | variableFrame hcode hsize hlen hi =>
    rw [← hi, eq_codeOf_of_commandOf hcode, eq_patch_of_size hsize]
    exact writtenAs_patch c hlen

end Sys2Proof

namespace Sys2Proof.Machine

open Sys2Proof

/-- Settles O1: the encoding is a message of the instruction, and the decoder reads messages. -/
theorem decodeEncodeRoundTrip : Obligations.DecodeEncodeRoundTrip :=
  fun _ _ rest hwf hwire hi => (message_encode hwf hwire hi).decode_append rest

/-- Settles O2: what is read is a message, and a message's bytes are its encoding. -/
theorem encodeDecodeRoundTrip : Obligations.EncodeDecodeRoundTrip := by
  intro c bytes rest i hwf h
  obtain ⟨taken, rfl, hmessage⟩ := message_of_decode h
  obtain ⟨hbytes, hwire, hi⟩ := hmessage.writtenAs hwf
  exact ⟨by rw [hbytes], hwire, hi⟩

/-- Settles O3: the code names the command, and the command fixes the frame. -/
theorem frameLengthFollowsCode : Obligations.FrameLengthFollowsCode := by
  intro c rest hwf
  have haction : CommandKind.action.size c = .fixed 3 := congrArg PayloadSize.fixed (actionPayloadSize_of_wf hwf)
  have hcodeAction := commandOf_codeOf hwf .action
  have hcodePatch := commandOf_codeOf hwf .patch
  refine ⟨?_, ?_, fun code hcode => ?_, fun id hi lo => ?_, fun hshort => ?_, ?_, fun len henough => ?_,
    fun len hshort => ?_⟩
  · exact decode_of_fixed (commandOf_codeOf hwf .handshake) rfl
  · exact decode_of_fixed (commandOf_codeOf hwf .ack) rfl
  · exact ⟨_, decode_of_dropped (commandOf_eq_none_iff.2 hcode)⟩
  · exact (decode_of_fixed hcodeAction haction).trans (decodeBody_append c .action (payload := [id, hi, lo]) rfl rest)
  · exact (decode_of_fixed hcodeAction haction).trans (decodeBody_of_short hshort)
  · exact decode_of_no_length hcodePatch rfl
  · exact ⟨_, (decode_of_variable hcodePatch rfl).trans (decodeBody_of_enough henough)⟩
  · exact (decode_of_variable hcodePatch rfl).trans (decodeBody_of_short hshort)

/-- A table word whose first bytes are the encoding of a well-formed instruction is decoded to it (R92). -/
theorem decodeTableWord_of_encode {i : Instr} {nbits w : Nat} (hwire : i.onWire = true)
    (hi : i.wf Config.standard = true) (hbytes : encode Config.standard i <+: tableBytes nbits w) :
    decodeTableWord nbits w = some i := by
  obtain ⟨rest, hrest⟩ := hbytes
  rw [decodeTableWord, ← hrest, decodeEncodeRoundTrip _ _ rest standard_wf hwire hi]

/-- Settles O5: each word begins with the bytes of its instruction. -/
theorem sampleWordsDecode : Obligations.SampleWordsDecode := by
  refine ⟨?_, ?_, ?_, ?_, ?_, ?_, ?_, ?_, ?_, ?_⟩ <;> refine decodeTableWord_of_encode rfl rfl ?_ <;> decide +kernel

end Sys2Proof.Machine
end

section
/-!
PROOFS. The unit's step by what it comes to (40_dispatch.md R130 to R138): the step that runs an instruction, the framing
of a whole message (R132 to R135, R144), and the agenda as what no unit step reads.
-/

namespace Sys2Proof.Machine

open Sys2Proof

/-! ### The unit's step, as the agenda names it -/

theorem step_of_unit_entry {s : State} {moves : List Move} (hwf : s.config.wf) (hagenda : s.agenda = .unit :: moves) :
    step s = unitStep (s.setAgenda moves) := by
  rw [step_eq_of_wf hwf, hagenda]

theorem unitStep_of_run {s s' : State} {i : Instr} (h : fetch s = .run i s') : unitStep s = exec i s' := by
  rw [unitStep, h]

theorem unitStep_of_moved {s t : State} (h : fetch s = .moved t) : unitStep s = .next t := by
  rw [unitStep, h]

theorem fetch_of_unassigned {s : State} {code : U8} {rest : List U8} (hseq : s.seq = .poll) (hrx : s.rx = code :: rest)
    (hcmd : commandAt s.cmd code = none) : fetch s = .run (droppedInstr code) (s.setRx rest) :=
  (fetch_of_poll hseq).trans (fetchPoll_of_unassigned hrx hcmd)

/-- Settles O6: what the sequencer fetches, in `S_EXEC` and before an unassigned code, is the statement's instruction. -/
theorem stepRunsDecodedInstruction : Obligations.StepRunsDecodedInstruction := by
  intro s hwf
  refine ⟨fun hd P len timedOut hseq => ?_, fun code rest hseq hrx hcmd => ?_⟩
  · refine ⟨fun hagenda => step_of_run hwf hagenda (fetch_of_exec hseq), fun moves hagenda => ?_⟩
    exact (step_of_unit_entry hwf hagenda).trans (unitStep_of_run (fetch_of_exec (s := s.setAgenda moves) hseq))
  · refine ⟨fun hagenda => step_of_run hwf hagenda (fetch_of_unassigned hseq hrx hcmd), fun moves hagenda => ?_⟩
    exact (step_of_unit_entry hwf hagenda).trans
      (unitStep_of_run (fetch_of_unassigned (s := s.setAgenda moves) hseq hrx hcmd))

/-- Each of the sequencer's moves is what it fetches (R131 to R137). -/
theorem SeqMove.fetch_eq {s t : State} (hm : SeqMove s t) : fetch s = .moved t := by
  cases hm with
  | noByte hq hrx => exact (fetch_of_poll hq).trans (fetchPoll_of_empty hrx)
  | noPayload hd code rest hq hrx hcmd hsize => exact (fetch_of_poll hq).trans (fetchPoll_of_noPayload hrx hcmd hsize)
  | fixedPayload hd code rest hq hrx hcmd n hsize hn =>
    exact (fetch_of_poll hq).trans (fetchPoll_of_fixed hrx hcmd hsize hn)
  | variablePayload hd code rest hq hrx hcmd hsize =>
    exact (fetch_of_poll hq).trans (fetchPoll_of_variable hrx hcmd hsize)
  | lengthTimeout hd hq hrx => rw [fetch_of_waitLen hq, fetchLength_of_empty hrx]
  | lengthZero hd rest hq hrx => rw [fetch_of_waitLen hq, fetchLength_of_zero hrx]
  | length hd len rest hq hrx hlen => rw [fetch_of_waitLen hq, fetchLength_of_ne_zero hrx hlen]
  | payloadTimeout hd n hq hshort => rw [fetch_of_wait hq, fetchPayload, if_pos hshort]
  | payload hd n hq hlong => rw [fetch_of_wait hq, fetchPayload, if_neg hlong.not_gt]
  | sweep hq => exact fetch_of_sweep hq

/-! ### The framing of a whole message -/

/-- The boot registers, under each command's code, its kind (R36). -/
theorem commandAt_boot_kind {c : Config} (hwf : c.wf) (code : U8) :
    (commandAt (bootCommands c) code).map Command.kind = c.commandOf code := by
  rw [commandAt_boot hwf, Config.commandOf]
  split_ifs <;> rfl

/-- The boot registers each command with the frame of its kind (R36). -/
theorem size_of_mem_bootCommands {c : Config} (hwf : c.wf) {hd : Command} (h : hd ∈ bootCommands c) :
    hd.size = hd.kind.size c := by
  rw [bootCommands_eq hwf] at h
  simp only [inScopeCommands, List.mem_cons, List.not_mem_nil, or_false] at h
  rcases h with rfl | rfl | rfl | rfl <;> rfl

theorem Booted.commandAt_none {s : State} (hb : Booted s) {code : U8} (h : s.config.commandOf code = none) :
    commandAt s.cmd code = none := by
  rwa [← commandAt_boot_kind hb.config_wf, ← hb.commands, Option.map_eq_none_iff] at h

theorem Booted.commandAt_some {s : State} (hb : Booted s) {code : U8} {k : CommandKind}
    (h : s.config.commandOf code = some k) :
    ∃ hd, commandAt s.cmd code = some hd ∧ hd.kind = k ∧ hd.size = hd.kind.size s.config := by
  rw [← commandAt_boot_kind hb.config_wf, ← hb.commands, Option.map_eq_some_iff] at h
  obtain ⟨hd, hcmd, hkind⟩ := h
  have hmem : hd ∈ bootCommands s.config := hb.commands ▸ List.mem_of_find?_eq_some hcmd
  exact ⟨hd, hcmd, hkind, size_of_mem_bootCommands hb.config_wf hmem⟩

/-- After at most `k` steps from `s` the next one executes `i`, with `rest` left in `RX` and the state else as in `s`
but for `SEQ` and the count of draws. -/
def RunsWithin (k : Nat) (s : State) (i : Instr) (rest : List U8) : Prop :=
  ∃ (m : Nat) (s' : State), m ≤ k ∧ Host.Core.run Sys2Proof.core (m + 1) s = exec i s' ∧
    s' = { s with rx := rest, seq := s'.seq, drawCount := s'.drawCount }

section

variable {s u : State} {hd : Command} {payload rest : List U8} {len : U8} {i : Instr} {k : Nat}

theorem RunsWithin.mono (h : RunsWithin k s i rest) {l : Nat} (hkl : k ≤ l) : RunsWithin l s i rest := by
  obtain ⟨m, s', hm, hrun⟩ := h
  exact ⟨m, s', hm.trans hkl, hrun⟩

theorem runsWithin_of_run {s' : State} (hwf : s.config.wf) (hagenda : s.agenda = []) (h : fetch s = .run i s')
    (hframe : s' = { s with rx := rest, seq := s'.seq, drawCount := s'.drawCount }) : RunsWithin 0 s i rest :=
  ⟨0, s', Nat.le_refl 0, (run_one s).trans (step_of_run hwf hagenda h), hframe⟩

/-- One step of framing more. -/
theorem RunsWithin.of_move (hwf : s.config.wf) (hagenda : s.agenda = []) (hmove : SeqMove s u)
    (hframe : u = { s with rx := u.rx, seq := u.seq, drawCount := u.drawCount }) (h : RunsWithin k u i rest) :
    RunsWithin (k + 1) s i rest := by
  obtain ⟨m, s', hm, hrun, hs'⟩ := h
  refine ⟨m + 1, s', Nat.succ_le_succ hm, ?_, ?_⟩
  · exact (run_succ_of_next _ (step_of_moved hwf hagenda hmove.fetch_eq)).trans hrun
  · rw [hframe] at hs'; exact hs'

/-- A dispatch that has begun runs the instruction of its payload; the drawn bytes are not read (R138, R144). -/
theorem runsWithin_beginExec (hwf : s.config.wf) (hagenda : s.agenda = [])
    (hfits : FitsFrame s.config hd.kind payload len) (timedOut : Bool) :
    RunsWithin 0 (beginExec hd payload len timedOut s) (decodePayload s.config hd.kind payload len.toNat) s.rx := by
  rw [← hfits.decodePayload_append hwf (s.draws (s.config.maxPayload - payload.length))]
  exact runsWithin_of_run hwf hagenda (fetch_of_exec (beginExec_seq hd payload len timedOut s)) rfl

/-- A wait whose payload is there takes it (R135). -/
theorem runsWithin_of_wait (hwf : s.config.wf) (hagenda : s.agenda = []) (hseq : s.seq = .wait hd len)
    (hrx : s.rx = payload ++ rest) (hfits : FitsFrame s.config hd.kind payload len) :
    RunsWithin 1 s (decodePayload s.config hd.kind payload len.toNat) rest := by
  have htake : s.rx.take len.toNat = payload := by rw [hrx, List.take_left' hfits.length]
  have hdrop : s.rx.drop len.toNat = rest := by rw [hrx, List.drop_left' hfits.length]
  have hlong : len.toNat ≤ s.rx.length := by rw [hrx, ← hfits.length, List.length_append]; exact Nat.le_add_right _ _
  have hmove := SeqMove.payload hd len hseq hlong
  rw [htake, hdrop] at hmove
  exact .of_move hwf hagenda hmove rfl (runsWithin_beginExec (s := s.setRx rest) hwf hagenda hfits false)

/-- Once the frame's length is known, an empty payload begins the dispatch and another is waited for (R132, R133). -/
theorem runsWithin_of_length (hwf : s.config.wf) (hagenda : s.agenda = [])
    (hfits : FitsFrame s.config hd.kind payload len)
    (hempty : len = 0 → SeqMove s (beginExec hd [] 0 false (s.setRx (payload ++ rest))))
    (hwait : len ≠ 0 → SeqMove s ((s.setRx (payload ++ rest)).setSeq (.wait hd len))) :
    RunsWithin 2 s (decodePayload s.config hd.kind payload len.toNat) rest := by
  by_cases hlen : len = 0
  · subst hlen
    obtain rfl : payload = [] := List.length_eq_zero_iff.1 hfits.length
    have hbegun := runsWithin_beginExec (s := s.setRx rest) hwf hagenda hfits false
    exact (RunsWithin.of_move hwf hagenda (hempty rfl) rfl hbegun).mono (by decide)
  · exact .of_move hwf hagenda (hwait hlen) rfl (runsWithin_of_wait hwf hagenda rfl rfl hfits)

end

/-- A message at the front of `RX` is framed in at most three steps (R132 to R135). -/
theorem Booted.runsWithin_of_message {s : State} (hb : Booted s) (hseq : s.seq = .poll) (hagenda : s.agenda = [])
    {i : Instr} {bytes rest : List U8} (hmessage : Message s.config i bytes) (hrx : s.rx = bytes ++ rest) :
    RunsWithin 3 s i rest := by
  have hwf := hb.config_wf
  cases hmessage with
  | dropped hcode hi =>
    rw [← hi]
    exact (runsWithin_of_run hwf hagenda (fetch_of_unassigned hseq hrx (hb.commandAt_none hcode)) rfl).mono (by decide)
  | fixedFrame hcode hsize hlen hi =>
    obtain ⟨hd, hcmd, rfl, hdsize⟩ := hb.commandAt_some hcode
    rw [hsize] at hdsize
    rw [← hi]
    refine (runsWithin_of_length hwf hagenda ⟨.inr hsize, hlen⟩ (fun h0 => ?_) fun h0 => ?_).mono (by decide)
    · exact .noPayload hd _ _ hseq hrx hcmd (h0 ▸ hdsize)
    · exact .fixedPayload hd _ _ hseq hrx hcmd _ hdsize h0
  | variableFrame hcode hsize hlen hi =>
    obtain ⟨hd, hcmd, rfl, hdsize⟩ := hb.commandAt_some hcode
    rw [← hi]
    refine .of_move hwf hagenda (.variablePayload hd _ _ hseq hrx hcmd (hdsize.trans hsize)) rfl ?_
    refine runsWithin_of_length hwf hagenda ⟨.inl hsize, hlen⟩ (fun h0 => ?_) fun h0 => ?_
    · exact .lengthZero hd _ rfl (by rw [← h0]; rfl)
    · exact .length hd _ _ rfl rfl h0

/-- Settles O7: the encoding is a message, and a message is framed in at most three steps. -/
theorem wholeMessageIsFramedAndRun : Obligations.WholeMessageIsFramedAndRun :=
  fun _ _ _ hb hseq hagenda hwire hi hrx =>
    hb.runsWithin_of_message hseq hagenda (message_encode hb.config_wf hwire hi) hrx

/-! ### A unit step does not read the agenda -/

section

variable (s : State) (moves : List Move)

theorem State.sampled_setAgenda : (s.setAgenda moves).sampled = s.sampled.setAgenda moves := by
  unfold State.sampled; rw [State.setAgenda_clockTape]; split <;> rfl

theorem complete_setAgenda (code : U8) (b : Bool) :
    complete code (b, s.setAgenda moves) = (complete code (b, s)).setAgenda moves := by
  unfold complete
  rw [acksOf_congr (s.setAgenda_cmd moves)]
  split <;> rfl

theorem upsert_setAgenda (d : Device) (id : U8) (cfg : ServoConfig) :
    upsert d id cfg (s.setAgenda moves) = ((upsert d id cfg s).1, (upsert d id cfg s).2.setAgenda moves) := by
  rcases upsert_cases d id cfg s with ⟨hget, he⟩ | ⟨inst, hget, ⟨hk, he⟩ | ⟨hk, hmode, he⟩ | ⟨hk, hmode, he⟩⟩ <;>
    rw [he]
  · rw [upsert_of_empty (s := s.setAgenda moves) hget, State.sampled_setAgenda]; rfl
  · rw [upsert_of_other_kind (s := s.setAgenda moves) hget hk, State.sampled_setAgenda]; rfl
  · rw [upsert_of_replace (s := s.setAgenda moves) hget hk hmode, State.sampled_setAgenda]; rfl
  · rw [upsert_of_ignore (s := s.setAgenda moves) hget hk hmode, State.sampled_setAgenda]

theorem runPatch_setAgenda (payload : List U8) :
    runPatch payload (s.setAgenda moves) = ((runPatch payload s).1, (runPatch payload s).2.setAgenda moves) := by
  cases payload with
  | nil => rfl
  | cons target args =>
    simp only [runPatch, State.setAgenda_dev]
    cases deviceAt s.dev target with
    | none => rfl
    | some d =>
      dsimp only
      split_ifs
      · rfl
      · rfl
      · rfl
      · exact upsert_setAgenda s moves d _ _

theorem runAction_setAgenda (id : U8) (angle : U16) :
    runAction id angle (s.setAgenda moves) = ((runAction id angle s).1, (runAction id angle s).2.setAgenda moves) := by
  rcases runAction_cases id angle s with ⟨hnone, he⟩ | ⟨inst, hid, hget, ⟨hk, he⟩ | ⟨hk, he⟩⟩ <;> rw [he]
  · exact runAction_of_no_instance (s := s.setAgenda moves) hnone angle
  · exact runAction_of_other_kind (s := s.setAgenda moves) hid hget hk angle
  · rw [runAction_of_servo (s := s.setAgenda moves) hid hget hk, State.sampled_setAgenda]; rfl

theorem tickAt_setAgenda (id : U8) (t : U32) : tickAt (s.setAgenda moves) id t = (tickAt s id t).setAgenda moves := by
  cases hget : regGet s.reg id with
  | none => rw [tickAt_none hget]; exact tickAt_none (s := s.setAgenda moves) hget t
  | some inst => rw [tickAt_some hget]; exact tickAt_some (s := s.setAgenda moves) hget t

theorem sweep_setAgenda : sweep (s.setAgenda moves) = (sweep s).setAgenda moves := by
  have hticks (t : U32) (ids : List U8) (s' : State) :
      ids.foldl (fun s'' id => tickAt s'' id t) (s'.setAgenda moves) =
        (ids.foldl (fun s'' id => tickAt s'' id t) s').setAgenda moves := by
    induction ids generalizing s' with
    | nil => rfl
    | cons id ids ih => rw [List.foldl_cons, tickAt_setAgenda, ih, List.foldl_cons]
  simp only [sweep, State.sampled_setAgenda, State.setAgenda_config, hticks]
  rfl

end

section

variable {s t : State} (moves : List Move)

theorem exec_setAgenda {i : Instr} (hi : i.onWire = true) (h : exec i s = .next t) :
    exec i (s.setAgenda moves) = .next (t.setAgenda moves) := by
  cases i with
  | handshake => cases h; exact congrArg Host.Outcome.next (complete_setAgenda (s.txPush _) moves _ _)
  | ack => cases h; exact congrArg Host.Outcome.next (complete_setAgenda s moves _ _)
  | patch payload =>
    cases h; simp only [exec, execPatch, State.setAgenda_config, runPatch_setAgenda, complete_setAgenda]
  | patchServo id cfg =>
    cases h; simp only [exec, execPatchServo, State.setAgenda_config, runPatch_setAgenda, complete_setAgenda]
  | action id angle =>
    cases h; simp only [exec, execAction, State.setAgenda_config, runAction_setAgenda, complete_setAgenda]
  | reservedNul | reservedLf | reservedHash | unassigned => cases h; rfl
  | configure | setTarget | tick => cases hi

theorem SeqMove.setAgenda (hm : SeqMove s t) : SeqMove (s.setAgenda moves) (t.setAgenda moves) := by
  cases hm with
  | noByte hq hrx => exact .noByte hq hrx
  | noPayload hd code rest hq hrx hcmd hsize => exact .noPayload hd code rest hq hrx hcmd hsize
  | fixedPayload hd code rest hq hrx hcmd n hsize hn =>
    exact .fixedPayload (s := s.setAgenda moves) hd code rest hq hrx hcmd n hsize hn
  | variablePayload hd code rest hq hrx hcmd hsize => exact .variablePayload hd code rest hq hrx hcmd hsize
  | lengthTimeout hd hq hrx => exact .lengthTimeout hd hq hrx
  | lengthZero hd rest hq hrx => exact .lengthZero hd rest hq hrx
  | length hd len rest hq hrx hlen => exact .length hd len rest hq hrx hlen
  | payloadTimeout hd n hq hshort => exact .payloadTimeout hd n hq hshort
  | payload hd n hq hlong => exact .payload hd n hq hlong
  | sweep hq => rw [← sweep_setAgenda]; exact .sweep hq

theorem unitStep_setAgenda (h : unitStep s = .next t) : unitStep (s.setAgenda moves) = .next (t.setAgenda moves) := by
  rcases unitStep_cases h with hmoved | ⟨i, s', hrun, hexec⟩
  · exact unitStep_of_moved ((seqMove_of_fetch hmoved).setAgenda moves).fetch_eq
  · have hexec' := exec_setAgenda moves (fetch_run_onWire hrun).1 hexec
    rcases fetch_run_cases hrun with ⟨code, rest, hseq, hrx, hcmd, rfl, rfl⟩ | ⟨hd, P, len, timedOut, hseq, rfl, rfl⟩
    · exact (unitStep_of_run (fetch_of_unassigned (s := s.setAgenda moves) hseq hrx hcmd)).trans hexec'
    · exact (unitStep_of_run (fetch_of_exec (s := s'.setAgenda moves) hseq)).trans hexec'

end

/-- Settles O13: the entry leaves a unit step, which does the same under any agenda. -/
theorem agendaEntryRunsTheSameUnitStep : Obligations.AgendaEntryRunsTheSameUnitStep := by
  intro s t moves hagenda h
  obtain ⟨hwf, -⟩ := step_cases (s := s.setAgenda []) h
  have hunit : unitStep (s.setAgenda []) = .next t := (step_of_no_agenda (s := s.setAgenda []) hwf rfl).symm.trans h
  exact (step_of_unit_entry (s := s) hwf hagenda).trans (unitStep_setAgenda (s := s.setAgenda []) moves hunit)

end Sys2Proof.Machine
end
